-- ==== Sys2Proof/Word.lean ====
section
/-! DEFINITION. The widths the spec moves values in (00_scope R8, R10): registers and command words of 32 bits,
symbols of 8 bits, node indices of 9 bits, and the two plainest conversions between bits and words. -/

namespace Sys2Proof

/-- A register or a command word, 32 bits, bit 0 least significant (R10). -/
abbrev Word := BitVec 32

/-- A symbol, one byte value 0..255 (R8 SYM_BITS). -/
abbrev Sym := BitVec 8

/-- A node index, 9 bits (R8 NODE_BITS). -/
abbrev NodeIdx := BitVec 9

/-- One bit as a 32-bit word, 0 or 1. -/
def bitWord (b : Bool) : Word := if b then 1#32 else 0#32

/-- `zext_32` of R10: pad with zero bits to 32 bits. -/
def zext32 {n : Nat} (v : BitVec n) : Word := v.zeroExtend 32

end Sys2Proof
end

