-- ==== Sys2Proof/Config.lean ====
section
/-! DEFINITION. The block's fixed parameters (00_scope R8 "none is left open"), its identity (R33) and the indices of
its register window (10_state R22). The spec leaves no parameter to an implementation that a result depends on, so
nothing here is an uninterpreted constant. -/

namespace Sys2Proof.Config

/-- NSYMBOLS: 256 symbols (R8). -/
def nSymbols : Nat := 256

/-- MAX_NODES: 511 arena entries (R8). -/
def maxNodes : Nat := 511

/-- MAX_TOTAL: 0xFFFFFFFF (R8, R31). -/
def maxTotal : Nat := 0xFFFFFFFF

/-- MAX_CODE_LEN: 255 bits (R8). -/
def maxCodeLen : Nat := 255

/-- LUT_WORDS: 8 words of 32 bits per codeword read-out (R8). -/
def lutWords : Nat := 8

/-- ID, "HUF" and interface version 1 (R3, R33). -/
def idWord : Word := 0x48554601#32

/-- The one word accepted while STATUS.ERR = 1 (R24, R181). -/
def errClearWord : Word := 0x0C000000#32

/-- Register indices (R22). Indices 10..15 are reserved. -/
def idxCmd    : BitVec 4 := 0
def idxData   : BitVec 4 := 1
def idxResult : BitVec 4 := 2
def idxStatus : BitVec 4 := 3
def idxErrCmd : BitVec 4 := 4
def idxNsym   : BitVec 4 := 5
def idxTotal  : BitVec 4 := 6
def idxNodes  : BitVec 4 := 7
def idxRoot   : BitVec 4 := 8
def idxId     : BitVec 4 := 9

end Sys2Proof.Config
end

