-- ==== Sys2Proof/Syntax.lean ====
section
/-! DEFINITION. The 13 commands of spec/opcode_table.json (30_encoding R84), one constructor a row, with operands of
the widths of R82; and the assembler's lines (R95), whose operands are plain numbers that WellFormed checks. -/

namespace Sys2Proof

/-- FSEL of NODE_READ (R83); "All four are defined". -/
inductive FSel where
  | weight
  | info
  | child0
  | child1
deriving DecidableEq, Repr

/-- The commands of R84. -/
inductive Instr where
  | nop
  | ftClear
  | ftAccum (sym : Sym)
  | ftLoad (sym : Sym)
  | ftRead (sym : Sym)
  | treeBuild
  | nodeRead (node : NodeIdx) (fsel : FSel)
  | lutDerive
  | lutLen (sym : Sym)
  | lutWord (sym : Sym) (widx : BitVec 3)
  | encSym (sym : Sym)
  | decSym
  | errClear
deriving DecidableEq, Repr

/-- The mnemonics of R84. -/
inductive Mnemonic where
  | nop | ftClear | ftAccum | ftLoad | ftRead | treeBuild | nodeRead | lutDerive | lutLen | lutWord | encSym | decSym
  | errClear
deriving DecidableEq, Repr

/-- The four command formats (R81). -/
inductive Format where
  | n
  | s
  | sw
  | nf
deriving DecidableEq, Repr

/-- The operand fields of the formats (R81, R82). -/
inductive Field where
  | sym
  | widx
  | node
  | fsel
deriving DecidableEq, Repr

/-- The format of each mnemonic (R84). -/
def Mnemonic.format : Mnemonic → Format
  | .nop | .ftClear | .treeBuild | .lutDerive | .decSym | .errClear => .n
  | .ftAccum | .ftLoad | .ftRead | .lutLen | .encSym => .s
  | .lutWord => .sw
  | .nodeRead => .nf

/-- A format's operands in the order a line writes them (R95). -/
def Format.operandFields : Format → List Field
  | .n => []
  | .s => [.sym]
  | .sw => [.sym, .widx]
  | .nf => [.node, .fsel]

/-- How many values a field has (R82, R95). -/
def Field.size : Field → Nat
  | .sym => 256
  | .widx => 8
  | .node => 512
  | .fsel => 4

/-- One assembler line, `MNEMONIC [operand {, operand}]` (R13, R95), its operands numbers not yet checked. -/
structure AsmLine where
  mnemonic : Mnemonic
  operands : List Nat
deriving DecidableEq, Repr

/-- A command's mnemonic (R84). -/
def Instr.mnemonic : Instr → Mnemonic
  | .nop => .nop
  | .ftClear => .ftClear
  | .ftAccum _ => .ftAccum
  | .ftLoad _ => .ftLoad
  | .ftRead _ => .ftRead
  | .treeBuild => .treeBuild
  | .nodeRead _ _ => .nodeRead
  | .lutDerive => .lutDerive
  | .lutLen _ => .lutLen
  | .lutWord _ _ => .lutWord
  | .encSym _ => .encSym
  | .decSym => .decSym
  | .errClear => .errClear

/-- The number an FSEL name stands for (R83). -/
def FSel.toNat : FSel → Nat
  | .weight => 0
  | .info => 1
  | .child0 => 2
  | .child1 => 3

/-- A command written as an assembler line, operands in R95's order. -/
def Instr.toAsm (i : Instr) : AsmLine :=
  { mnemonic := i.mnemonic
    operands :=
      match i with
      | .nop | .ftClear | .treeBuild | .lutDerive | .decSym | .errClear => []
      | .ftAccum sym | .ftLoad sym | .ftRead sym | .lutLen sym | .encSym sym => [sym.toNat]
      | .lutWord sym widx => [sym.toNat, widx.toNat]
      | .nodeRead node fsel => [node.toNat, fsel.toNat] }

end Sys2Proof
end

