-- ==== Sys2Proof/WellFormed.lean ====
section
/-! DEFINITION. When an assembler line is a command (30_encoding R95): as many operands as its format has, and each
"operand out of its field's range (SYM > 255, WIDX > 7, NODE > 511, FSEL > 3) is an assembly error, not an encoding".
The operands of an `Instr` carry their field's width in their type, so every `Instr` meets the check (Laws/Encoding.lean
proves it). -/

namespace Sys2Proof

/-- As many operands as the format has (R95). -/
def AsmLine.arityOk (l : AsmLine) : Bool :=
  l.operands.length == l.mnemonic.format.operandFields.length

/-- Each operand inside its field's range (R95). -/
def AsmLine.rangesOk (l : AsmLine) : Bool :=
  (l.operands.zip l.mnemonic.format.operandFields).all fun p => decide (p.1 < p.2.size)

/-- The line is a command. -/
def AsmLine.wellFormed (l : AsmLine) : Bool :=
  l.arityOk && l.rangesOk

/-- The command, written as a line, is one. -/
def Instr.wellFormed (i : Instr) : Bool :=
  i.toAsm.wellFormed

end Sys2Proof
end

