-- ==== Sys2Proof/Decode.lean ====
section
/-! DEFINITION. Decoding and encoding of command words (30_encoding R81 to R86): the fields, the table's match and mask
rows, the decoder of R85, total on every 32-bit word, then the encoder, and the assembler of R95. -/

namespace Sys2Proof

/-- OPC = cmd[31:24] (R81). -/
def fieldOpc (w : Word) : BitVec 8 := w.extractLsb' 24 8

/-- SYM = cmd[7:0] (R82). -/
def fieldSym (w : Word) : Sym := w.extractLsb' 0 8

/-- WIDX = cmd[10:8] (R82). -/
def fieldWidx (w : Word) : BitVec 3 := w.extractLsb' 8 3

/-- NODE = cmd[8:0] (R82). -/
def fieldNode (w : Word) : NodeIdx := w.extractLsb' 0 9

/-- FSEL = cmd[13:12] (R82). -/
def fieldFsel (w : Word) : BitVec 2 := w.extractLsb' 12 2

/-- FSEL values (R83). -/
def FSel.ofBits (b : BitVec 2) : FSel :=
  if b = 0#2 then .weight else if b = 1#2 then .info else if b = 2#2 then .child0 else .child1

/-- An FSEL as its two bits (R83). -/
def FSel.toBits (f : FSel) : BitVec 2 := BitVec.ofNat 2 f.toNat

/-- The mnemonic of an opcode, none for the reserved values 0x0D..0xFF (R84, R86). -/
def mnemonicOf (opc : BitVec 8) : Option Mnemonic :=
  match opc.toNat with
  | 0x00 => some .nop
  | 0x01 => some .ftClear
  | 0x02 => some .ftAccum
  | 0x03 => some .ftLoad
  | 0x04 => some .ftRead
  | 0x05 => some .treeBuild
  | 0x06 => some .nodeRead
  | 0x07 => some .lutDerive
  | 0x08 => some .lutLen
  | 0x09 => some .lutWord
  | 0x0A => some .encSym
  | 0x0B => some .decSym
  | 0x0C => some .errClear
  | _ => none

/-- The table's match words (R84). -/
def matchOf : Mnemonic → Word
  | .nop => 0x00000000#32
  | .ftClear => 0x01000000#32
  | .ftAccum => 0x02000000#32
  | .ftLoad => 0x03000000#32
  | .ftRead => 0x04000000#32
  | .treeBuild => 0x05000000#32
  | .nodeRead => 0x06000000#32
  | .lutDerive => 0x07000000#32
  | .lutLen => 0x08000000#32
  | .lutWord => 0x09000000#32
  | .encSym => 0x0A000000#32
  | .decSym => 0x0B000000#32
  | .errClear => 0x0C000000#32

/-- The table's masks (R84), one a format. -/
def maskOf (m : Mnemonic) : Word :=
  match m.format with
  | .n => 0xFFFFFFFF#32
  | .s => 0xFFFFFF00#32
  | .sw => 0xFFFFF800#32
  | .nf => 0xFFFFCE00#32

/-- A word spells a command exactly when `(w AND mask) = match` (R84). -/
def spells (w : Word) (m : Mnemonic) : Bool := w &&& maskOf m == matchOf m

/-- The command of a mnemonic with its operands read from the word (R85: "Fields a format lacks are not read"). -/
def commandOf (m : Mnemonic) (w : Word) : Instr :=
  match m with
  | .nop => .nop
  | .ftClear => .ftClear
  | .ftAccum => .ftAccum (fieldSym w)
  | .ftLoad => .ftLoad (fieldSym w)
  | .ftRead => .ftRead (fieldSym w)
  | .treeBuild => .treeBuild
  | .nodeRead => .nodeRead (fieldNode w) (FSel.ofBits (fieldFsel w))
  | .lutDerive => .lutDerive
  | .lutLen => .lutLen (fieldSym w)
  | .lutWord => .lutWord (fieldSym w) (fieldWidx w)
  | .encSym => .encSym (fieldSym w)
  | .decSym => .decSym
  | .errClear => .errClear

/-- R85: the command a word spells, none for an illegal word (R86). -/
def decode (w : Word) : Option Instr :=
  match mnemonicOf (fieldOpc w) with
  | none => none
  | some m => if spells w m then some (commandOf m w) else none

/-- The word of a command (R81, R84): its opcode in bits 31:24, its operands in their fields, every other bit 0. -/
def encode : Instr → Word
  | .nop => matchOf .nop
  | .ftClear => matchOf .ftClear
  | .ftAccum sym => matchOf .ftAccum ||| zext32 sym
  | .ftLoad sym => matchOf .ftLoad ||| zext32 sym
  | .ftRead sym => matchOf .ftRead ||| zext32 sym
  | .treeBuild => matchOf .treeBuild
  | .nodeRead node fsel => matchOf .nodeRead ||| zext32 fsel.toBits <<< 12 ||| zext32 node
  | .lutDerive => matchOf .lutDerive
  | .lutLen sym => matchOf .lutLen ||| zext32 sym
  | .lutWord sym widx => matchOf .lutWord ||| zext32 widx <<< 8 ||| zext32 sym
  | .encSym sym => matchOf .encSym ||| zext32 sym
  | .decSym => matchOf .decSym
  | .errClear => matchOf .errClear

/-- The opcode number of a mnemonic (R84). -/
def opcodeOf : Mnemonic → Nat
  | .nop => 0x00
  | .ftClear => 0x01
  | .ftAccum => 0x02
  | .ftLoad => 0x03
  | .ftRead => 0x04
  | .treeBuild => 0x05
  | .nodeRead => 0x06
  | .lutDerive => 0x07
  | .lutLen => 0x08
  | .lutWord => 0x09
  | .encSym => 0x0A
  | .decSym => 0x0B
  | .errClear => 0x0C

/-- The value a line gives a field, 0 for a field it has no operand for (R95 "with absent fields 0"). -/
def operandOf (l : AsmLine) (f : Field) : Nat :=
  match (l.mnemonic.format.operandFields.zip l.operands).find? (fun p => p.1 == f) with
  | some p => p.2
  | none => 0

/-- R95: `word = OPC << 24 | FSEL << 12 | WIDX << 8 | NODE | SYM`, none for a line that is an assembly error. -/
def assemble (l : AsmLine) : Option Word :=
  if l.wellFormed then
    some (BitVec.ofNat 32 (opcodeOf l.mnemonic) <<< 24
      ||| BitVec.ofNat 32 (operandOf l .fsel) <<< 12
      ||| BitVec.ofNat 32 (operandOf l .widx) <<< 8
      ||| BitVec.ofNat 32 (operandOf l .node)
      ||| BitVec.ofNat 32 (operandOf l .sym))
  else none

/-- The command word of a table row given as a number: every command is one 32-bit word (R80), and a bit the row does
not number is 0. -/
def tableWord (nbits w : Nat) : Word := BitVec.ofNat 32 (w % 2 ^ nbits)

/-- The instruction the decoder reads from a table word. -/
def decodeTableWord (nbits w : Nat) : Option Instr := decode (tableWord nbits w)

end Sys2Proof
end

