-- ==== Sys2Proof/Machine/State.lean ====
section
/-! DEFINITION. The machine's state as plain data: the host-visible registers (10_state R22 to R33), the internal
memories (R34 to R38), the engine's command in flight (R40), and the host's side of the ports (R43, 92 D32). -/

namespace Sys2Proof.Machine

/-- An internal memory (20_memory R60): pairs of index and entry, indices strictly rising, no entry equal to what an
unlisted index reads as (log 19). -/
abbrev Memory (α : Type) := List (Nat × α)

/-- One entry of the node arena (R35). -/
structure Node where
  w    : Word
  leaf : Bool
  sym  : Sym
  c0   : NodeIdx
  c1   : NodeIdx
deriving DecidableEq, Repr

/-- One entry of the codeword table (R38): the 8-bit length and the bit sequence, c_0 first (R11; log 18). -/
structure LutEntry where
  len  : BitVec 8
  code : List Bool
deriving DecidableEq, Repr

/-- The error codes of 60_exceptions R201. The reserved codes 8..15 are "never produced; a model has no constructor for
them" (93 I9). -/
inductive ErrCode where
  | none
  | illegal
  | noTree
  | noLut
  | symAbsent
  | nodeRange
  | overflow
  | truncated
deriving DecidableEq, Repr

/-- Whether the command in flight has still to take its start step (43_encoder R161, 44_decoder R171; log 7). -/
inductive Phase where
  | start
  | running
deriving DecidableEq, Repr

/-- The sink's acceptance, the level obit_ready (20_memory R61, R64): it always accepts, or it accepts this many more
bits (30_encoding R95 ACCEPT; log 15). -/
inductive SinkMode where
  | always
  | limited (room : Nat)
deriving DecidableEq, Repr

/-- What the host can do (30_encoding R95, R96; 20_memory R61; log 1, log 16). -/
inductive HostEvent where
  /-- `WR`: write a register (10_state R23). -/
  | writeReg (idx : BitVec 4) (v : Word)
  /-- `RD`: read a register (10_state R23). -/
  | readReg (idx : BitVec 4)
  /-- `PUSH`: offer more bits on the input port (20_memory R65). -/
  | offer (bits : List Bool)
  /-- Discard the bits still offered (70_reset R245). -/
  | withdraw
  /-- `EOS`: drive the end-of-stream level (20_memory R65). -/
  | setEos (level : Bool)
  /-- Set how the sink accepts (70_reset R243: "accept bits at any rate, or not at all"). -/
  | setSink (mode : SinkMode)
  /-- `ACCEPT n`: the sink accepts n more bits (30_encoding R95). -/
  | accept (n : Nat)
  /-- Drive rst_n (70_reset R231). -/
  | setRstN (level : Bool)
  /-- The host does nothing while the engine takes one turn. -/
  | yield
  /-- `WAIT`: the engine takes turns until BUSY = 0 (30_encoding R96). -/
  | wait
deriving DecidableEq, Repr

/-- Why the machine could stop with a fault: never. Every word and every state has an effect in the spec; its errors
are states the machine goes on from (60_exceptions R205), so no constructor is needed (log 17). -/
inductive Fault where
deriving DecidableEq, Repr

/-- Why a step could be refused. -/
inductive Refusal where
  /-- Raised by an arm of `exec` whose instruction has no meaning yet; no arm is left that raises it. Safe. -/
  | notModelled (mnemonic : String)
deriving DecidableEq, Repr

/-- The whole machine. Fields of one group stand together; INVENTORY.md lists each with its rule and reset value. -/
@[ext]
structure State where
  /-- DATA (R25). -/
  data      : Word
  /-- RESULT (R26). -/
  result    : Word
  /-- STATUS.BUSY (R27). -/
  busy      : Bool
  /-- STATUS.ERR (R27). -/
  err       : Bool
  /-- STATUS.TREE_VALID (R27). -/
  treeValid : Bool
  /-- STATUS.LUT_VALID (R27). -/
  lutValid  : Bool
  /-- STATUS.OVR (R27, R210). -/
  ovr       : Bool
  /-- STATUS.ERRCODE (R27, R201). -/
  errCode   : ErrCode
  /-- ERRCMD (R29). -/
  errCmd    : Word
  /-- NSYM bits 8:0 (R30). -/
  nsym      : BitVec 9
  /-- TOTAL (R31). -/
  total     : Word
  /-- NODES bits 9:0 (R32). -/
  nodes     : BitVec 10
  /-- ROOT bits 8:0 (R32). -/
  root      : NodeIdx
  /-- FREQ (R34). -/
  freq      : Memory Word
  /-- NODE (R35). -/
  arena     : Memory Node
  /-- LUT (R38). -/
  lut       : Memory LutEntry
  /-- CUR_CMD (R40). -/
  curCmd    : Word
  /-- CUR_DATA (R40). -/
  curData   : Word
  /-- Start step taken or not (R161, R171; log 7). -/
  phase     : Phase
  /-- ENC_POS (R40). -/
  encPos    : BitVec 8
  /-- DEC_NODE (R40). -/
  decNode   : NodeIdx
  /-- SINK, the bits the sink has accepted, in order (R64). -/
  sink      : List Bool
  /-- obit_ready (R61, R64). -/
  sinkMode  : SinkMode
  /-- SRC, the bits the source offers, next one first (R65). -/
  src       : List Bool
  /-- ibit_eos (R65). -/
  eos       : Bool
  /-- rst_n (R231). -/
  rstN      : Bool
  /-- The host's actions still to come, next one first (log 1). -/
  pending   : List HostEvent
  /-- What the host's reads have returned, in order (reg_rdata of R61; log 16). -/
  reads     : List Word
deriving DecidableEq, Repr

/-- 70_reset R230: the machine right after reset, rst_n released. What R230 leaves unspecified is 0, or an
empty leaf or codeword (log 3, log 4); the host's side, which reset does not touch (R234), starts empty with a sink that
always accepts (log 6). -/
def State.reset : State where
  data := 0
  result := 0
  busy := false
  err := false
  treeValid := false
  lutValid := false
  ovr := false
  errCode := .none
  errCmd := 0
  nsym := 0
  total := 0
  nodes := 0
  root := 0
  freq := []
  arena := []
  lut := []
  curCmd := 0
  curData := 0
  phase := .start
  encPos := 0
  decNode := 0
  sink := []
  sinkMode := .always
  src := []
  eos := false
  rstN := true
  pending := []
  reads := []

end Sys2Proof.Machine
end

