-- ==== Sys2Proof/Machine/Ops.lean ====
section
/-! DEFINITION. The operations every meaning is written over: reading and writing the internal memories, ending a
command (`complete`, and `raise`, the one way a command takes an error), `Invalidate`, and the two port transfers
`EmitBit` and `TakeBit`. -/

namespace Sys2Proof.Machine

/-- What a step answers. -/
abbrev Answer := Host.Outcome State Fault Refusal

/-! Internal memories (20_memory R60; log 19). -/

/-- Read entry `k`; an index with no pair reads `d`. -/
def Memory.read {α : Type} (d : α) (m : Memory α) (k : Nat) : α :=
  match m with
  | [] => d
  | (j, v) :: rest => if j = k then v else Memory.read d rest k

/-- Write entry `k`, keeping the indices rising; writing `d` removes the pair. -/
def Memory.write {α : Type} [DecidableEq α] (d : α) (m : Memory α) (k : Nat) (v : α) : Memory α :=
  match m with
  | [] => if v = d then [] else [(k, v)]
  | (j, u) :: rest =>
    if j < k then (j, u) :: Memory.write d rest k v
    else if j = k then (if v = d then rest else (k, v) :: rest)
    else if v = d then (j, u) :: rest
    else (k, v) :: (j, u) :: rest

/-- The canonical form from index `lo` up: indices strictly rising and below `size`, no entry equal to `d`. -/
def Memory.wfFrom {α : Type} [DecidableEq α] (d : α) (size lo : Nat) (m : Memory α) : Bool :=
  match m with
  | [] => true
  | (j, v) :: rest => decide (lo ≤ j) && decide (j < size) && decide (v ≠ d) && Memory.wfFrom d size (j + 1) rest

/-- The canonical form of a memory of `size` entries. -/
def Memory.wf {α : Type} [DecidableEq α] (d : α) (size : Nat) (m : Memory α) : Bool :=
  Memory.wfFrom d size 0 m

/-- What a FREQ entry nothing has counted reads as: R34 "Reset value: every entry 0". -/
def freqDefault : Word := 0#32

/-- What a NODE entry no build has written reads as (unspecified by R35; log 3): a leaf, so that NODE[0] is one always,
since R122 makes it one whenever a build writes it. -/
def nodeDefault : Node := { w := 0, leaf := true, sym := 0, c0 := 0, c1 := 0 }

/-- What a LUT entry no derivation has written reads as (unspecified by R38; log 3). -/
def lutDefault : LutEntry := { len := 0, code := [] }

/-- FREQ[s] in a frequency memory (R12, R34). -/
def freqAt (m : Memory Word) (s : Sym) : Word := Memory.read freqDefault m s.toNat

/-- FREQ[s] (R12, R34). -/
def State.freqOf (st : State) (s : Sym) : Word := freqAt st.freq s

/-- `FREQ[s] <- v` (R12). -/
def State.setFreq (st : State) (s : Sym) (v : Word) : State :=
  { st with freq := Memory.write freqDefault st.freq s.toNat v }

/-- NODE[i] in an arena (R12, R35). -/
def nodeAt (m : Memory Node) (i : Nat) : Node := Memory.read nodeDefault m i

/-- NODE[i] (R12, R35). -/
def State.nodeOf (st : State) (i : Nat) : Node := nodeAt st.arena i

/-- NODE[lo], NODE[lo + 1], ... become `ns`; the other entries stay (R122 writes entries 0..2n-2). -/
def writeNodes (m : Memory Node) (lo : Nat) (ns : List Node) : Memory Node :=
  match ns with
  | [] => m
  | n :: rest => writeNodes (Memory.write nodeDefault m lo n) (lo + 1) rest

/-- LUT[s] (R12, R38). -/
def State.lutOf (st : State) (s : Sym) : LutEntry := Memory.read lutDefault st.lut s.toNat

/-- `LUT[s] <- e` in a codeword memory (R12, R38). -/
def writeLut (m : Memory LutEntry) (s : Sym) (e : LutEntry) : Memory LutEntry :=
  Memory.write lutDefault m s.toNat e

/-- All three memories are in canonical form. -/
def State.memoriesWf (st : State) : Bool :=
  Memory.wf freqDefault Config.nSymbols st.freq
    && Memory.wf nodeDefault Config.maxNodes st.arena
    && Memory.wf lutDefault Config.nSymbols st.lut

/-! Ending a command. -/

/-- `complete` (R12, R44): BUSY falls; the command's updates are already in `st`, so they show in this same step. -/
def complete (st : State) : State := { st with busy := false }

/-- `RESULT <- v`, then `complete` (R26: only when the command completes). -/
def completeWith (v : Word) (st : State) : State := complete { st with result := v }

/-- `raise E(code)` (60_exceptions R205), applied to the state before the command's updates: ERRCODE, ERR, ERRCMD and
BUSY change and nothing else. -/
def raiseError (code : ErrCode) (st : State) : State :=
  { st with errCode := code, err := true, errCmd := st.curCmd, busy := false }

/-- What ERR_CLEAR clears, the return from the error state (45_control R181, 60_exceptions R213). -/
def leaveErrorState (st : State) : State :=
  { st with err := false, errCode := .none, ovr := false, errCmd := 0#32 }

/-- `Invalidate()` (40_frequency_table R106): the arena and LUT contents stay. -/
def invalidate (st : State) : State :=
  { st with treeValid := false, lutValid := false, nodes := 0#10, root := 0#9 }

/-! The ports. -/

/-- obit_ready: the sink accepts a bit now (20_memory R64). -/
def SinkMode.accepts : SinkMode → Bool
  | .always => true
  | .limited 0 => false
  | .limited (_ + 1) => true

/-- The sink's acceptance after one transfer. -/
def SinkMode.afterTransfer : SinkMode → SinkMode
  | .always => .always
  | .limited n => .limited (n - 1)

/-- `EmitBit(b)` (20_memory R64): none while the sink does not accept. -/
def emitBit (b : Bool) (st : State) : Option State :=
  if st.sinkMode.accepts then
    some { st with sink := st.sink ++ [b], sinkMode := st.sinkMode.afterTransfer }
  else none

/-- What `TakeBit()` finds (20_memory R65). -/
inductive Taken where
  | bit (b : Bool) (rest : List Bool)
  | eos
  | hold
deriving DecidableEq, Repr

/-- `TakeBit()` (20_memory R65): "An offered bit always wins over ibit_eos". -/
def takeBit (st : State) : Taken :=
  match st.src with
  | b :: rest => .bit b rest
  | [] => if st.eos then .eos else .hold

end Sys2Proof.Machine
end

