-- ==== Sys2Proof/Machine/Operands.lean ====
section
/-! DEFINITION. The operand forms of the commands: every operand is a field of the command word (30_encoding R82) or
CUR_DATA, and selects an entry of an internal memory directly (20_memory R76). NODE_READ's field select and LUT_WORD's
word select are written here. -/

namespace Sys2Proof.Machine

/-- FT_LOAD's count (R82, R103): DATA as copied at acceptance. -/
def State.loadOperand (st : State) : Word := st.curData

/-- What NODE_READ reads of a node (41_tree_builder R123): "a leaf's children read 0xFFFFFFFF". -/
def nodeField (e : Node) : FSel → Word
  | .weight => e.w
  | .info => bitWord e.leaf <<< 8 ||| zext32 e.sym
  | .child0 => if e.leaf then 0xFFFFFFFF#32 else zext32 e.c0
  | .child1 => if e.leaf then 0xFFFFFFFF#32 else zext32 e.c1

/-- Codeword bit k of a LUT entry, 0 past its length (42_codeword_lut R144 `(k < L) ? c_k : 0`). -/
def LutEntry.bitAt (e : LutEntry) (k : Nat) : Bool :=
  decide (k < e.len.toNat) && e.code.getD k false

/-- The bits as a word, the first one most significant. -/
def packMsbFirst (bits : List Bool) : Word :=
  bits.foldl (fun acc b => acc <<< 1 ||| bitWord b) 0#32

/-- Word `widx` of a codeword (R144): `RESULT[31 - j]` is bit `32*WIDX + j`. -/
def lutWordOf (e : LutEntry) (widx : BitVec 3) : Word :=
  packMsbFirst ((List.range 32).map fun j => e.bitAt (32 * widx.toNat + j))

/-- The child a bit selects: 0 child0, 1 child1 (30_encoding R88, 44_decoder R171). -/
def childOf (e : Node) (b : Bool) : NodeIdx := if b then e.c1 else e.c0

end Sys2Proof.Machine
end

