-- ==== Sys2Proof/Machine/CodewordLut.lean ====
section
/-! DEFINITION. The codeword LUT deriver (42_codeword_lut): Path of R141, LUT_DERIVE, LUT_LEN and LUT_WORD. -/

namespace Sys2Proof.Machine

/-- The internal node whose child is `i`, and the branch bit to it: 0 where `i` is its child0 (R141). R124 (e) makes it
unique in a valid tree; the search takes the lowest. -/
def parentOf (arena : Memory Node) (nodes i : Nat) : Option (Nat × Bool) :=
  match (List.range nodes).find? (fun j =>
      !(nodeAt arena j).leaf && (decide ((nodeAt arena j).c0.toNat = i) || decide ((nodeAt arena j).c1.toNat = i))) with
  | none => none
  | some j => some (j, !decide ((nodeAt arena j).c0.toNat = i))

/-- `Path(i)` of R141, climbing at most `fuel` parents (log 10). -/
def pathUp (arena : Memory Node) (nodes root : Nat) (fuel i : Nat) : List Bool :=
  match fuel with
  | 0 => []
  | n + 1 =>
    if i = root then []
    else
      match parentOf arena nodes i with
      | none => []
      | some (p, bit) => pathUp arena nodes root n p ++ [bit]

/-- `Path(i)` (R141). A path has fewer branches than the tree has nodes. -/
def path (arena : Memory Node) (nodes root i : Nat) : List Bool :=
  pathUp arena nodes root nodes i

/-- The LUT entry of a codeword (R140). -/
def entryOf (c : List Bool) : LutEntry := { len := BitVec.ofNat 8 c.length, code := c }

/-- One turn of LUT_DERIVE's loop (R140): a leaf's entry is written, an internal node writes none. -/
def deriveNode (arena : Memory Node) (nodes root : Nat) (lut : Memory LutEntry) (i : Nat) : Memory LutEntry :=
  if (nodeAt arena i).leaf then writeLut lut (nodeAt arena i).sym (entryOf (path arena nodes root i)) else lut

/-- LUT_DERIVE's loop over 0..NODES-1 (R140); "LUT entries of absent symbols keep whatever they held". -/
def deriveLut (arena : Memory Node) (nodes root : Nat) (lut : Memory LutEntry) : Memory LutEntry :=
  (List.range nodes).foldl (deriveNode arena nodes root) lut

/-- LUT_DERIVE (R140). -/
def execLutDerive (st : State) : Answer :=
  if st.treeValid = false then .next (raiseError .noTree st)
  else
    .next (complete
      { st with
        lut := deriveLut st.arena st.nodes.toNat st.root.toNat st.lut
        lutValid := true })

/-- The check LUT_LEN, LUT_WORD and ENC_SYM begin with: NO_LUT, then SYM_ABSENT (R143, R144, R161; order R211). -/
def codewordError (st : State) (sym : Sym) : Option ErrCode :=
  if st.lutValid = false then some .noLut
  else if st.freqOf sym = 0#32 then some .symAbsent
  else none

/-- LUT_LEN (R143). -/
def execLutLen (sym : Sym) (st : State) : Answer :=
  match codewordError st sym with
  | some code => .next (raiseError code st)
  | none => .next (completeWith (zext32 (st.lutOf sym).len) st)

/-- LUT_WORD (R144). -/
def execLutWord (sym : Sym) (widx : BitVec 3) (st : State) : Answer :=
  match codewordError st sym with
  | some code => .next (raiseError code st)
  | none => .next (completeWith (lutWordOf (st.lutOf sym) widx) st)

end Sys2Proof.Machine
end

