-- ==== Sys2Proof/Machine/Control.lean ====
section
/-! DEFINITION. The control commands (45_control): NOP and ERR_CLEAR. -/

namespace Sys2Proof.Machine

/-- NOP (R180). -/
def execNop (st : State) : Answer := .next (complete st)

/-- ERR_CLEAR (R181). -/
def execErrClear (st : State) : Answer := .next (complete (leaveErrorState st))

end Sys2Proof.Machine
end

