-- ==== Sys2Proof/Machine/Decoder.lean ====
section
/-! DEFINITION. The Huffman decoder (44_decoder): DEC_SYM, one engine step at a time (10_state R41). -/

namespace Sys2Proof.Machine

/-- DEC_SYM stands at node `i`: at a leaf it returns the leaf's symbol and ends, else it goes on (R171). -/
def decArrive (i : NodeIdx) (st : State) : State :=
  if (st.nodeOf i.toNat).leaf then completeWith (zext32 (st.nodeOf i.toNat).sym) { st with decNode := i }
  else { st with decNode := i, phase := .running }

/-- DEC_SYM's start step (R171): the check, then the root; a single leaf ends it "without reading any bit" (R170). -/
def decStart (st : State) : State :=
  if st.treeValid = false then raiseError .noTree st else decArrive st.root st

/-- One bit step (R171): take a bit and move to the child it selects; TRUNCATED at end of stream (R209); held while no
bit is offered and end-of-stream is not asserted, when the step "is not taken" (R41) and the state stays. -/
def decBit (st : State) : State :=
  match takeBit st with
  | .bit b rest => decArrive (childOf (st.nodeOf st.decNode.toNat) b) { st with src := rest }
  | .eos => raiseError .truncated st
  | .hold => st

/-- DEC_SYM (R171): the engine step it is at. -/
def execDecSym (st : State) : Answer :=
  match st.phase with
  | .start => .next (decStart st)
  | .running => .next (decBit st)

end Sys2Proof.Machine
end

