-- ==== Sys2Proof/Machine/Encoder.lean ====
section
/-! DEFINITION. The Huffman encoder (43_encoder): ENC_SYM, one engine step at a time (10_state R41). -/

namespace Sys2Proof.Machine

/-- ENC_SYM's start step (R161): the checks, ENC_POS to 0, and the end of the command for an empty codeword. -/
def encStart (sym : Sym) (st : State) : State :=
  match codewordError st sym with
  | some code => raiseError code st
  | none =>
    if (st.lutOf sym).len = 0#8 then complete { st with encPos := 0#8 }
    else { st with encPos := 0#8, phase := .running }

/-- One emit step (R161). While the sink does not accept, the step "is not taken" (R41) and the state stays. -/
def encEmit (sym : Sym) (st : State) : State :=
  match emitBit ((st.lutOf sym).code.getD st.encPos.toNat false) st with
  | none => st
  | some st' =>
    if st.encPos + 1#8 = (st.lutOf sym).len then complete { st' with encPos := st.encPos + 1#8 }
    else { st' with encPos := st.encPos + 1#8 }

/-- ENC_SYM (R161): the engine step it is at. -/
def execEncSym (sym : Sym) (st : State) : Answer :=
  match st.phase with
  | .start => .next (encStart sym st)
  | .running => .next (encEmit sym st)

end Sys2Proof.Machine
end

