-- ==== Sys2Proof/Machine/FrequencyTable.lean ====
section
/-! DEFINITION. The frequency table accumulator (40_frequency_table): FT_CLEAR, FT_ACCUM, FT_LOAD, FT_READ. Each runs in
one engine step and reads every operand before it writes. -/

namespace Sys2Proof.Machine

/-- 1 for a count above 0, else 0: a symbol's part in NSYM (R30, R103). -/
def presence (f : Word) : BitVec 9 := if f = 0#32 then 0#9 else 1#9

/-- The total FT_LOAD would leave, `TOTAL - FREQ[s] + v`, on unbounded integers (R103, R107 (b)). -/
def loadTotal (st : State) (sym : Sym) : Int :=
  (st.total.toNat : Int) - ((st.freqOf sym).toNat : Int) + (st.loadOperand.toNat : Int)

/-- FT_CLEAR (R100). -/
def execFtClear (st : State) : Answer :=
  .next (complete (invalidate { st with freq := [], nsym := 0#9, total := 0#32 }))

/-- FT_ACCUM (R102). -/
def execFtAccum (sym : Sym) (st : State) : Answer :=
  if st.total = BitVec.ofNat 32 Config.maxTotal then .next (raiseError .overflow st)
  else
    .next (complete (invalidate
      { st.setFreq sym (st.freqOf sym + 1#32) with
        nsym := if st.freqOf sym = 0#32 then st.nsym + 1#9 else st.nsym
        total := st.total + 1#32 }))

/-- FT_LOAD (R103). -/
def execFtLoad (sym : Sym) (st : State) : Answer :=
  if loadTotal st sym > (Config.maxTotal : Int) then .next (raiseError .overflow st)
  else
    .next (complete (invalidate
      { st.setFreq sym st.loadOperand with
        nsym := st.nsym - presence (st.freqOf sym) + presence st.loadOperand
        total := BitVec.ofInt 32 (loadTotal st sym) }))

/-- FT_READ (R104). -/
def execFtRead (sym : Sym) (st : State) : Answer :=
  .next (completeWith (st.freqOf sym) st)

end Sys2Proof.Machine
end

