-- ==== Sys2Proof/Machine/TreeBuilder.lean ====
section
/-! DEFINITION. The Huffman tree builder (41_tree_builder): the queue order of R120, BuildTree of R122, TREE_BUILD and
NODE_READ. -/

namespace Sys2Proof.Machine

/-- A queue element: `key(i) = (NODE[i].w, i)` (R120). -/
structure Key where
  w   : Word
  idx : Nat
deriving DecidableEq, Repr

/-- "compared lexicographically as unsigned numbers" (R120). -/
def Key.before (a b : Key) : Bool :=
  decide (a.w < b.w) || (decide (a.w = b.w) && decide (a.idx < b.idx))

/-- The least of `k` and `ks` (R122 "the i in Q with the least key(i)"). -/
def leastKey (k : Key) (ks : List Key) : Key :=
  match ks with
  | [] => k
  | k' :: rest => leastKey (if k'.before k then k' else k) rest

/-- Remove the least key; none from an empty queue. -/
def takeLeast (q : List Key) : Option (Key × List Key) :=
  match q with
  | [] => none
  | k :: ks => some (leastKey k ks, (k :: ks).erase (leastKey k ks))

/-- BuildTree in progress: NODE[0..next-1] in index order, and the queue Q as a set of keys. -/
structure Build where
  nodes : List Node
  queue : List Key
deriving DecidableEq, Repr

/-- Every symbol 0..255, ascending (R122 step 1). -/
def allSyms : List Sym := (List.range Config.nSymbols).map (BitVec.ofNat 8)

/-- The leaf of a symbol (R35, R122). -/
def leafNode (s : Sym) (f : Word) : Node := { w := f, leaf := true, sym := s, c0 := 0, c1 := 0 }

/-- R122 step 1: "one leaf per symbol with count > 0", ascending. -/
def leafNodes (freq : Memory Word) : List Node :=
  allSyms.filterMap fun s => if freqAt freq s = 0#32 then none else some (leafNode s (freqAt freq s))

/-- The internal node that joins the first and second removed (R122 step 2). -/
def joinNode (a b : Key) : Node :=
  { w := a.w + b.w, leaf := false, sym := 0, c0 := BitVec.ofNat 9 a.idx, c1 := BitVec.ofNat 9 b.idx }

/-- One turn of R122's loop; nothing while |Q| ≤ 1. -/
def mergeOnce (b : Build) : Build :=
  match takeLeast b.queue with
  | none => b
  | some (first, q1) =>
    match takeLeast q1 with
    | none => b
    | some (second, q2) =>
      { nodes := b.nodes ++ [joinNode first second]
        queue := q2 ++ [{ w := first.w + second.w, idx := b.nodes.length }] }

/-- `while |Q| > 1` of R122, with as many turns allowed as the queue can need. -/
def mergeAll (turns : Nat) (b : Build) : Build :=
  match turns with
  | 0 => b
  | n + 1 => mergeAll n (mergeOnce b)

/-- Where R122's loop starts: the leaves, and all of them in the queue. -/
def buildStart (freq : Memory Word) : Build :=
  { nodes := leafNodes freq
    queue := (leafNodes freq).zipIdx.map fun p => { w := p.1.w, idx := p.2 } }

/-- The whole of R122: each turn takes one element off the queue. -/
def buildTree (freq : Memory Word) : Build :=
  mergeAll (leafNodes freq).length (buildStart freq)

/-- R122 step 3: "The last remaining node is the root" (0 where the table is empty, which R122 does not define: log 10). -/
def Build.root (b : Build) : Nat :=
  match b.queue with
  | [] => 0
  | k :: _ => k.idx

/-- LEAFIDX[s] (10_state R37): the arena index below NODES of the leaf of symbol `s`. -/
def leafIndex (st : State) (s : Sym) : Option Nat :=
  (List.range st.nodes.toNat).find? fun i => (st.nodeOf i).leaf && decide ((st.nodeOf i).sym = s)

/-- TREE_BUILD (R121). -/
def execTreeBuild (st : State) : Answer :=
  if st.nsym = 0#9 then .next (complete (invalidate st))
  else
    .next (complete
      { st with
        arena := writeNodes st.arena 0 (buildTree st.freq).nodes
        nodes := BitVec.ofNat 10 (2 * st.nsym.toNat - 1)
        root := BitVec.ofNat 9 (buildTree st.freq).root
        treeValid := true
        lutValid := false })

/-- NODE_READ (R123). -/
def execNodeRead (node : NodeIdx) (fsel : FSel) (st : State) : Answer :=
  if st.treeValid = false then .next (raiseError .noTree st)
  else if st.nodes.toNat ≤ node.toNat then .next (raiseError .nodeRange st)
  else .next (completeWith (nodeField (st.nodeOf node.toNat) fsel) st)

end Sys2Proof.Machine
end

