-- ==== Sys2Proof/Machine/Dispatch.lean ====
section
/-! DEFINITION. One arm per command: one engine step of the command in flight (10_state R41). -/

namespace Sys2Proof.Machine

def exec (i : Instr) (s : State) : Host.Outcome State Fault Refusal :=
  match i with
  | .nop => Sys2Proof.Machine.execNop s
  | .ftClear => Sys2Proof.Machine.execFtClear s
  | .ftAccum sym => Sys2Proof.Machine.execFtAccum sym s
  | .ftLoad sym => Sys2Proof.Machine.execFtLoad sym s
  | .ftRead sym => Sys2Proof.Machine.execFtRead sym s
  | .treeBuild => Sys2Proof.Machine.execTreeBuild s
  | .nodeRead node fsel => Sys2Proof.Machine.execNodeRead node fsel s
  | .lutDerive => Sys2Proof.Machine.execLutDerive s
  | .lutLen sym => Sys2Proof.Machine.execLutLen sym s
  | .lutWord sym widx => Sys2Proof.Machine.execLutWord sym widx s
  | .encSym sym => Sys2Proof.Machine.execEncSym sym s
  | .decSym => Sys2Proof.Machine.execDecSym s
  | .errClear => Sys2Proof.Machine.execErrClear s

end Sys2Proof.Machine
end

