-- ==== Sys2Proof/Machine/Flags.lean ====
section
/-! DEFINITION. STATUS (10_state R27): the code of each error, the live bits HOLD_IN and HOLD_OUT (R42), the levels the
block drives on its ports (20_memory R61, R64, R65), and the word a read of STATUS returns. -/

namespace Sys2Proof.Machine

/-- ERRCODE as four bits (60_exceptions R201). -/
def ErrCode.bits : ErrCode → BitVec 4
  | .none => 0
  | .illegal => 1
  | .noTree => 2
  | .noLut => 3
  | .symAbsent => 4
  | .nodeRange => 5
  | .overflow => 6
  | .truncated => 7

/-- The symbol of the ENC_SYM in flight; none when the command in flight is another (R42). -/
def State.encoding (st : State) : Option Sym :=
  if st.busy then
    match decode st.curCmd with
    | some (.encSym sym) => some sym
    | _ => none
  else none

/-- The command in flight is DEC_SYM (R42). -/
def State.decoding (st : State) : Bool :=
  st.busy && decide (decode st.curCmd = some .decSym)

/-- obit_valid: an ENC_SYM step wants to emit a bit (R64, R42 `ENC_POS < LUT[sym].len`). -/
def obitValid (st : State) : Bool :=
  match st.encoding with
  | some sym => decide (st.encPos < (st.lutOf sym).len)
  | none => false

/-- obit_data: the bit offered, meaningful while obit_valid = 1 (R64, R161). -/
def obitData (st : State) : Bool :=
  match st.encoding with
  | some sym => (st.lutOf sym).code.getD st.encPos.toNat false
  | none => false

/-- ibit_ready: a DEC_SYM step needs a bit (R65, R42 `NODE[DEC_NODE].leaf = 0`). -/
def ibitReady (st : State) : Bool :=
  st.decoding && !(st.nodeOf st.decNode.toNat).leaf

/-- STATUS.HOLD_IN (R42): a bit is needed, none is offered, end-of-stream is not asserted. -/
def holdIn (st : State) : Bool :=
  ibitReady st && st.src.isEmpty && !st.eos

/-- STATUS.HOLD_OUT (R42): a bit is offered and the sink does not accept. -/
def holdOut (st : State) : Bool :=
  obitValid st && !st.sinkMode.accepts

/-- What a read of STATUS returns (R27). -/
def statusWord (st : State) : Word :=
  bitWord st.busy
    ||| bitWord st.err <<< 1
    ||| bitWord st.treeValid <<< 2
    ||| bitWord st.lutValid <<< 3
    ||| bitWord (holdIn st) <<< 4
    ||| bitWord (holdOut st) <<< 5
    ||| bitWord st.ovr <<< 6
    ||| zext32 st.errCode.bits <<< 8

end Sys2Proof.Machine
end

