-- ==== Sys2Proof/Machine/HostPort.lean ====
section
/-! DEFINITION. What the host does to the block: register reads and writes (10_state R22 to R33), the acceptance of a
command (R24), reset (70_reset R230 to R234), the host's side of the bit ports (20_memory R64, R65), whose turn it is
(log 1), and the pseudo-instructions of 30_encoding R96 as lists of host actions. -/

namespace Sys2Proof.Machine

/-- A register read (R22): CMD and the reserved indices read 0 (R23). -/
def readReg (st : State) (idx : BitVec 4) : Word :=
  if idx = Config.idxData then st.data
  else if idx = Config.idxResult then st.result
  else if idx = Config.idxStatus then statusWord st
  else if idx = Config.idxErrCmd then st.errCmd
  else if idx = Config.idxNsym then zext32 st.nsym
  else if idx = Config.idxTotal then st.total
  else if idx = Config.idxNodes then zext32 st.nodes
  else if idx = Config.idxRoot then zext32 st.root
  else if idx = Config.idxId then Config.idWord
  else 0#32

/-- Byte lane k of a register for a byte-addressed host, little-endian (20_memory R66): bits [8k+7:8k]. -/
def readRegByte (st : State) (idx : BitVec 4) (k : BitVec 2) : BitVec 8 :=
  (readReg st idx).extractLsb' (8 * k.toNat) 8

/-- A command is accepted (R24 (c)); its first engine step is a start step (R41). The cursor, whose value the spec leaves
unspecified until the start step sets it (R40), stands where nothing is wanted of a port: DEC_NODE at NODE[0], a leaf, and
ENC_POS past every codeword (log 8). -/
def acceptCommand (w : Word) (st : State) : State :=
  { st with curCmd := w, curData := st.data, busy := true, phase := .start, encPos := 255#8, decNode := 0#9 }

/-- A write to CMD (R24): dropped with OVR while busy (R210), discarded while ERR = 1 unless it is the ERR_CLEAR word
(R207), else accepted. -/
def writeCmd (w : Word) (st : State) : State :=
  if st.busy then { st with ovr := true }
  else if st.err && decide (w ≠ Config.errClearWord) then st
  else acceptCommand w st

/-- A register write (R22, R23): only CMD and DATA take one; "while rst_n = 0 register writes are ignored" (R231). -/
def writeReg (idx : BitVec 4) (v : Word) (st : State) : State :=
  if st.rstN = false then st
  else if idx = Config.idxCmd then writeCmd v st
  else if idx = Config.idxData then { st with data := v }
  else st

/-- The block goes to the state of R230; the host's side of the ports stays (R232, R234). What R230 leaves unspecified
becomes what State.reset holds (log 5). -/
def resetBlock (st : State) : State :=
  { State.reset with
    sink := st.sink
    sinkMode := st.sinkMode
    src := st.src
    eos := st.eos
    rstN := st.rstN
    pending := st.pending
    reads := st.reads }

/-- rst_n driven to a level (R231): 0 resets the block "at once, whatever it was doing"; 1 lets it leave reset. -/
def driveRstN (level : Bool) (st : State) : State :=
  if level then { st with rstN := true } else { resetBlock st with rstN := false }

/-- `ACCEPT n` (30_encoding R95): "the sink accepts n more bits", and then none; a sink "always accepts unless an `ACCEPT`
line says otherwise" (95_test_vectors). Room still left adds up (log 15). -/
def SinkMode.addRoom (m : SinkMode) (n : Nat) : SinkMode :=
  match m with
  | .always => .limited n
  | .limited room => .limited (room + n)

/-- One host action. A read has no effect but to return its value (R23, R69). -/
def applyHostEvent (e : HostEvent) (st : State) : State :=
  match e with
  | .writeReg idx v => writeReg idx v st
  | .readReg idx => { st with reads := st.reads ++ [readReg st idx] }
  | .offer bits => { st with src := st.src ++ bits }
  | .withdraw => { st with src := [] }
  | .setEos level => { st with eos := level }
  | .setSink mode => { st with sinkMode := mode }
  | .accept n => { st with sinkMode := st.sinkMode.addRoom n }
  | .setRstN level => driveRstN level st
  | .yield => st
  | .wait => st

/-- Whose turn it is, and the host's actions left after it (log 1). -/
inductive Turn where
  | host (e : HostEvent) (rest : List HostEvent)
  | engine (rest : List HostEvent)
deriving DecidableEq, Repr

/-- The head of `pending` says who moves: the engine where the host has nothing to do, yields, or waits for a busy
block; else the host (log 1, log 16). -/
def turnOf (st : State) : Turn :=
  match st.pending with
  | [] => .engine []
  | .yield :: rest => .engine rest
  | .wait :: rest => if st.busy then .engine (.wait :: rest) else .host .wait rest
  | e :: rest => .host e rest

/-- `st` with the engine to move next: before any host action that is still to come. -/
def giveEngineTurn (st : State) : State :=
  match st.pending with
  | [] => st
  | e :: rest => { st with pending := .yield :: e :: rest }

/-! The pseudo-instructions of R96, each the host actions it expands to. -/

/-- `ISSUE c`. -/
def issue (i : Instr) : List HostEvent := [.writeReg Config.idxCmd (encode i)]

/-- `DO c`. -/
def doCommand (i : Instr) : List HostEvent := issue i ++ [.wait]

/-- `FT_SET s, v`. -/
def ftSet (s : Sym) (v : Word) : List HostEvent := .writeReg Config.idxData v :: doCommand (.ftLoad s)

/-- `BUILD`. -/
def buildCommands : List HostEvent := doCommand .treeBuild ++ doCommand .lutDerive

/-- `COUNT "str"`. -/
def countCommands (bytes : List Sym) : List HostEvent := bytes.flatMap fun b => doCommand (.ftAccum b)

/-- `ENCODE "str"`. -/
def encodeCommands (bytes : List Sym) : List HostEvent := bytes.flatMap fun b => doCommand (.encSym b)

/-- `DECODE n`. -/
def decodeCommands : Nat → List HostEvent
  | 0 => []
  | n + 1 => doCommand .decSym ++ .readReg Config.idxResult :: decodeCommands n

end Sys2Proof.Machine
end

