-- ==== Sys2Proof/Machine/Engine.lean ====
section
/-! DEFINITION. The engine's turn (10_state R40, R41): idle while BUSY = 0 or in reset, else one engine step of the command
in flight; an illegal word raises ILLEGAL in its first engine step (60_exceptions R202). -/

namespace Sys2Proof.Machine

/-- One engine step of the word in CUR_CMD. -/
def runCommand (st : State) : Answer :=
  match decode st.curCmd with
  | none => .next (raiseError .illegal st)
  | some i => exec i st

/-- The engine's turn: "after reset it is idle and waits for a CMD write" (70_reset R233); no step in reset (R231). -/
def engineStep (st : State) : Answer :=
  if st.rstN && st.busy then runCommand st else .next st

end Sys2Proof.Machine
end

