-- ==== Sys2Proof/Machine/Step.lean ====
section
/-! DEFINITION. One step of the machine: one host action or one turn of the engine (log 1, log 2). -/

namespace Sys2Proof.Machine

/-- One step: the host's next action, or the engine's turn. -/
def step (st : State) : Host.Outcome State Fault Refusal :=
  match turnOf st with
  | .host e rest => .next (applyHostEvent e { st with pending := rest })
  | .engine rest => engineStep { st with pending := rest }

/-- `s` with a command word of the opcode table as the command in flight, accepted as R24 (c) says and about to take its
start step as the very next step (log 13). -/
def State.withFetchWord (s : State) (nbits w : Nat) : State :=
  giveEngineTurn { acceptCommand (tableWord nbits w) s with rstN := true }

end Sys2Proof.Machine
end

