-- ==== Sys2Proof/Safety.lean ====
section
/-! DEFINITION. The terms claims are made in: the sums of the frequency table, the invariants the spec says hold "after
every step" (10_state R28, R30, R31, R32, R39), walks of the arena, and what a host can observe. -/

namespace Sys2Proof.Machine

/-! Sums over the frequency table. -/

/-- Σ FREQ[s] over s = 0..255 (10_state R31). -/
def freqTotal (freq : Memory Word) : Nat :=
  (allSyms.map fun s => (freqAt freq s).toNat).sum

/-- The symbols with FREQ[s] > 0, ascending. -/
def presentSyms (freq : Memory Word) : List Sym :=
  allSyms.filter fun s => decide (freqAt freq s ≠ 0#32)

/-! Invariants. -/

/-- 10_state R28, clause by clause. It holds after every engine step and every host step but one: the acceptance of an
ERR_CLEAR while ERR = 1, where R24 (c) sets BUSY and only that command's step clears ERR (log 9). -/
structure Rule28 (st : State) : Prop where
  lut_tree : st.lutValid = true → st.treeValid = true
  ok_code : st.err = false → st.errCode = .none
  err_idle : st.err = true → st.busy = false
  hold_busy : holdIn st = true ∨ holdOut st = true → st.busy = true
  hold_one : ¬ (holdIn st = true ∧ holdOut st = true)

/-- What of R28 holds after host actions too: ERR = 1 and BUSY = 1 together only while an accepted ERR_CLEAR waits for its
step (log 9). HOLD_IN and HOLD_OUT imply BUSY and exclude each other by their definition. -/
structure StatusInv (st : State) : Prop where
  lut_tree : st.lutValid = true → st.treeValid = true
  ok_code : st.err = false → st.errCode = .none
  err_code : st.err = true → st.errCode ≠ .none
  err_busy : st.err = true → st.busy = true → st.curCmd = Config.errClearWord ∧ st.phase = .start

/-- R30 and R31: NSYM and TOTAL agree with FREQ. -/
structure CountInv (st : State) : Prop where
  nsym : st.nsym.toNat = (presentSyms st.freq).length
  total : st.total.toNat = freqTotal st.freq

/-- R32 and R39 (b): NODES, ROOT and the arena agree with BuildTree(FREQ) while TREE_VALID = 1. -/
structure TreeInv (st : State) : Prop where
  none_nodes : st.treeValid = false → st.nodes = 0#10 ∧ st.root = 0#9
  nsym_pos : st.treeValid = true → 1 ≤ st.nsym.toNat
  nodes : st.treeValid = true → st.nodes.toNat = 2 * st.nsym.toNat - 1
  root : st.treeValid = true → st.root.toNat = st.nodes.toNat - 1
  arena : st.treeValid = true → ∀ i, i < st.nodes.toNat → (buildTree st.freq).nodes[i]? = some (st.nodeOf i)

/-- `Path(LEAFIDX[s])` of R141 in the tree the state holds. -/
def codeOf (st : State) (s : Sym) : Option (List Bool) :=
  (leafIndex st s).map fun i => path st.arena st.nodes.toNat st.root.toNat i

/-- R39 (c): every present symbol's LUT entry is its path while LUT_VALID = 1. -/
def LutInv (st : State) : Prop :=
  st.lutValid = true → ∀ s : Sym, st.freqOf s ≠ 0#32 → (codeOf st s).map entryOf = some (st.lutOf s)

/-- Before the start step the cursor wants nothing of a port (log 8); past it are only ENC_SYM and DEC_SYM (R41), and each
stands where R161 and R171 let it stand. -/
def EngineInv (st : State) : Prop :=
  (st.busy = true → st.phase = .start → st.encPos = 255#8 ∧ (st.nodeOf st.decNode.toNat).leaf = true)
  ∧ (st.busy = true → st.phase = .running →
    (∃ sym, decode st.curCmd = some (.encSym sym) ∧ st.lutValid = true ∧ st.freqOf sym ≠ 0#32
      ∧ st.encPos < (st.lutOf sym).len)
    ∨ (decode st.curCmd = some .decSym ∧ st.treeValid = true ∧ st.decNode.toNat < st.nodes.toNat
      ∧ (st.nodeOf st.decNode.toNat).leaf = false))

/-- While rst_n = 0 the block is in its reset state (70_reset R231). -/
def InResetInv (st : State) : Prop := st.rstN = false → resetBlock st = st

/-- What the spec says holds after every step (R28 as far as log 9 lets it; the engine's clauses with the phase of
log 7 and the cursor of log 8; NODE[0] always a leaf, log 3 and log 8; in reset log 20), and the canonical form of the memories (log 19). -/
structure Inv (st : State) : Prop where
  memories : st.memoriesWf = true
  status : StatusInv st
  count : CountInv st
  tree : TreeInv st
  lut : LutInv st
  engine : EngineInv st
  zeroLeaf : (st.nodeOf 0).leaf = true
  inReset : InResetInv st

/-! The engine alone, and walks of the arena. -/

/-- `n` steps in which only the engine moves, started with no host action to come. -/
def engineRun (n : Nat) (st : State) : Host.Outcome State Fault Refusal :=
  Host.Core.run Sys2Proof.core n { st with pending := [] }

/-- The node reached from node `i` by a sequence of branch bits (44_decoder R170). -/
def walk (arena : Memory Node) (i : Nat) (bits : List Bool) : Nat :=
  match bits with
  | [] => i
  | b :: rest => walk arena (childOf (nodeAt arena i) b).toNat rest

/-- Command `i` is accepted, out of reset, and about to take its start step. -/
def readyFor (i : Instr) (st : State) : Prop :=
  st.rstN = true ∧ st.busy = true ∧ st.phase = .start ∧ decode st.curCmd = some i

/-- The next step is the engine's step of command `i`. -/
def engineRuns (st : State) (i : Instr) : Prop :=
  (∃ rest, turnOf st = .engine rest) ∧ st.rstN = true ∧ st.busy = true ∧ decode st.curCmd = some i

/-- The next step is host action `e`. -/
def hostDoes (st : State) (e : HostEvent) : Prop := ∃ rest, turnOf st = .host e rest

/-! What a host can observe. -/

/-- The sixteen registers, the levels the block drives on its ports, and the bits and values it has handed over
(20_memory R61). -/
structure View where
  regs   : List Word
  oValid : Bool
  oData  : Bool
  iReady : Bool
  sink   : List Bool
  src    : List Bool
  reads  : List Word
deriving DecidableEq, Repr

/-- The host's view of a state; obit_data means something only while obit_valid = 1. -/
def viewOf (st : State) : View where
  regs := (List.range 16).map fun k => readReg st (BitVec.ofNat 4 k)
  oValid := obitValid st
  oData := obitValid st && obitData st
  iReady := ibitReady st
  sink := st.sink
  src := st.src
  reads := st.reads

/-- Two states that differ at most in what the spec calls "any value: unreadable" (93 I2, I3, I4): arena entries while
TREE_VALID = 0 or past NODES, LUT entries while LUT_VALID = 0 or of absent symbols, CUR_CMD, CUR_DATA, ENC_POS and
DEC_NODE while the engine is idle or while the command in flight does not use them. -/
structure SameButUnreadable (a b : State) : Prop where
  others : a = { b with arena := a.arena, lut := a.lut, curCmd := a.curCmd, curData := a.curData, phase := a.phase,
                        encPos := a.encPos, decNode := a.decNode }
  arena : a.treeValid = true → ∀ i, i < a.nodes.toNat → a.nodeOf i = b.nodeOf i
  lut : a.lutValid = true → ∀ s, a.freqOf s ≠ 0#32 → a.lutOf s = b.lutOf s
  command : a.busy = true → a.curCmd = b.curCmd ∧ a.curData = b.curData ∧ a.phase = b.phase
  encCursor : a.busy = true → a.phase = .running → ∀ sym, decode a.curCmd = some (.encSym sym) → a.encPos = b.encPos
  decCursor : a.busy = true → a.phase = .running → decode a.curCmd = some .decSym → a.decNode = b.decNode

/-! Full binary trees over symbols, for the optimality of 41_tree_builder R125. -/

/-- A full binary tree whose leaves are symbols. -/
inductive Shape where
  | leaf (s : Sym)
  | node (l r : Shape)
deriving DecidableEq, Repr

/-- The symbols at a shape's leaves, left to right. -/
def Shape.leaves : Shape → List Sym
  | .leaf s => [s]
  | .node l r => l.leaves ++ r.leaves

/-- Σ weight(leaf) × depth(leaf), the shape's root at depth `d`. -/
def Shape.costFrom (freq : Memory Word) (d : Nat) : Shape → Nat
  | .leaf s => (freqAt freq s).toNat * d
  | .node l r => l.costFrom freq (d + 1) + r.costFrom freq (d + 1)

end Sys2Proof.Machine
end

