-- ==== Sys2Proof/Certificates/Slice0/Obligations.lean ====
section
/-! DEFINITION. The statements for the provers, each a `def Obligations.<Name> : Prop` with the rules of spec/ it
formalises. OBLIGATIONS.json lists them. Numbers in brackets (log n) are notes/assumptions/<n>.md. -/

open Sys2Proof Sys2Proof.Machine

/-! Encoding (30_encoding). -/

/-- R84, R85: every command has one word and every word spells at most one command; no operand bit is lost either way. -/
def Obligations.DecodeAndEncodeAreInverse : Prop :=
  ∀ (i : Instr) (w : Word), i.wellFormed = true ∧ (decode w = some i ↔ encode i = w)

/-- R84: the table. A word spells a command exactly when it matches the command's row under its mask, and no word
matches two rows. -/
def Obligations.WordSpellsACommandExactlyWhenItMatchesItsRow : Prop :=
  ∃ table : List (Mnemonic × Word × Word),
    table =
      [(.nop, 0x00000000#32, 0xFFFFFFFF#32), (.ftClear, 0x01000000#32, 0xFFFFFFFF#32),
       (.ftAccum, 0x02000000#32, 0xFFFFFF00#32), (.ftLoad, 0x03000000#32, 0xFFFFFF00#32),
       (.ftRead, 0x04000000#32, 0xFFFFFF00#32), (.treeBuild, 0x05000000#32, 0xFFFFFFFF#32),
       (.nodeRead, 0x06000000#32, 0xFFFFCE00#32), (.lutDerive, 0x07000000#32, 0xFFFFFFFF#32),
       (.lutLen, 0x08000000#32, 0xFFFFFF00#32), (.lutWord, 0x09000000#32, 0xFFFFF800#32),
       (.encSym, 0x0A000000#32, 0xFFFFFF00#32), (.decSym, 0x0B000000#32, 0xFFFFFFFF#32),
       (.errClear, 0x0C000000#32, 0xFFFFFFFF#32)]
    ∧ (∀ row ∈ table, ∀ w : Word,
        (∃ i, decode w = some i ∧ i.mnemonic = row.1) ↔ w &&& row.2.2 = row.2.1)
    ∧ (∀ row ∈ table, ∀ row' ∈ table, ∀ w : Word,
        w &&& row.2.2 = row.2.1 → w &&& row'.2.2 = row'.2.1 → row = row')

/-- R86, R202: the illegal words are those with a reserved opcode and those with a must-be-zero bit set; an accepted one
raises ILLEGAL in its first engine step and changes nothing else, whether the host has nothing to do, waits (as `DO c` of R96
does), or yields (the list of its actions is the model's: log 1, log 16). -/
def Obligations.IllegalWordsAreTheReservedOnesAndRaiseIllegal : Prop :=
  (∀ w : Word, decode w = none ↔
    (0x0C < (w.extractLsb' 24 8).toNat
      ∨ ((w.extractLsb' 24 8).toNat ∈ [0x00, 0x01, 0x05, 0x07, 0x0B, 0x0C] ∧ w.extractLsb' 0 24 ≠ 0#24)
      ∨ ((w.extractLsb' 24 8).toNat ∈ [0x02, 0x03, 0x04, 0x08, 0x0A] ∧ w.extractLsb' 8 16 ≠ 0#16)
      ∨ ((w.extractLsb' 24 8).toNat = 0x09 ∧ w.extractLsb' 11 13 ≠ 0#13)
      ∨ ((w.extractLsb' 24 8).toNat = 0x06 ∧ (w.extractLsb' 14 10 ≠ 0#10 ∨ w.extractLsb' 9 3 ≠ 0#3))))
  ∧ (∀ (s : State) (rest : List HostEvent), s.rstN = true → s.busy = true → decode s.curCmd = none →
      (s.pending = [] ∨ s.pending = .wait :: rest →
        step s = .next { s with errCode := .illegal, err := true, errCmd := s.curCmd, busy := false })
      ∧ (s.pending = .yield :: rest →
        step s = .next { s with pending := rest, errCode := .illegal, err := true, errCmd := s.curCmd, busy := false }))

/-- R82, R83, R85: the operands a decoded command holds are the fields of its word, unsigned and unscaled. -/
def Obligations.DecodedOperandsAreTheFieldsOfTheWord : Prop :=
  ∀ w : Word,
    (∀ sym, (decode w = some (.ftAccum sym) ∨ decode w = some (.ftLoad sym) ∨ decode w = some (.ftRead sym)
        ∨ decode w = some (.lutLen sym) ∨ decode w = some (.encSym sym)) → sym.toNat = w.toNat % 2 ^ 8)
    ∧ (∀ sym widx, decode w = some (.lutWord sym widx) →
        sym.toNat = w.toNat % 2 ^ 8 ∧ widx.toNat = w.toNat / 2 ^ 8 % 2 ^ 3)
    ∧ (∀ node fsel, decode w = some (.nodeRead node fsel) →
        node.toNat = w.toNat % 2 ^ 9 ∧ fsel.toNat = w.toNat / 2 ^ 12 % 2 ^ 2)

/-- R95: the assembler's formula gives each command its word; it refuses exactly the lines that are assembly errors; and
the word it gives decodes to the command whose line it read. -/
def Obligations.AssemblerAndDecoderAgree : Prop :=
  (∀ i : Instr, assemble i.toAsm = some (encode i))
  ∧ (∀ l : AsmLine, assemble l = none ↔ l.wellFormed = false)
  ∧ (∀ (l : AsmLine) (w : Word), assemble l = some w → ∃ i, decode w = some i ∧ i.toAsm = l)

/-- Words the spec writes out (R95, R102, R123, R144, R161, R171, R181), read by the decoder. -/
def Obligations.WordsTheSpecWritesOutDecode : Prop :=
  decode 0x09000101#32 = some (.lutWord 0x01 1)
  ∧ decode 0x06003008#32 = some (.nodeRead 8 .child1)
  ∧ decode 0x06001001#32 = some (.nodeRead 1 .info)
  ∧ decode 0x02000061#32 = some (.ftAccum 0x61)
  ∧ decode 0x08000062#32 = some (.lutLen 0x62)
  ∧ decode 0x0A000064#32 = some (.encSym 0x64)
  ∧ decode 0x0B000000#32 = some .decSym
  ∧ decode 0x0C000000#32 = some .errClear
  ∧ decode 0x0C000001#32 = none
  ∧ decode 0x06000200#32 = none
  ∧ decode 0x0D000000#32 = none

/-! The step, the registers and STATUS (10_state). -/

/-- R40, R41: when the word in flight decodes, the engine's turn is one step of that command, whether the host has
nothing to do, yields, or waits (log 1, log 2). -/
def Obligations.StepRunsTheCommandInFlight : Prop :=
  ∀ (s : State) (i : Instr), s.rstN = true → s.busy = true → decode s.curCmd = some i →
    (s.pending = [] → step s = exec i s)
    ∧ (∀ rest, s.pending = .yield :: rest → step s = exec i { s with pending := rest })
    ∧ (∀ rest, s.pending = .wait :: rest → step s = exec i s)

/-- log 13: a command's word placed by withFetchWord is accepted as R24 (c) says, and the very next step runs it (`phase`:
log 7; the cursor before the start step: log 8). -/
def Obligations.FetchedWordIsTheNextStep : Prop :=
  ∀ (s : State) (i : Instr),
    step (s.withFetchWord 32 (encode i).toNat)
      = exec i { s with curCmd := encode i, curData := s.data, busy := true, phase := .start, encPos := 255, decNode := 0,
                        rstN := true }

/-- R24: the three outcomes of a CMD write; CMD reads 0. That acceptance sets the field `phase` to `start` is the model's
choice (log 7, DEDUCED), and so are the values of the cursor until the start step sets it (log 8, DESIGN CHOICE). -/
def Obligations.CommandWriteIsDroppedDiscardedOrAccepted : Prop :=
  ∀ (s : State) (w : Word) (rest : List HostEvent), s.rstN = true → s.pending = .writeReg 0 w :: rest →
    (s.busy = true → step s = .next { s with pending := rest, ovr := true })
    ∧ (s.busy = false → s.err = true → w ≠ 0x0C000000#32 → step s = .next { s with pending := rest })
    ∧ (s.busy = false → (s.err = false ∨ w = 0x0C000000#32) →
        step s = .next { s with pending := rest, curCmd := w, curData := s.data, busy := true, phase := .start,
                                encPos := 255, decNode := 0 })
    ∧ readReg s 0 = 0#32

/-- R23: a write to DATA sets it; a write to any register but CMD and DATA has no effect; a read returns a word and has
no side effect; CMD and the reserved indices read 0. -/
def Obligations.RegisterAccessesHaveNoOtherEffect : Prop :=
  ∀ (s : State) (idx : BitVec 4) (v : Word) (rest : List HostEvent),
    (s.rstN = true → s.pending = .writeReg 1 v :: rest → step s = .next { s with pending := rest, data := v })
    ∧ (s.rstN = true → s.pending = .writeReg idx v :: rest → idx ≠ 0 → idx ≠ 1 →
        step s = .next { s with pending := rest })
    ∧ (s.pending = .readReg idx :: rest →
        step s = .next { s with pending := rest, reads := s.reads ++ [readReg s idx] })
    ∧ (idx = 0 ∨ 10 ≤ idx.toNat → readReg s idx = 0#32)

/-- R22, R30 to R33: what each index of the window reads, as a number. -/
def Obligations.RegisterWindowReadsItsRegisters : Prop :=
  ∀ s : State,
    readReg s 1 = s.data ∧ readReg s 2 = s.result ∧ readReg s 3 = statusWord s ∧ readReg s 4 = s.errCmd
    ∧ (readReg s 5).toNat = s.nsym.toNat ∧ readReg s 6 = s.total ∧ (readReg s 7).toNat = s.nodes.toNat
    ∧ (readReg s 8).toNat = s.root.toNat ∧ readReg s 9 = 0x48554601#32

/-- R27, R201: the bits of STATUS. -/
def Obligations.StatusWordHasTheFieldsOfItsTable : Prop :=
  ∀ s : State,
    (statusWord s).getLsbD 0 = s.busy ∧ (statusWord s).getLsbD 1 = s.err ∧ (statusWord s).getLsbD 2 = s.treeValid
    ∧ (statusWord s).getLsbD 3 = s.lutValid ∧ (statusWord s).getLsbD 4 = holdIn s
    ∧ (statusWord s).getLsbD 5 = holdOut s ∧ (statusWord s).getLsbD 6 = s.ovr ∧ (statusWord s).getLsbD 7 = false
    ∧ (statusWord s).toNat / 2 ^ 8 =
        (match s.errCode with
          | .none => 0
          | .illegal => 1
          | .noTree => 2
          | .noLut => 3
          | .symAbsent => 4
          | .nodeRange => 5
          | .overflow => 6
          | .truncated => 7)

/-- R42: HOLD_IN and HOLD_OUT are 1 exactly when its conditions hold, in every state. -/
def Obligations.HoldBitsAreLiveViewsOfTheEngine : Prop :=
  ∀ s : State,
    (holdIn s = true ↔ s.busy = true ∧ decode s.curCmd = some .decSym
      ∧ (s.nodeOf s.decNode.toNat).leaf = false ∧ s.src = [] ∧ s.eos = false)
    ∧ (holdOut s = true ↔ s.busy = true ∧ s.sinkMode.accepts = false
      ∧ ∃ sym, decode s.curCmd = some (.encSym sym) ∧ s.encPos.toNat < (s.lutOf sym).len.toNat)

/-- R41: "A step that calls EmitBit or TakeBit and meets a hold is not taken", and no other engine step of a busy block
leaves the state as it was. A step not taken is a `next` with the same state, the model's choice (log 2, DEDUCED); and the
equivalence needs HOLD_IN and HOLD_OUT to be 0 before the start step, as the cursor the model has there makes them (log 8,
DESIGN CHOICE; EngineInv). -/
def Obligations.EngineStepIsNotTakenExactlyWhenHeld : Prop :=
  ∀ s : State, EngineInv s → s.rstN = true → s.busy = true → s.pending = [] →
    (step s = .next s ↔ holdIn s = true ∨ holdOut s = true)

/-- R205, R251 (log 17): no state and no word stops the machine. -/
def Obligations.EveryStepAnswersANextState : Prop :=
  ∀ s : State, ∃ t, step s = .next t ∧ (s.pending = [] → t.pending = [])

/-- R43, R64, R65, R95, R96, R243, R245: what the host does at the ports changes its own side alone; a `WAIT` of an idle block
and a turn of an engine that is idle (R41, R233) or in reset (R231) change nothing; the block's registers, memories and
engine stay. The list `pending` and the forms of these actions are the model's (log 1, log 15, log 16), and so is that an
idle turn is a step that changes nothing (log 2, DEDUCED; in reset log 20, DEDUCED). -/
def Obligations.HostPortActionsChangeOnlyTheHostsSide : Prop :=
  ∀ (s : State) (rest : List HostEvent),
    (∀ bits, s.pending = .offer bits :: rest → step s = .next { s with pending := rest, src := s.src ++ bits })
    ∧ (s.pending = .withdraw :: rest → step s = .next { s with pending := rest, src := [] })
    ∧ (∀ level, s.pending = .setEos level :: rest → step s = .next { s with pending := rest, eos := level })
    ∧ (∀ mode, s.pending = .setSink mode :: rest → step s = .next { s with pending := rest, sinkMode := mode })
    ∧ (∀ n, s.pending = .accept n :: rest → s.sinkMode = .always →
        step s = .next { s with pending := rest, sinkMode := .limited n })
    ∧ (∀ n room, s.pending = .accept n :: rest → s.sinkMode = .limited room →
        step s = .next { s with pending := rest, sinkMode := .limited (room + n) })
    ∧ (s.pending = .wait :: rest → s.busy = false → step s = .next { s with pending := rest })
    ∧ (s.pending = .yield :: rest → (s.busy = false ∨ s.rstN = false) → step s = .next { s with pending := rest })
    ∧ (s.pending = [] → (s.busy = false ∨ s.rstN = false) → step s = .next s)

/-! The commands, each with its word, its effect and what it leaves. -/

/-- R180. -/
def Obligations.NopOnlyCompletes : Prop :=
  decode 0x00000000#32 = some .nop
  ∧ ∀ s : State, exec .nop s = .next { s with busy := false }

/-- R181. -/
def Obligations.ErrClearLeavesTheErrorState : Prop :=
  decode 0x0C000000#32 = some .errClear ∧ decode 0x0C000001#32 = none
  ∧ ∀ s : State,
      exec .errClear s = .next { s with err := false, errCode := .none, ovr := false, errCmd := 0#32, busy := false }

/-- R100, R106. -/
def Obligations.FtClearEmptiesTheTable : Prop :=
  decode 0x01000000#32 = some .ftClear
  ∧ ∀ s : State, ∃ f,
      exec .ftClear s = .next { s with freq := f, nsym := 0, total := 0, treeValid := false, lutValid := false,
                                       nodes := 0, root := 0, busy := false }
      ∧ ∀ x, freqAt f x = 0#32

/-- R102, R106: one occurrence is counted and nothing else changes, or OVERFLOW is raised. -/
def Obligations.FtAccumCountsOneOccurrence : Prop :=
  ∀ (s : State) (sym : Sym),
    decode (0x02000000#32 ||| zext32 sym) = some (.ftAccum sym)
    ∧ (s.total = 0xFFFFFFFF#32 →
        exec (.ftAccum sym) s
          = .next { s with errCode := .overflow, err := true, errCmd := s.curCmd, busy := false })
    ∧ (s.memoriesWf = true → s.total ≠ 0xFFFFFFFF#32 → ∃ f,
        exec (.ftAccum sym) s
          = .next { s with freq := f, nsym := if s.freqOf sym = 0#32 then s.nsym + 1#9 else s.nsym,
                           total := s.total + 1#32, treeValid := false, lutValid := false, nodes := 0, root := 0,
                           busy := false }
        ∧ freqAt f sym = s.freqOf sym + 1#32 ∧ ∀ x, x ≠ sym → freqAt f x = s.freqOf x)

/-- R103, R106, R107 (b): the count becomes CUR_DATA, NSYM and TOTAL follow on unbounded integers, or OVERFLOW is
raised. -/
def Obligations.FtLoadSetsTheCount : Prop :=
  ∀ (s : State) (sym : Sym),
    decode (0x03000000#32 ||| zext32 sym) = some (.ftLoad sym)
    ∧ ((s.total.toNat : Int) - (s.freqOf sym).toNat + s.curData.toNat > 0xFFFFFFFF →
        exec (.ftLoad sym) s
          = .next { s with errCode := .overflow, err := true, errCmd := s.curCmd, busy := false })
    ∧ (s.memoriesWf = true → CountInv s →
        (s.total.toNat : Int) - (s.freqOf sym).toNat + s.curData.toNat ≤ 0xFFFFFFFF → ∃ f n t,
        exec (.ftLoad sym) s
          = .next { s with freq := f, nsym := n, total := t, treeValid := false, lutValid := false, nodes := 0,
                           root := 0, busy := false }
        ∧ freqAt f sym = s.curData ∧ (∀ x, x ≠ sym → freqAt f x = s.freqOf x)
        ∧ (t.toNat : Int) = (s.total.toNat : Int) - (s.freqOf sym).toNat + s.curData.toNat
        ∧ (n.toNat : Int) = (s.nsym.toNat : Int) - (if s.freqOf sym = 0#32 then 0 else 1)
            + (if s.curData = 0#32 then 0 else 1))

/-- R104. -/
def Obligations.FtReadReturnsTheCount : Prop :=
  ∀ (s : State) (sym : Sym),
    decode (0x04000000#32 ||| zext32 sym) = some (.ftRead sym)
    ∧ exec (.ftRead sym) s = .next { s with result := s.freqOf sym, busy := false }

/-- R121: an empty table leaves no tree and is no error; else the arena's first 2n - 1 entries are BuildTree(FREQ), the
others stay, and NODES, ROOT and the valid bits follow. -/
def Obligations.TreeBuildBuildsTheTreeOfFreq : Prop :=
  decode 0x05000000#32 = some .treeBuild
  ∧ ∀ s : State,
    (s.nsym = 0#9 →
      exec .treeBuild s = .next { s with treeValid := false, lutValid := false, nodes := 0, root := 0, busy := false })
    ∧ (s.memoriesWf = true → CountInv s → s.nsym ≠ 0#9 → ∃ a n r,
        exec .treeBuild s
          = .next { s with arena := a, nodes := n, root := r, treeValid := true, lutValid := false, busy := false }
        ∧ n.toNat = 2 * s.nsym.toNat - 1 ∧ r.toNat = 2 * s.nsym.toNat - 2
        ∧ (buildTree s.freq).root = 2 * s.nsym.toNat - 2
        ∧ (∀ i, i < n.toNat → (buildTree s.freq).nodes[i]? = some (nodeAt a i))
        ∧ ∀ i, n.toNat ≤ i → nodeAt a i = s.nodeOf i)

/-- R123, R211: NO_TREE, then NODE_RANGE, then the field selected. -/
def Obligations.NodeReadReturnsTheFieldSelected : Prop :=
  ∀ (s : State) (node : NodeIdx) (fsel : FSel),
    decode (0x06000000#32 ||| zext32 fsel.toBits <<< 12 ||| zext32 node) = some (.nodeRead node fsel)
    ∧ (s.treeValid = false → exec (.nodeRead node fsel) s
        = .next { s with errCode := .noTree, err := true, errCmd := s.curCmd, busy := false })
    ∧ (s.treeValid = true → s.nodes.toNat ≤ node.toNat → exec (.nodeRead node fsel) s
        = .next { s with errCode := .nodeRange, err := true, errCmd := s.curCmd, busy := false })
    ∧ (s.treeValid = true → node.toNat < s.nodes.toNat → ∃ r,
        exec (.nodeRead node fsel) s = .next { s with result := r, busy := false }
        ∧ (fsel = .weight → r = (s.nodeOf node.toNat).w)
        ∧ (fsel = .info → r.toNat = (if (s.nodeOf node.toNat).leaf then 256 else 0) + (s.nodeOf node.toNat).sym.toNat)
        ∧ (fsel = .child0 → r.toNat = if (s.nodeOf node.toNat).leaf then 0xFFFFFFFF
            else (s.nodeOf node.toNat).c0.toNat)
        ∧ (fsel = .child1 → r.toNat = if (s.nodeOf node.toNat).leaf then 0xFFFFFFFF
            else (s.nodeOf node.toNat).c1.toNat))

/-- R140: NO_TREE, or every leaf's entry becomes its path and its length, and the entries of absent symbols stay. -/
def Obligations.LutDeriveWritesEveryCodeword : Prop :=
  decode 0x07000000#32 = some .lutDerive
  ∧ ∀ s : State,
    (s.treeValid = false → exec .lutDerive s
      = .next { s with errCode := .noTree, err := true, errCmd := s.curCmd, busy := false })
    ∧ (Inv s → s.treeValid = true → ∃ l,
        exec .lutDerive s = .next { s with lut := l, lutValid := true, busy := false }
        ∧ (∀ i, i < s.nodes.toNat → (s.nodeOf i).leaf = true →
            (Memory.read lutDefault l (s.nodeOf i).sym.toNat).code = path s.arena s.nodes.toNat s.root.toNat i
            ∧ (Memory.read lutDefault l (s.nodeOf i).sym.toNat).len.toNat
                = (path s.arena s.nodes.toNat s.root.toNat i).length)
        ∧ ∀ x, s.freqOf x = 0#32 → Memory.read lutDefault l x.toNat = s.lutOf x)

/-- R143, R211: NO_LUT, then SYM_ABSENT, then the length. -/
def Obligations.LutLenReturnsTheLength : Prop :=
  ∀ (s : State) (sym : Sym),
    decode (0x08000000#32 ||| zext32 sym) = some (.lutLen sym)
    ∧ (s.lutValid = false → exec (.lutLen sym) s
        = .next { s with errCode := .noLut, err := true, errCmd := s.curCmd, busy := false })
    ∧ (s.lutValid = true → s.freqOf sym = 0#32 → exec (.lutLen sym) s
        = .next { s with errCode := .symAbsent, err := true, errCmd := s.curCmd, busy := false })
    ∧ (s.lutValid = true → s.freqOf sym ≠ 0#32 → ∃ r,
        exec (.lutLen sym) s = .next { s with result := r, busy := false } ∧ r.toNat = (s.lutOf sym).len.toNat)

/-- R144, R211: NO_LUT, then SYM_ABSENT, then 32 codeword bits, the first one in bit 31, zero past the length. -/
def Obligations.LutWordReturnsCodewordBitsMsbFirst : Prop :=
  ∀ (s : State) (sym : Sym) (widx : BitVec 3),
    decode (0x09000000#32 ||| zext32 widx <<< 8 ||| zext32 sym) = some (.lutWord sym widx)
    ∧ (s.lutValid = false → exec (.lutWord sym widx) s
        = .next { s with errCode := .noLut, err := true, errCmd := s.curCmd, busy := false })
    ∧ (s.lutValid = true → s.freqOf sym = 0#32 → exec (.lutWord sym widx) s
        = .next { s with errCode := .symAbsent, err := true, errCmd := s.curCmd, busy := false })
    ∧ (s.lutValid = true → s.freqOf sym ≠ 0#32 → ∃ r,
        exec (.lutWord sym widx) s = .next { s with result := r, busy := false }
        ∧ ∀ j, j < 32 → r.getLsbD (31 - j)
            = if 32 * widx.toNat + j < (s.lutOf sym).len.toNat
              then (s.lutOf sym).code.getD (32 * widx.toNat + j) false else false)

/-- R161, R211: the start step's checks and its end on an empty codeword; the emit step; the hold. The field `phase` is the
model's (log 7, DEDUCED); that the start step comes first and the last bit's step completes follows R161 where R41 speaks
of a final completing step (log 22, DEDUCED). -/
def Obligations.EncSymStepsAsItsRuleSays : Prop :=
  ∀ (s : State) (sym : Sym),
    decode (0x0A000000#32 ||| zext32 sym) = some (.encSym sym)
    ∧ (s.phase = .start → s.lutValid = false → exec (.encSym sym) s
        = .next { s with errCode := .noLut, err := true, errCmd := s.curCmd, busy := false })
    ∧ (s.phase = .start → s.lutValid = true → s.freqOf sym = 0#32 → exec (.encSym sym) s
        = .next { s with errCode := .symAbsent, err := true, errCmd := s.curCmd, busy := false })
    ∧ (s.phase = .start → s.lutValid = true → s.freqOf sym ≠ 0#32 → (s.lutOf sym).len = 0#8 →
        exec (.encSym sym) s = .next { s with encPos := 0, busy := false })
    ∧ (s.phase = .start → s.lutValid = true → s.freqOf sym ≠ 0#32 → (s.lutOf sym).len ≠ 0#8 →
        exec (.encSym sym) s = .next { s with encPos := 0, phase := .running })
    ∧ (s.phase = .running → s.sinkMode.accepts = true →
        exec (.encSym sym) s
          = .next { s with sink := s.sink ++ [(s.lutOf sym).code.getD s.encPos.toNat false],
                           sinkMode := s.sinkMode.afterTransfer, encPos := s.encPos + 1#8,
                           busy := if s.encPos + 1#8 = (s.lutOf sym).len then false else s.busy })
    ∧ (s.phase = .running → s.sinkMode.accepts = false → exec (.encSym sym) s = .next s)

/-- R171: the start step, the bit step with a bit, at end of stream, and held. The field `phase` is the model's (log 7,
DEDUCED); that the start step comes first and the last bit's step completes follows R171 where R41 speaks of a final
completing step (log 22, DEDUCED). -/
def Obligations.DecSymStepsAsItsRuleSays : Prop :=
  decode 0x0B000000#32 = some .decSym
  ∧ ∀ s : State,
    (s.phase = .start → s.treeValid = false → exec .decSym s
      = .next { s with errCode := .noTree, err := true, errCmd := s.curCmd, busy := false })
    ∧ (s.phase = .start → s.treeValid = true → (s.nodeOf s.root.toNat).leaf = true → exec .decSym s
        = .next { s with decNode := s.root, result := zext32 (s.nodeOf s.root.toNat).sym, busy := false })
    ∧ (s.phase = .start → s.treeValid = true → (s.nodeOf s.root.toNat).leaf = false →
        exec .decSym s = .next { s with decNode := s.root, phase := .running })
    ∧ (s.phase = .running → ∀ b rest, s.src = b :: rest → ∃ n,
        n = (if b then (s.nodeOf s.decNode.toNat).c1 else (s.nodeOf s.decNode.toNat).c0)
        ∧ ((s.nodeOf n.toNat).leaf = true → exec .decSym s
            = .next { s with src := rest, decNode := n, result := zext32 (s.nodeOf n.toNat).sym, busy := false })
        ∧ ((s.nodeOf n.toNat).leaf = false → exec .decSym s = .next { s with src := rest, decNode := n }))
    ∧ (s.phase = .running → s.src = [] → s.eos = true → exec .decSym s
        = .next { s with errCode := .truncated, err := true, errCmd := s.curCmd, busy := false })
    ∧ (s.phase = .running → s.src = [] → s.eos = false → exec .decSym s = .next s)

/-! Whole commands and whole streams. -/

/-- R161, R251, R71: an ENC_SYM whose sink accepts takes 1 + len engine steps, stays busy until the last, and by then the
sink holds the whole codeword, first bit first; nothing else changes but the cursor. That k steps leave k - 1 bits in the
sink, and BUSY falls with the last bit, is R161's order where R41 speaks of a final completing step (log 22, DEDUCED). -/
def Obligations.EncSymEmitsItsCodeword : Prop :=
  ∀ (s : State) (sym : Sym), Inv s → readyFor (.encSym sym) s → s.lutValid = true → s.freqOf sym ≠ 0#32 →
    (s.sinkMode = .always ∨ ∃ room, (s.lutOf sym).len.toNat ≤ room ∧ s.sinkMode = .limited room) →
    (∃ t, engineRun (1 + (s.lutOf sym).len.toNat) s = .next t
      ∧ t = { s with pending := [], busy := false, sink := s.sink ++ (s.lutOf sym).code, sinkMode := t.sinkMode,
                     phase := t.phase, encPos := t.encPos }
      ∧ (s.sinkMode = .always → t.sinkMode = .always)
      ∧ (∀ room, s.sinkMode = .limited room → t.sinkMode = .limited (room - (s.lutOf sym).len.toNat)))
    ∧ ∀ k, k < 1 + (s.lutOf sym).len.toNat → ∃ u, engineRun k s = .next u ∧ u.busy = true
        ∧ u.sink = s.sink ++ (s.lutOf sym).code.take (k - 1)

/-- R171, R142 (e), R251: when the source offers a present symbol's codeword, DEC_SYM takes exactly its bits, in 1 + depth
engine steps, and returns the symbol; nothing else changes but the cursor. The step without a bit is the start step
(log 22, DEDUCED). -/
def Obligations.DecSymDecodesACodeword : Prop :=
  ∀ (s : State) (sym : Sym) (c rest : List Bool), Inv s → readyFor .decSym s → s.treeValid = true →
    s.freqOf sym ≠ 0#32 → codeOf s sym = some c → s.src = c ++ rest →
    ∃ t, engineRun (1 + c.length) s = .next t
      ∧ t = { s with pending := [], busy := false, src := rest, result := zext32 sym, phase := t.phase,
                     decNode := t.decNode }

/-- R209, R212: when the source ends inside a codeword, DEC_SYM takes what is offered and reports TRUNCATED; RESULT and
every other register are as before. -/
def Obligations.DecSymReportsTruncation : Prop :=
  ∀ (s : State) (sym : Sym) (more : List Bool), Inv s → readyFor .decSym s → s.treeValid = true →
    s.freqOf sym ≠ 0#32 → codeOf s sym = some (s.src ++ more) → more ≠ [] → s.eos = true →
    ∃ t, engineRun (2 + s.src.length) s = .next t
      ∧ t = { s with pending := [], busy := false, src := [], err := true, errCode := .truncated, errCmd := s.curCmd,
                     phase := t.phase, decNode := t.decNode }

/-- R173: whatever the bits, a DEC_SYM ends: with a present symbol whose codeword is what it took, or with TRUNCATED and
every offered bit taken. -/
def Obligations.AnyBitsDecodeToATreeSymbolOrTruncate : Prop :=
  ∀ s : State, Inv s → readyFor .decSym s → s.treeValid = true → s.eos = true →
    ∃ n t, n ≤ 256 ∧ engineRun n s = .next t ∧ t.busy = false
      ∧ ((t.err = false ∧ ∃ sym taken, s.freqOf sym ≠ 0#32 ∧ codeOf s sym = some taken ∧ s.src = taken ++ t.src
            ∧ t.result = zext32 sym)
        ∨ (t.err = true ∧ t.errCode = .truncated ∧ t.src = [] ∧ t.result = s.result))

/-- R174, R162, R67: encoding a sequence of present bytes appends their codewords in order to the sink, and decoding just
those bits, on any block with the same table and a tree, as often as there were bytes, returns the bytes and takes
every bit. -/
def Obligations.RoundTripRestoresTheBytes : Prop :=
  ∀ (s : State) (bytes : List Sym), Inv s → s.rstN = true → s.busy = false → s.err = false → s.lutValid = true →
    s.sinkMode = .always → (∀ b ∈ bytes, s.freqOf b ≠ 0#32) →
    (∃ n t, Host.Core.run Sys2Proof.core n { s with pending := encodeCommands bytes } = .next t ∧ t.pending = []
      ∧ t.busy = false ∧ t.err = false ∧ t.sink = s.sink ++ bytes.flatMap fun b => (s.lutOf b).code)
    ∧ ∀ d : State, Inv d → d.rstN = true → d.busy = false → d.err = false → d.treeValid = true → d.freq = s.freq →
      ∃ m u, Host.Core.run Sys2Proof.core m
          { d with src := bytes.flatMap fun b => (s.lutOf b).code, pending := decodeCommands bytes.length,
                   reads := [] } = .next u
        ∧ u.pending = [] ∧ u.busy = false ∧ u.err = false ∧ u.src = [] ∧ u.reads = bytes.map fun b => zext32 b

/-- R102, R105: after FT_CLEAR and one FT_ACCUM per byte of an input, FREQ is the input's histogram, TOTAL its length
and NSYM the number of distinct bytes. -/
def Obligations.CountingGivesTheHistogram : Prop :=
  ∀ (s : State) (bytes : List Sym), s.memoriesWf = true → s.rstN = true → s.busy = false → s.err = false →
    bytes.length ≤ 0xFFFFFFFF →
    ∃ n t, Host.Core.run Sys2Proof.core n { s with pending := doCommand .ftClear ++ countCommands bytes } = .next t
      ∧ t.pending = [] ∧ t.busy = false ∧ t.err = false
      ∧ (∀ x, (t.freqOf x).toNat = bytes.count x) ∧ t.total.toNat = bytes.length ∧ t.nsym.toNat = bytes.dedup.length

/-! The tree and the codewords. -/

/-- R36, R120, R122: BuildTree said by its result. With n present symbols there are 2n - 1 nodes; the first n are the
leaves in ascending symbol order; node n + k joins the two least of the nodes before it that no node before it has
joined, least first, by weight and then by index; the root is the last. -/
def Obligations.BuildTreeJoinsTheTwoLeastNodesLeft : Prop :=
  ∀ (freq : Memory Word) (n : Nat), n = (presentSyms freq).length → 1 ≤ n →
    ∃ node : Nat → Node, (∀ i, (buildTree freq).nodes[i]? = if i < 2 * n - 1 then some (node i) else none)
    ∧ (buildTree freq).root = 2 * n - 2
    ∧ (∀ k, k < n → ∃ s, (presentSyms freq)[k]? = some s
        ∧ node k = { w := freqAt freq s, leaf := true, sym := s, c0 := 0, c1 := 0 })
    ∧ ∀ k, k < n - 1 → ∃ left : Nat → Prop, ∃ before : Nat → Nat → Prop, ∃ a b,
        (∀ i, left i ↔ i < n + k ∧ ∀ j, n ≤ j → j < n + k → (node j).c0.toNat ≠ i ∧ (node j).c1.toNat ≠ i)
        ∧ (∀ i j, before i j ↔ (node i).w < (node j).w ∨ ((node i).w = (node j).w ∧ i < j))
        ∧ left a ∧ left b ∧ a ≠ b
        ∧ (∀ i, left i → i ≠ a → before a i) ∧ (∀ i, left i → i ≠ a → i ≠ b → before b i)
        ∧ node (n + k) = { w := (node a).w + (node b).w, leaf := false, sym := 0, c0 := BitVec.ofNat 9 a,
                           c1 := BitVec.ofNat 9 b }

/-- R124 (a) to (e): the tree the state holds is full; weights are counts at leaves and exact sums above; the root's
weight is TOTAL; leaves and present symbols correspond; children come before their parent; every node but the root has
exactly one parent, and the root none. -/
def Obligations.ValidTreeIsAFullTreeWithSummedWeights : Prop :=
  ∀ s : State, Inv s → s.treeValid = true →
    (∀ i, i < s.nodes.toNat → (s.nodeOf i).leaf = true → (s.nodeOf i).w = s.freqOf (s.nodeOf i).sym)
    ∧ (∀ i, i < s.nodes.toNat → (s.nodeOf i).leaf = false →
        (s.nodeOf i).c0.toNat < i ∧ (s.nodeOf i).c1.toNat < i ∧ (s.nodeOf i).c0 ≠ (s.nodeOf i).c1
        ∧ (s.nodeOf i).w.toNat = (s.nodeOf (s.nodeOf i).c0.toNat).w.toNat + (s.nodeOf (s.nodeOf i).c1.toNat).w.toNat)
    ∧ (s.nodeOf s.root.toNat).w = s.total
    ∧ (∀ x : Sym, s.freqOf x ≠ 0#32 ↔ ∃ i, i < s.nodes.toNat ∧ (s.nodeOf i).leaf = true ∧ (s.nodeOf i).sym = x)
    ∧ (∀ i j, i < s.nodes.toNat → j < s.nodes.toNat → (s.nodeOf i).leaf = true → (s.nodeOf j).leaf = true →
        (s.nodeOf i).sym = (s.nodeOf j).sym → i = j)
    ∧ (∀ i, i < s.nodes.toNat → i ≠ s.root.toNat →
        ∃! p, p < s.nodes.toNat ∧ (s.nodeOf p).leaf = false
          ∧ ((s.nodeOf p).c0.toNat = i ∨ (s.nodeOf p).c1.toNat = i))
    ∧ ∀ p, p < s.nodes.toNat → (s.nodeOf p).leaf = false →
        (s.nodeOf p).c0 ≠ s.root ∧ (s.nodeOf p).c1 ≠ s.root

/-- R125: equal tables give identical trees and identical codewords for every symbol, whatever else the two states hold
(stale arena and LUT entries among it). -/
def Obligations.EqualTablesGiveEqualTreesAndCodewords : Prop :=
  ∀ a b : State, Inv a → Inv b → a.treeValid = true → b.treeValid = true → (∀ x, a.freqOf x = b.freqOf x) →
    a.nodes = b.nodes ∧ a.root = b.root ∧ (∀ i, i < a.nodes.toNat → a.nodeOf i = b.nodeOf i)
    ∧ (∀ x, codeOf a x = codeOf b x)
    ∧ (a.lutValid = true → b.lutValid = true → ∀ x, a.freqOf x ≠ 0#32 → a.lutOf x = b.lutOf x)

/-- R125: the tree minimizes the sum of weight times depth over all full binary trees with the same leaves. -/
def Obligations.BuiltTreeIsOptimal : Prop :=
  ∀ s : State, Inv s → s.treeValid = true →
    ∀ shape : Shape, shape.leaves.Perm (presentSyms s.freq) →
      ((presentSyms s.freq).map fun x => (s.freqOf x).toNat * ((codeOf s x).getD []).length).sum
        ≤ shape.costFrom s.freq 0

/-- R126, R142 (b), (c): every present symbol has a codeword of at most n - 1 bits, at most 255, and it is empty exactly
when the alphabet has one symbol. -/
def Obligations.CodewordLengthsAreBounded : Prop :=
  ∀ (s : State) (x : Sym), Inv s → s.treeValid = true → s.freqOf x ≠ 0#32 →
    ∃ c, codeOf s x = some c ∧ c.length ≤ s.nsym.toNat - 1 ∧ c.length ≤ 255 ∧ (c = [] ↔ s.nsym = 1#9)

/-- R141: the path of the root is empty; the path of any other node is its parent's path and one branch bit. And the
walk from the root along a node's path ends at the node. -/
def Obligations.PathIsTheBranchBitsFromTheRoot : Prop :=
  ∀ s : State, Inv s → s.treeValid = true →
    path s.arena s.nodes.toNat s.root.toNat s.root.toNat = []
    ∧ (∀ p i, p < s.nodes.toNat → (s.nodeOf p).leaf = false →
        ((s.nodeOf p).c0.toNat = i → path s.arena s.nodes.toNat s.root.toNat i
          = path s.arena s.nodes.toNat s.root.toNat p ++ [false])
        ∧ ((s.nodeOf p).c1.toNat = i → path s.arena s.nodes.toNat s.root.toNat i
          = path s.arena s.nodes.toNat s.root.toNat p ++ [true]))
    ∧ ∀ i, i < s.nodes.toNat → walk s.arena s.root.toNat (path s.arena s.nodes.toNat s.root.toNat i) = i

/-- R142 (a): no present symbol's codeword begins another's. -/
def Obligations.CodewordsArePrefixFree : Prop :=
  ∀ (s : State) (x y : Sym) (cx cy : List Bool), Inv s → s.treeValid = true → s.freqOf x ≠ 0#32 →
    s.freqOf y ≠ 0#32 → x ≠ y → codeOf s x = some cx → codeOf s y = some cy → ¬ cx <+: cy

/-- R142 (d): the codewords of the present symbols fill the code space, Σ 2^(-len) = 1, here times 2^255. -/
def Obligations.CodewordLengthsFillTheCodeSpace : Prop :=
  ∀ s : State, Inv s → s.treeValid = true →
    ((presentSyms s.freq).map fun x => 2 ^ (255 - ((codeOf s x).getD []).length)).sum = 2 ^ 255

/-! Rules of the whole machine. -/

/-- R205, R212: a command that ends in error changes ERRCODE, ERR, ERRCMD and BUSY in that step, and nothing else. -/
def Obligations.ErrorsArePrecise : Prop :=
  ∀ (i : Instr) (s t : State), s.err = false → exec i s = .next t → t.err = true →
    t.errCode ≠ .none ∧ t = { s with errCode := t.errCode, err := true, errCmd := s.curCmd, busy := false }

/-- R207: while ERR = 1 and no ERR_CLEAR is accepted, nothing but DATA and the host's own side changes. -/
def Obligations.ErrorLockKeepsTheBlock : Prop :=
  ∀ s t : State, s.err = true → s.busy = false → s.rstN = true → step s = .next t →
    ¬ hostDoes s (.writeReg 0 0x0C000000#32) → ¬ hostDoes s (.setRstN false) →
    t = { s with data := t.data, sinkMode := t.sinkMode, src := t.src, eos := t.eos, pending := t.pending,
                 reads := t.reads }

/-- R210: a CMD write while BUSY = 1 sets OVR and changes nothing else; OVR rises in no other way, and falls only by
ERR_CLEAR or reset. -/
def Obligations.OverrunIsStickyAndHarmless : Prop :=
  ∀ s t : State, step s = .next t →
    (∀ w rest, s.rstN = true → s.busy = true → s.pending = .writeReg 0 w :: rest →
      t = { s with pending := rest, ovr := true })
    ∧ (s.ovr = false → t.ovr = true → ∃ w rest, s.pending = .writeReg 0 w :: rest ∧ s.busy = true
      ∧ t = { s with pending := rest, ovr := true })
    ∧ (s.ovr = true → t.ovr = false → engineRuns s .errClear ∨ hostDoes s (.setRstN false))

/-- R26, R29, R32, R76, R106, R205: who writes RESULT, the memories, their counts, and the error record. Outside the
assertion of reset each changes only in an engine step of a command that the spec names for it; a single entry of FREQ
other than the command's symbol changes only by FT_CLEAR. -/
def Obligations.RegistersAndMemoriesAreWrittenOnlyByTheirCommands : Prop :=
  ∀ s t : State, step s = .next t → ¬ hostDoes s (.setRstN false) →
    (t.result ≠ s.result → ∃ i, engineRuns s i ∧ t.busy = false ∧ t.err = s.err
      ∧ ((∃ sym, i = .ftRead sym) ∨ (∃ node fsel, i = .nodeRead node fsel) ∨ (∃ sym, i = .lutLen sym)
        ∨ (∃ sym widx, i = .lutWord sym widx) ∨ i = .decSym))
    ∧ (t.freq ≠ s.freq ∨ t.nsym ≠ s.nsym ∨ t.total ≠ s.total → t.busy = false ∧ t.err = s.err
      ∧ (engineRuns s .ftClear ∨ ∃ sym, engineRuns s (.ftAccum sym) ∨ engineRuns s (.ftLoad sym)))
    ∧ (∀ x, s.memoriesWf = true → t.freqOf x ≠ s.freqOf x →
      engineRuns s .ftClear ∨ engineRuns s (.ftAccum x) ∨ engineRuns s (.ftLoad x))
    ∧ (t.arena ≠ s.arena → engineRuns s .treeBuild ∧ s.nsym ≠ 0#9 ∧ t.busy = false)
    ∧ (t.nodes ≠ s.nodes ∨ t.root ≠ s.root → t.busy = false ∧ t.err = s.err
      ∧ (engineRuns s .treeBuild ∨ engineRuns s .ftClear
        ∨ ∃ sym, engineRuns s (.ftAccum sym) ∨ engineRuns s (.ftLoad sym)))
    ∧ (t.lut ≠ s.lut → engineRuns s .lutDerive ∧ s.treeValid = true ∧ t.busy = false)
    ∧ (t.err ≠ s.err ∨ t.errCode ≠ s.errCode ∨ t.errCmd ≠ s.errCmd → t.busy = false
      ∧ ((engineRuns s .errClear ∧ t.err = false ∧ t.errCode = .none ∧ t.errCmd = 0#32)
        ∨ ((∃ rest, turnOf s = .engine rest) ∧ s.rstN = true ∧ s.busy = true ∧ t.err = true ∧ t.errCode ≠ .none
          ∧ t.errCmd = s.curCmd)))

/-- R24, R25, R74: only a DATA write or reset changes DATA; the step that accepts a command copies DATA into CUR_DATA; and
nothing changes CUR_CMD or CUR_DATA while a command is in flight. -/
def Obligations.DataIsLatchedAtAcceptance : Prop :=
  ∀ s t : State, step s = .next t →
    (t.data ≠ s.data → hostDoes s (.writeReg 1 t.data) ∨ hostDoes s (.setRstN false))
    ∧ (s.busy = false → t.busy = true → hostDoes s (.writeReg 0 t.curCmd) ∧ t.curData = s.data ∧ t.data = s.data)
    ∧ (s.busy = true → t.busy = true → t.curCmd = s.curCmd ∧ t.curData = s.curData)

/-- R44, R71, R241: as long as BUSY stays 1 an engine step changes nothing but the cursor and at most one bit of one
port. -/
def Obligations.UpdatesShowOnlyAsBusyFalls : Prop :=
  ∀ (i : Instr) (s t : State), s.busy = true → exec i s = .next t → t.busy = true →
    t = { s with phase := t.phase, encPos := t.encPos, decNode := t.decNode, sink := t.sink, sinkMode := t.sinkMode,
                 src := t.src }
    ∧ (t.sink = s.sink ∨ ∃ b, t.sink = s.sink ++ [b]) ∧ (t.src = s.src ∨ ∃ b, s.src = b :: t.src)
    ∧ (t.sink = s.sink ∨ t.src = s.src)

/-- R41, R251: every command but ENC_SYM and DEC_SYM ends in its first engine step, and moves no bit. -/
def Obligations.OtherCommandsEndInOneStep : Prop :=
  ∀ (i : Instr) (s : State), (∀ sym, i ≠ .encSym sym) → i ≠ .decSym →
    ∃ t, exec i s = .next t ∧ t.busy = false ∧ t.sink = s.sink ∧ t.src = s.src ∧ t.sinkMode = s.sinkMode

/-- R27: what sets and clears TREE_VALID and LUT_VALID. -/
def Obligations.ValidBitsChangeOnlyAsTheirRulesSay : Prop :=
  ∀ s t : State, step s = .next t →
    (s.treeValid = false → t.treeValid = true → engineRuns s .treeBuild ∧ s.nsym ≠ 0#9)
    ∧ (s.treeValid = true → t.treeValid = false →
        hostDoes s (.setRstN false) ∨ engineRuns s .ftClear ∨ (engineRuns s .treeBuild ∧ s.nsym = 0#9)
        ∨ (t.err = s.err ∧ ∃ sym, engineRuns s (.ftAccum sym) ∨ engineRuns s (.ftLoad sym)))
    ∧ (s.lutValid = false → t.lutValid = true → engineRuns s .lutDerive ∧ s.treeValid = true)
    ∧ (s.lutValid = true → t.lutValid = false →
        hostDoes s (.setRstN false) ∨ engineRuns s .ftClear ∨ engineRuns s .treeBuild
        ∨ (t.err = s.err ∧ ∃ sym, engineRuns s (.ftAccum sym) ∨ engineRuns s (.ftLoad sym)))

/-- R64, R65: a bit moves only over its port's handshake: out when obit_valid and the sink accepts, and it is obit_data;
in when ibit_ready and a bit is offered, and it is the next one. Both levels are 0 before the start step (log 8,
DESIGN CHOICE). -/
def Obligations.BitsMoveOnlyByTheHandshake : Prop :=
  ∀ s t : State, EngineInv s → step s = .next t →
    (t.sink = s.sink ∨ (obitValid s = true ∧ s.sinkMode.accepts = true ∧ t.sink = s.sink ++ [obitData s]))
    ∧ (t.src = s.src ∨ (ibitReady s = true ∧ ∃ b, s.src = b :: t.src)
      ∨ (∃ bits, hostDoes s (.offer bits) ∧ t.src = s.src ++ bits) ∨ (hostDoes s .withdraw ∧ t.src = []))

/-! Reset and invariants. -/

/-- R230: the values the spec gives for reset. -/
def Obligations.ResetLeavesTheValuesOfItsTable : Prop :=
  (∀ k : BitVec 4, readReg State.reset k = if k = 9 then 0x48554601#32 else 0#32)
  ∧ (∀ x : Sym, State.reset.freqOf x = 0#32)
  ∧ State.reset.busy = false ∧ obitValid State.reset = false ∧ ibitReady State.reset = false

/-- R231, R232, R234: asserting rst_n puts any block into the reset values and leaves the host's side; while rst_n = 0
nothing in the block changes; releasing it changes nothing else. That nothing at all changes while it is 0 is the model's
reading of R231 (log 20, DEDUCED); that the release is a step of its own after which the block is ready is its choice
(log 12 for the clearing time of R235, log 14 for the clock edge; DESIGN CHOICE). -/
def Obligations.ResetSignalResetsAndHoldsTheBlock : Prop :=
  ∀ (s t : State) (rest : List HostEvent), step s = .next t →
    (s.pending = .setRstN false :: rest →
      (∀ k : BitVec 4, readReg t k = if k = 9 then 0x48554601#32 else 0#32) ∧ (∀ x : Sym, t.freqOf x = 0#32)
      ∧ obitValid t = false ∧ ibitReady t = false ∧ t.rstN = false ∧ t.pending = rest
      ∧ t.sink = s.sink ∧ t.sinkMode = s.sinkMode ∧ t.src = s.src ∧ t.eos = s.eos ∧ t.reads = s.reads)
    ∧ (s.rstN = false → InResetInv s → t.rstN = false →
        t = { s with sinkMode := t.sinkMode, src := t.src, eos := t.eos, pending := t.pending, reads := t.reads })
    ∧ (s.pending = .setRstN true :: rest → t = { s with rstN := true, pending := rest })

/-- The reset state meets every invariant (R230 "The reset state satisfies every invariant"), R28 to the letter among them;
the clauses of Inv on the phase, the cursor and NODE[0], the memories' form and reset are the model's (log 7, log 8 with
log 3, log 19, log 20). -/
def Obligations.ResetStateMeetsEveryInvariant : Prop := Inv State.reset ∧ Rule28 State.reset

/-- R30, R31: NSYM and TOTAL agree with FREQ after every step, and the memories keep their canonical form (log 19). -/
def Obligations.StepKeepsCountsAndCanonicalMemories : Prop :=
  ∀ s t : State, step s = .next t → s.memoriesWf = true →
    t.memoriesWf = true ∧ (CountInv s → CountInv t)

/-- R28: its clauses hold to the letter after every turn of the engine out of reset, and every step keeps them but the
acceptance of ERR_CLEAR; after every step, host actions among them, ERR and BUSY are 1 together only while an accepted
ERR_CLEAR waits for its step (log 9, DEDUCED: R24 (c) and R181 against R28). -/
def Obligations.StepKeepsStatusInvariants : Prop :=
  ∀ s t : State, step s = .next t →
    (StatusInv s → StatusInv t
      ∧ (holdIn t = true ∨ holdOut t = true → t.busy = true) ∧ ¬ (holdIn t = true ∧ holdOut t = true)
      ∧ ((∃ rest, turnOf s = .engine rest) → s.rstN = true → Rule28 t))
    ∧ (Rule28 s → ¬ hostDoes s (.writeReg 0 0x0C000000#32) → Rule28 t)

/-- R30, R31, R32, R39, and R28 with its clause "ERR = 1 implies BUSY = 0" weakened by log 9: every step keeps Inv. Its
clauses on the phase (log 7), on the cursor before the start step and NODE[0] (log 8, log 3), on the memories' form
(log 19) and on the block in reset (log 20) are the model's. -/
def Obligations.StepKeepsEveryInvariant : Prop :=
  ∀ s t : State, step s = .next t → Inv s → Inv t

/-- 93 I2, I3, I4: what the spec leaves unspecified can never be observed. Two states that differ only there look the
same to the host, and still do after any step; so no claim about the host's view rests on the reset values the model
names (log 3, log 4, log 5). It rests on the cursor the model has before the start step, which makes HOLD_IN and HOLD_OUT 0 there (log 8, DESIGN
CHOICE). -/
def Obligations.UnspecifiedContentsAreNeverObserved : Prop :=
  ∀ a b : State, Inv a → Inv b → SameButUnreadable a b →
    viewOf a = viewOf b
    ∧ ∀ a' b', step a = .next a' → step b = .next b' → SameButUnreadable a' b'

/-- R251: when the sink accepts and end-of-stream is asserted, the command in flight ends within 256 engine steps. -/
def Obligations.CommandsEndWithin256Steps : Prop :=
  ∀ s : State, Inv s → s.rstN = true → s.busy = true → s.sinkMode = .always → s.eos = true →
    ∃ n t, n ≤ 256 ∧ engineRun n s = .next t ∧ t.busy = false
end

