-- ==== Sys2Proof/Laws/Encoding.lean ====
section
/-! SUPPORT. The fields of an encoded word, and the check an assembler line meets. -/

namespace Sys2Proof

/-- A mask distributes over a word's parts. -/
theorem or_masked (a b c : Word) : (a ||| b) &&& c = (a &&& c) ||| (b &&& c) := by
  ext j hj
  simp [Bool.and_or_distrib_right]

/-- The opcode field of a mnemonic's match word. -/
theorem fieldOpc_matchOf (m : Mnemonic) : fieldOpc (matchOf m) = BitVec.ofNat 8 (opcodeOf m) := by
  cases m <;> decide

/-- The mnemonic found from its own opcode. -/
theorem mnemonicOf_opcodeOf (m : Mnemonic) : mnemonicOf (BitVec.ofNat 8 (opcodeOf m)) = some m := by
  cases m <;> decide

/-- Different mnemonics have different opcodes. -/
theorem opcodeOf_injective {m m' : Mnemonic} (h : opcodeOf m = opcodeOf m') : m = m' := by
  cases m <;> cases m' <;> first | rfl | (exact absurd h (by decide))

/-- Every mask covers the opcode bits, so a word that spells a mnemonic has its opcode. -/
theorem fieldOpc_of_spells {w : Word} {m : Mnemonic} (h : spells w m = true) : fieldOpc w = fieldOpc (matchOf m) := by
  have hw : w &&& maskOf m = matchOf m := by simpa [spells] using h
  have hmask : fieldOpc (w &&& maskOf m) = fieldOpc w := by
    have hm : fieldOpc (maskOf m) = 0xFF#8 := by cases m <;> decide
    have hand : fieldOpc (w &&& maskOf m) = fieldOpc w &&& fieldOpc (maskOf m) := by
      simp [fieldOpc, BitVec.extractLsb'_and]
    rw [hand, hm]
    exact BitVec.and_allOnes
  rw [← hmask, hw]

/-- FSEL's two bits and back. -/
theorem FSel.ofBits_toBits (f : FSel) : FSel.ofBits f.toBits = f := by
  cases f <;> decide

/-- FSEL's name and back. -/
theorem FSel.toBits_ofBits (b : BitVec 2) : (FSel.ofBits b).toBits = b := by
  revert b
  decide

/-- An FSEL is one of four values. -/
theorem FSel.toNat_lt (f : FSel) : f.toNat < 4 := by
  cases f <;> decide

end Sys2Proof
end

