-- ==== Sys2Proof/Laws/State.lean ====
section
/-! SUPPORT. One lemma per field per update of State: what each shared update leaves and what it sets. Every later proof
cites these by simp instead of unfolding an update. -/

namespace Sys2Proof.Machine

variable (st : State)

/-! `complete` -/

@[simp] theorem complete_data : (complete st).data = st.data := rfl
@[simp] theorem complete_result : (complete st).result = st.result := rfl
@[simp] theorem complete_busy : (complete st).busy = false := rfl
@[simp] theorem complete_err : (complete st).err = st.err := rfl
@[simp] theorem complete_treeValid : (complete st).treeValid = st.treeValid := rfl
@[simp] theorem complete_lutValid : (complete st).lutValid = st.lutValid := rfl
@[simp] theorem complete_ovr : (complete st).ovr = st.ovr := rfl
@[simp] theorem complete_errCode : (complete st).errCode = st.errCode := rfl
@[simp] theorem complete_errCmd : (complete st).errCmd = st.errCmd := rfl
@[simp] theorem complete_nsym : (complete st).nsym = st.nsym := rfl
@[simp] theorem complete_total : (complete st).total = st.total := rfl
@[simp] theorem complete_nodes : (complete st).nodes = st.nodes := rfl
@[simp] theorem complete_root : (complete st).root = st.root := rfl
@[simp] theorem complete_freq : (complete st).freq = st.freq := rfl
@[simp] theorem complete_arena : (complete st).arena = st.arena := rfl
@[simp] theorem complete_lut : (complete st).lut = st.lut := rfl
@[simp] theorem complete_curCmd : (complete st).curCmd = st.curCmd := rfl
@[simp] theorem complete_curData : (complete st).curData = st.curData := rfl
@[simp] theorem complete_phase : (complete st).phase = st.phase := rfl
@[simp] theorem complete_encPos : (complete st).encPos = st.encPos := rfl
@[simp] theorem complete_decNode : (complete st).decNode = st.decNode := rfl
@[simp] theorem complete_sink : (complete st).sink = st.sink := rfl
@[simp] theorem complete_sinkMode : (complete st).sinkMode = st.sinkMode := rfl
@[simp] theorem complete_src : (complete st).src = st.src := rfl
@[simp] theorem complete_eos : (complete st).eos = st.eos := rfl
@[simp] theorem complete_rstN : (complete st).rstN = st.rstN := rfl
@[simp] theorem complete_pending : (complete st).pending = st.pending := rfl
@[simp] theorem complete_reads : (complete st).reads = st.reads := rfl

/-! `completeWith` -/

@[simp] theorem completeWith_data (v : Word) : (completeWith v st).data = st.data := rfl
@[simp] theorem completeWith_result (v : Word) : (completeWith v st).result = v := rfl
@[simp] theorem completeWith_busy (v : Word) : (completeWith v st).busy = false := rfl
@[simp] theorem completeWith_err (v : Word) : (completeWith v st).err = st.err := rfl
@[simp] theorem completeWith_treeValid (v : Word) : (completeWith v st).treeValid = st.treeValid := rfl
@[simp] theorem completeWith_lutValid (v : Word) : (completeWith v st).lutValid = st.lutValid := rfl
@[simp] theorem completeWith_ovr (v : Word) : (completeWith v st).ovr = st.ovr := rfl
@[simp] theorem completeWith_errCode (v : Word) : (completeWith v st).errCode = st.errCode := rfl
@[simp] theorem completeWith_errCmd (v : Word) : (completeWith v st).errCmd = st.errCmd := rfl
@[simp] theorem completeWith_nsym (v : Word) : (completeWith v st).nsym = st.nsym := rfl
@[simp] theorem completeWith_total (v : Word) : (completeWith v st).total = st.total := rfl
@[simp] theorem completeWith_nodes (v : Word) : (completeWith v st).nodes = st.nodes := rfl
@[simp] theorem completeWith_root (v : Word) : (completeWith v st).root = st.root := rfl
@[simp] theorem completeWith_freq (v : Word) : (completeWith v st).freq = st.freq := rfl
@[simp] theorem completeWith_arena (v : Word) : (completeWith v st).arena = st.arena := rfl
@[simp] theorem completeWith_lut (v : Word) : (completeWith v st).lut = st.lut := rfl
@[simp] theorem completeWith_curCmd (v : Word) : (completeWith v st).curCmd = st.curCmd := rfl
@[simp] theorem completeWith_curData (v : Word) : (completeWith v st).curData = st.curData := rfl
@[simp] theorem completeWith_phase (v : Word) : (completeWith v st).phase = st.phase := rfl
@[simp] theorem completeWith_encPos (v : Word) : (completeWith v st).encPos = st.encPos := rfl
@[simp] theorem completeWith_decNode (v : Word) : (completeWith v st).decNode = st.decNode := rfl
@[simp] theorem completeWith_sink (v : Word) : (completeWith v st).sink = st.sink := rfl
@[simp] theorem completeWith_sinkMode (v : Word) : (completeWith v st).sinkMode = st.sinkMode := rfl
@[simp] theorem completeWith_src (v : Word) : (completeWith v st).src = st.src := rfl
@[simp] theorem completeWith_eos (v : Word) : (completeWith v st).eos = st.eos := rfl
@[simp] theorem completeWith_rstN (v : Word) : (completeWith v st).rstN = st.rstN := rfl
@[simp] theorem completeWith_pending (v : Word) : (completeWith v st).pending = st.pending := rfl
@[simp] theorem completeWith_reads (v : Word) : (completeWith v st).reads = st.reads := rfl

/-! `raiseError` -/

@[simp] theorem raiseError_data (code : ErrCode) : (raiseError code st).data = st.data := rfl
@[simp] theorem raiseError_result (code : ErrCode) : (raiseError code st).result = st.result := rfl
@[simp] theorem raiseError_busy (code : ErrCode) : (raiseError code st).busy = false := rfl
@[simp] theorem raiseError_err (code : ErrCode) : (raiseError code st).err = true := rfl
@[simp] theorem raiseError_treeValid (code : ErrCode) : (raiseError code st).treeValid = st.treeValid := rfl
@[simp] theorem raiseError_lutValid (code : ErrCode) : (raiseError code st).lutValid = st.lutValid := rfl
@[simp] theorem raiseError_ovr (code : ErrCode) : (raiseError code st).ovr = st.ovr := rfl
@[simp] theorem raiseError_errCode (code : ErrCode) : (raiseError code st).errCode = code := rfl
@[simp] theorem raiseError_errCmd (code : ErrCode) : (raiseError code st).errCmd = st.curCmd := rfl
@[simp] theorem raiseError_nsym (code : ErrCode) : (raiseError code st).nsym = st.nsym := rfl
@[simp] theorem raiseError_total (code : ErrCode) : (raiseError code st).total = st.total := rfl
@[simp] theorem raiseError_nodes (code : ErrCode) : (raiseError code st).nodes = st.nodes := rfl
@[simp] theorem raiseError_root (code : ErrCode) : (raiseError code st).root = st.root := rfl
@[simp] theorem raiseError_freq (code : ErrCode) : (raiseError code st).freq = st.freq := rfl
@[simp] theorem raiseError_arena (code : ErrCode) : (raiseError code st).arena = st.arena := rfl
@[simp] theorem raiseError_lut (code : ErrCode) : (raiseError code st).lut = st.lut := rfl
@[simp] theorem raiseError_curCmd (code : ErrCode) : (raiseError code st).curCmd = st.curCmd := rfl
@[simp] theorem raiseError_curData (code : ErrCode) : (raiseError code st).curData = st.curData := rfl
@[simp] theorem raiseError_phase (code : ErrCode) : (raiseError code st).phase = st.phase := rfl
@[simp] theorem raiseError_encPos (code : ErrCode) : (raiseError code st).encPos = st.encPos := rfl
@[simp] theorem raiseError_decNode (code : ErrCode) : (raiseError code st).decNode = st.decNode := rfl
@[simp] theorem raiseError_sink (code : ErrCode) : (raiseError code st).sink = st.sink := rfl
@[simp] theorem raiseError_sinkMode (code : ErrCode) : (raiseError code st).sinkMode = st.sinkMode := rfl
@[simp] theorem raiseError_src (code : ErrCode) : (raiseError code st).src = st.src := rfl
@[simp] theorem raiseError_eos (code : ErrCode) : (raiseError code st).eos = st.eos := rfl
@[simp] theorem raiseError_rstN (code : ErrCode) : (raiseError code st).rstN = st.rstN := rfl
@[simp] theorem raiseError_pending (code : ErrCode) : (raiseError code st).pending = st.pending := rfl
@[simp] theorem raiseError_reads (code : ErrCode) : (raiseError code st).reads = st.reads := rfl

/-! `leaveErrorState` -/

@[simp] theorem leaveErrorState_data : (leaveErrorState st).data = st.data := rfl
@[simp] theorem leaveErrorState_result : (leaveErrorState st).result = st.result := rfl
@[simp] theorem leaveErrorState_busy : (leaveErrorState st).busy = st.busy := rfl
@[simp] theorem leaveErrorState_err : (leaveErrorState st).err = false := rfl
@[simp] theorem leaveErrorState_treeValid : (leaveErrorState st).treeValid = st.treeValid := rfl
@[simp] theorem leaveErrorState_lutValid : (leaveErrorState st).lutValid = st.lutValid := rfl
@[simp] theorem leaveErrorState_ovr : (leaveErrorState st).ovr = false := rfl
@[simp] theorem leaveErrorState_errCode : (leaveErrorState st).errCode = ErrCode.none := rfl
@[simp] theorem leaveErrorState_errCmd : (leaveErrorState st).errCmd = 0#32 := rfl
@[simp] theorem leaveErrorState_nsym : (leaveErrorState st).nsym = st.nsym := rfl
@[simp] theorem leaveErrorState_total : (leaveErrorState st).total = st.total := rfl
@[simp] theorem leaveErrorState_nodes : (leaveErrorState st).nodes = st.nodes := rfl
@[simp] theorem leaveErrorState_root : (leaveErrorState st).root = st.root := rfl
@[simp] theorem leaveErrorState_freq : (leaveErrorState st).freq = st.freq := rfl
@[simp] theorem leaveErrorState_arena : (leaveErrorState st).arena = st.arena := rfl
@[simp] theorem leaveErrorState_lut : (leaveErrorState st).lut = st.lut := rfl
@[simp] theorem leaveErrorState_curCmd : (leaveErrorState st).curCmd = st.curCmd := rfl
@[simp] theorem leaveErrorState_curData : (leaveErrorState st).curData = st.curData := rfl
@[simp] theorem leaveErrorState_phase : (leaveErrorState st).phase = st.phase := rfl
@[simp] theorem leaveErrorState_encPos : (leaveErrorState st).encPos = st.encPos := rfl
@[simp] theorem leaveErrorState_decNode : (leaveErrorState st).decNode = st.decNode := rfl
@[simp] theorem leaveErrorState_sink : (leaveErrorState st).sink = st.sink := rfl
@[simp] theorem leaveErrorState_sinkMode : (leaveErrorState st).sinkMode = st.sinkMode := rfl
@[simp] theorem leaveErrorState_src : (leaveErrorState st).src = st.src := rfl
@[simp] theorem leaveErrorState_eos : (leaveErrorState st).eos = st.eos := rfl
@[simp] theorem leaveErrorState_rstN : (leaveErrorState st).rstN = st.rstN := rfl
@[simp] theorem leaveErrorState_pending : (leaveErrorState st).pending = st.pending := rfl
@[simp] theorem leaveErrorState_reads : (leaveErrorState st).reads = st.reads := rfl

/-! `invalidate` -/

@[simp] theorem invalidate_data : (invalidate st).data = st.data := rfl
@[simp] theorem invalidate_result : (invalidate st).result = st.result := rfl
@[simp] theorem invalidate_busy : (invalidate st).busy = st.busy := rfl
@[simp] theorem invalidate_err : (invalidate st).err = st.err := rfl
@[simp] theorem invalidate_treeValid : (invalidate st).treeValid = false := rfl
@[simp] theorem invalidate_lutValid : (invalidate st).lutValid = false := rfl
@[simp] theorem invalidate_ovr : (invalidate st).ovr = st.ovr := rfl
@[simp] theorem invalidate_errCode : (invalidate st).errCode = st.errCode := rfl
@[simp] theorem invalidate_errCmd : (invalidate st).errCmd = st.errCmd := rfl
@[simp] theorem invalidate_nsym : (invalidate st).nsym = st.nsym := rfl
@[simp] theorem invalidate_total : (invalidate st).total = st.total := rfl
@[simp] theorem invalidate_nodes : (invalidate st).nodes = 0#10 := rfl
@[simp] theorem invalidate_root : (invalidate st).root = 0#9 := rfl
@[simp] theorem invalidate_freq : (invalidate st).freq = st.freq := rfl
@[simp] theorem invalidate_arena : (invalidate st).arena = st.arena := rfl
@[simp] theorem invalidate_lut : (invalidate st).lut = st.lut := rfl
@[simp] theorem invalidate_curCmd : (invalidate st).curCmd = st.curCmd := rfl
@[simp] theorem invalidate_curData : (invalidate st).curData = st.curData := rfl
@[simp] theorem invalidate_phase : (invalidate st).phase = st.phase := rfl
@[simp] theorem invalidate_encPos : (invalidate st).encPos = st.encPos := rfl
@[simp] theorem invalidate_decNode : (invalidate st).decNode = st.decNode := rfl
@[simp] theorem invalidate_sink : (invalidate st).sink = st.sink := rfl
@[simp] theorem invalidate_sinkMode : (invalidate st).sinkMode = st.sinkMode := rfl
@[simp] theorem invalidate_src : (invalidate st).src = st.src := rfl
@[simp] theorem invalidate_eos : (invalidate st).eos = st.eos := rfl
@[simp] theorem invalidate_rstN : (invalidate st).rstN = st.rstN := rfl
@[simp] theorem invalidate_pending : (invalidate st).pending = st.pending := rfl
@[simp] theorem invalidate_reads : (invalidate st).reads = st.reads := rfl

/-! `setFreq` -/

@[simp] theorem setFreq_data (s : Sym) (v : Word) : (st.setFreq s v).data = st.data := rfl
@[simp] theorem setFreq_result (s : Sym) (v : Word) : (st.setFreq s v).result = st.result := rfl
@[simp] theorem setFreq_busy (s : Sym) (v : Word) : (st.setFreq s v).busy = st.busy := rfl
@[simp] theorem setFreq_err (s : Sym) (v : Word) : (st.setFreq s v).err = st.err := rfl
@[simp] theorem setFreq_treeValid (s : Sym) (v : Word) : (st.setFreq s v).treeValid = st.treeValid := rfl
@[simp] theorem setFreq_lutValid (s : Sym) (v : Word) : (st.setFreq s v).lutValid = st.lutValid := rfl
@[simp] theorem setFreq_ovr (s : Sym) (v : Word) : (st.setFreq s v).ovr = st.ovr := rfl
@[simp] theorem setFreq_errCode (s : Sym) (v : Word) : (st.setFreq s v).errCode = st.errCode := rfl
@[simp] theorem setFreq_errCmd (s : Sym) (v : Word) : (st.setFreq s v).errCmd = st.errCmd := rfl
@[simp] theorem setFreq_nsym (s : Sym) (v : Word) : (st.setFreq s v).nsym = st.nsym := rfl
@[simp] theorem setFreq_total (s : Sym) (v : Word) : (st.setFreq s v).total = st.total := rfl
@[simp] theorem setFreq_nodes (s : Sym) (v : Word) : (st.setFreq s v).nodes = st.nodes := rfl
@[simp] theorem setFreq_root (s : Sym) (v : Word) : (st.setFreq s v).root = st.root := rfl
@[simp] theorem setFreq_freq (s : Sym) (v : Word) : (st.setFreq s v).freq = Memory.write freqDefault st.freq s.toNat v := rfl
@[simp] theorem setFreq_arena (s : Sym) (v : Word) : (st.setFreq s v).arena = st.arena := rfl
@[simp] theorem setFreq_lut (s : Sym) (v : Word) : (st.setFreq s v).lut = st.lut := rfl
@[simp] theorem setFreq_curCmd (s : Sym) (v : Word) : (st.setFreq s v).curCmd = st.curCmd := rfl
@[simp] theorem setFreq_curData (s : Sym) (v : Word) : (st.setFreq s v).curData = st.curData := rfl
@[simp] theorem setFreq_phase (s : Sym) (v : Word) : (st.setFreq s v).phase = st.phase := rfl
@[simp] theorem setFreq_encPos (s : Sym) (v : Word) : (st.setFreq s v).encPos = st.encPos := rfl
@[simp] theorem setFreq_decNode (s : Sym) (v : Word) : (st.setFreq s v).decNode = st.decNode := rfl
@[simp] theorem setFreq_sink (s : Sym) (v : Word) : (st.setFreq s v).sink = st.sink := rfl
@[simp] theorem setFreq_sinkMode (s : Sym) (v : Word) : (st.setFreq s v).sinkMode = st.sinkMode := rfl
@[simp] theorem setFreq_src (s : Sym) (v : Word) : (st.setFreq s v).src = st.src := rfl
@[simp] theorem setFreq_eos (s : Sym) (v : Word) : (st.setFreq s v).eos = st.eos := rfl
@[simp] theorem setFreq_rstN (s : Sym) (v : Word) : (st.setFreq s v).rstN = st.rstN := rfl
@[simp] theorem setFreq_pending (s : Sym) (v : Word) : (st.setFreq s v).pending = st.pending := rfl
@[simp] theorem setFreq_reads (s : Sym) (v : Word) : (st.setFreq s v).reads = st.reads := rfl

/-! `acceptCommand` -/

@[simp] theorem acceptCommand_data (w : Word) : (acceptCommand w st).data = st.data := rfl
@[simp] theorem acceptCommand_result (w : Word) : (acceptCommand w st).result = st.result := rfl
@[simp] theorem acceptCommand_busy (w : Word) : (acceptCommand w st).busy = true := rfl
@[simp] theorem acceptCommand_err (w : Word) : (acceptCommand w st).err = st.err := rfl
@[simp] theorem acceptCommand_treeValid (w : Word) : (acceptCommand w st).treeValid = st.treeValid := rfl
@[simp] theorem acceptCommand_lutValid (w : Word) : (acceptCommand w st).lutValid = st.lutValid := rfl
@[simp] theorem acceptCommand_ovr (w : Word) : (acceptCommand w st).ovr = st.ovr := rfl
@[simp] theorem acceptCommand_errCode (w : Word) : (acceptCommand w st).errCode = st.errCode := rfl
@[simp] theorem acceptCommand_errCmd (w : Word) : (acceptCommand w st).errCmd = st.errCmd := rfl
@[simp] theorem acceptCommand_nsym (w : Word) : (acceptCommand w st).nsym = st.nsym := rfl
@[simp] theorem acceptCommand_total (w : Word) : (acceptCommand w st).total = st.total := rfl
@[simp] theorem acceptCommand_nodes (w : Word) : (acceptCommand w st).nodes = st.nodes := rfl
@[simp] theorem acceptCommand_root (w : Word) : (acceptCommand w st).root = st.root := rfl
@[simp] theorem acceptCommand_freq (w : Word) : (acceptCommand w st).freq = st.freq := rfl
@[simp] theorem acceptCommand_arena (w : Word) : (acceptCommand w st).arena = st.arena := rfl
@[simp] theorem acceptCommand_lut (w : Word) : (acceptCommand w st).lut = st.lut := rfl
@[simp] theorem acceptCommand_curCmd (w : Word) : (acceptCommand w st).curCmd = w := rfl
@[simp] theorem acceptCommand_curData (w : Word) : (acceptCommand w st).curData = st.data := rfl
@[simp] theorem acceptCommand_phase (w : Word) : (acceptCommand w st).phase = Phase.start := rfl
@[simp] theorem acceptCommand_encPos (w : Word) : (acceptCommand w st).encPos = 255#8 := rfl
@[simp] theorem acceptCommand_decNode (w : Word) : (acceptCommand w st).decNode = 0#9 := rfl
@[simp] theorem acceptCommand_sink (w : Word) : (acceptCommand w st).sink = st.sink := rfl
@[simp] theorem acceptCommand_sinkMode (w : Word) : (acceptCommand w st).sinkMode = st.sinkMode := rfl
@[simp] theorem acceptCommand_src (w : Word) : (acceptCommand w st).src = st.src := rfl
@[simp] theorem acceptCommand_eos (w : Word) : (acceptCommand w st).eos = st.eos := rfl
@[simp] theorem acceptCommand_rstN (w : Word) : (acceptCommand w st).rstN = st.rstN := rfl
@[simp] theorem acceptCommand_pending (w : Word) : (acceptCommand w st).pending = st.pending := rfl
@[simp] theorem acceptCommand_reads (w : Word) : (acceptCommand w st).reads = st.reads := rfl

/-! `resetBlock` -/

@[simp] theorem resetBlock_data : (resetBlock st).data = State.reset.data := rfl
@[simp] theorem resetBlock_result : (resetBlock st).result = State.reset.result := rfl
@[simp] theorem resetBlock_busy : (resetBlock st).busy = State.reset.busy := rfl
@[simp] theorem resetBlock_err : (resetBlock st).err = State.reset.err := rfl
@[simp] theorem resetBlock_treeValid : (resetBlock st).treeValid = State.reset.treeValid := rfl
@[simp] theorem resetBlock_lutValid : (resetBlock st).lutValid = State.reset.lutValid := rfl
@[simp] theorem resetBlock_ovr : (resetBlock st).ovr = State.reset.ovr := rfl
@[simp] theorem resetBlock_errCode : (resetBlock st).errCode = State.reset.errCode := rfl
@[simp] theorem resetBlock_errCmd : (resetBlock st).errCmd = State.reset.errCmd := rfl
@[simp] theorem resetBlock_nsym : (resetBlock st).nsym = State.reset.nsym := rfl
@[simp] theorem resetBlock_total : (resetBlock st).total = State.reset.total := rfl
@[simp] theorem resetBlock_nodes : (resetBlock st).nodes = State.reset.nodes := rfl
@[simp] theorem resetBlock_root : (resetBlock st).root = State.reset.root := rfl
@[simp] theorem resetBlock_freq : (resetBlock st).freq = State.reset.freq := rfl
@[simp] theorem resetBlock_arena : (resetBlock st).arena = State.reset.arena := rfl
@[simp] theorem resetBlock_lut : (resetBlock st).lut = State.reset.lut := rfl
@[simp] theorem resetBlock_curCmd : (resetBlock st).curCmd = State.reset.curCmd := rfl
@[simp] theorem resetBlock_curData : (resetBlock st).curData = State.reset.curData := rfl
@[simp] theorem resetBlock_phase : (resetBlock st).phase = State.reset.phase := rfl
@[simp] theorem resetBlock_encPos : (resetBlock st).encPos = State.reset.encPos := rfl
@[simp] theorem resetBlock_decNode : (resetBlock st).decNode = State.reset.decNode := rfl
@[simp] theorem resetBlock_sink : (resetBlock st).sink = st.sink := rfl
@[simp] theorem resetBlock_sinkMode : (resetBlock st).sinkMode = st.sinkMode := rfl
@[simp] theorem resetBlock_src : (resetBlock st).src = st.src := rfl
@[simp] theorem resetBlock_eos : (resetBlock st).eos = st.eos := rfl
@[simp] theorem resetBlock_rstN : (resetBlock st).rstN = st.rstN := rfl
@[simp] theorem resetBlock_pending : (resetBlock st).pending = st.pending := rfl
@[simp] theorem resetBlock_reads : (resetBlock st).reads = st.reads := rfl

/-! Reads through an update that does not touch the memory read. -/

@[simp] theorem complete_freqOf (s : Sym) : (complete st).freqOf s = st.freqOf s := rfl
@[simp] theorem complete_nodeOf (i : Nat) : (complete st).nodeOf i = st.nodeOf i := rfl
@[simp] theorem complete_lutOf (s : Sym) : (complete st).lutOf s = st.lutOf s := rfl
@[simp] theorem completeWith_freqOf (v : Word) (s : Sym) : (completeWith v st).freqOf s = st.freqOf s := rfl
@[simp] theorem completeWith_nodeOf (v : Word) (i : Nat) : (completeWith v st).nodeOf i = st.nodeOf i := rfl
@[simp] theorem completeWith_lutOf (v : Word) (s : Sym) : (completeWith v st).lutOf s = st.lutOf s := rfl
@[simp] theorem raiseError_freqOf (c : ErrCode) (s : Sym) : (raiseError c st).freqOf s = st.freqOf s := rfl
@[simp] theorem raiseError_nodeOf (c : ErrCode) (i : Nat) : (raiseError c st).nodeOf i = st.nodeOf i := rfl
@[simp] theorem raiseError_lutOf (c : ErrCode) (s : Sym) : (raiseError c st).lutOf s = st.lutOf s := rfl
@[simp] theorem leaveErrorState_freqOf (s : Sym) : (leaveErrorState st).freqOf s = st.freqOf s := rfl
@[simp] theorem leaveErrorState_nodeOf (i : Nat) : (leaveErrorState st).nodeOf i = st.nodeOf i := rfl
@[simp] theorem leaveErrorState_lutOf (s : Sym) : (leaveErrorState st).lutOf s = st.lutOf s := rfl
@[simp] theorem invalidate_freqOf (s : Sym) : (invalidate st).freqOf s = st.freqOf s := rfl
@[simp] theorem invalidate_nodeOf (i : Nat) : (invalidate st).nodeOf i = st.nodeOf i := rfl
@[simp] theorem invalidate_lutOf (s : Sym) : (invalidate st).lutOf s = st.lutOf s := rfl
@[simp] theorem setFreq_nodeOf (s : Sym) (v : Word) (i : Nat) : (st.setFreq s v).nodeOf i = st.nodeOf i := rfl
@[simp] theorem setFreq_lutOf (s : Sym) (v : Word) (x : Sym) : (st.setFreq s v).lutOf x = st.lutOf x := rfl
@[simp] theorem acceptCommand_freqOf (w : Word) (s : Sym) : (acceptCommand w st).freqOf s = st.freqOf s := rfl
@[simp] theorem acceptCommand_nodeOf (w : Word) (i : Nat) : (acceptCommand w st).nodeOf i = st.nodeOf i := rfl
@[simp] theorem acceptCommand_lutOf (w : Word) (s : Sym) : (acceptCommand w st).lutOf s = st.lutOf s := rfl

end Sys2Proof.Machine
end

