-- ==== Sys2Proof/Laws/Memory.lean ====
section
/-! SUPPORT. The internal memories: a read after a write, the canonical form that every write keeps, and that two
memories in canonical form with equal reads are equal data. -/

namespace Sys2Proof.Machine

section Generic
variable {α : Type} [DecidableEq α] {d : α} {size : Nat}

/-- A canonical memory lists nothing below the index it starts at. -/
theorem Memory.read_below {m : Memory α} {lo k : Nat} (h : Memory.wfFrom d size lo m = true) (hk : k < lo) :
    Memory.read d m k = d := by
  induction m generalizing lo with
  | nil => rfl
  | cons p rest ih =>
    obtain ⟨j, v⟩ := p
    simp only [Memory.wfFrom, Bool.and_eq_true, decide_eq_true_eq] at h
    have hj : j ≠ k := by omega
    simpa [Memory.read, hj] using ih h.2 (by omega)

/-- A read at the index written gives the value written. -/
theorem Memory.read_write_same {m : Memory α} {lo k : Nat} (v : α) (h : Memory.wfFrom d size lo m = true) :
    Memory.read d (Memory.write d m k v) k = v := by
  induction m generalizing lo with
  | nil => by_cases hv : v = d <;> simp [Memory.write, Memory.read, hv]
  | cons p rest ih =>
    obtain ⟨j, u⟩ := p
    simp only [Memory.wfFrom, Bool.and_eq_true, decide_eq_true_eq] at h
    rcases Nat.lt_trichotomy j k with hlt | heq | hgt
    · have hne : j ≠ k := by omega
      simpa [Memory.write, Memory.read, hlt, hne] using ih h.2
    · subst heq
      by_cases hv : v = d
      · simpa [Memory.write, hv] using Memory.read_below h.2 (Nat.lt_succ_self j)
      · simp [Memory.write, Memory.read, hv]
    · have hne : j ≠ k := by omega
      have hnlt : ¬ j < k := by omega
      by_cases hv : v = d
      · simpa [Memory.write, Memory.read, hv, hne, hnlt] using Memory.read_below h.2 (by omega)
      · simp [Memory.write, Memory.read, hv, hne, hnlt]

/-- A write leaves every other index alone. -/
theorem Memory.read_write_other {m : Memory α} {k k' : Nat} (v : α) (hne : k' ≠ k) :
    Memory.read d (Memory.write d m k v) k' = Memory.read d m k' := by
  induction m with
  | nil => by_cases hv : v = d <;> simp [Memory.write, Memory.read, hv, hne.symm]
  | cons p rest ih =>
    obtain ⟨j, u⟩ := p
    by_cases hlt : j < k
    · by_cases hj : j = k'
      · subst hj
        simp [Memory.write, Memory.read, hlt]
      · simp [Memory.write, Memory.read, hlt, hj, ih]
    · by_cases heq : j = k
      · subst heq
        by_cases hv : v = d <;> simp [Memory.write, Memory.read, hv, hne.symm]
      · by_cases hv : v = d <;> simp [Memory.write, Memory.read, hlt, heq, hv, hne.symm]

/-- A write inside the memory keeps the canonical form. -/
theorem Memory.wfFrom_write {m : Memory α} {lo k : Nat} (v : α) (h : Memory.wfFrom d size lo m = true)
    (hlo : lo ≤ k) (hk : k < size) : Memory.wfFrom d size lo (Memory.write d m k v) = true := by
  induction m generalizing lo with
  | nil => by_cases hv : v = d <;> simp [Memory.write, Memory.wfFrom, hv, hlo, hk]
  | cons p rest ih =>
    obtain ⟨j, u⟩ := p
    simp only [Memory.wfFrom, Bool.and_eq_true, decide_eq_true_eq] at h
    obtain ⟨⟨⟨h1, h2⟩, h3⟩, h4⟩ := h
    have weaken : ∀ {lo'}, lo' ≤ j + 1 → Memory.wfFrom d size lo' rest = true := by
      intro lo' hle
      cases rest with
      | nil => rfl
      | cons q r =>
        simp only [Memory.wfFrom, Bool.and_eq_true, decide_eq_true_eq] at h4 ⊢
        exact ⟨⟨⟨by omega, h4.1.1.2⟩, h4.1.2⟩, h4.2⟩
    rcases Nat.lt_trichotomy j k with hlt | heq | hgt
    · simp [Memory.write, Memory.wfFrom, hlt, h1, h2, h3, ih h4 hlt]
    · subst heq
      by_cases hv : v = d
      · simpa [Memory.write, hv] using weaken (by omega)
      · simp [Memory.write, Memory.wfFrom, hv, h1, h2, h4]
    · have hne : j ≠ k := by omega
      have hnlt : ¬ j < k := by omega
      by_cases hv : v = d
      · simp [Memory.write, Memory.wfFrom, hv, hne, hnlt, h1, h2, h3, h4]
      · have hle : k + 1 ≤ j := hgt
        simp [Memory.write, Memory.wfFrom, hv, hne, hnlt, h2, h3, h4, hlo, hk, hle]

/-- `wfFrom_write` for a whole memory. -/
theorem Memory.wf_write {m : Memory α} {k : Nat} (v : α) (h : Memory.wf d size m = true) (hk : k < size) :
    Memory.wf d size (Memory.write d m k v) = true :=
  Memory.wfFrom_write v h (Nat.zero_le k) hk

/-- An index past the size of a canonical memory reads the unlisted value. -/
theorem Memory.read_past {m : Memory α} {lo k : Nat} (h : Memory.wfFrom d size lo m = true) (hk : size ≤ k) :
    Memory.read d m k = d := by
  induction m generalizing lo with
  | nil => rfl
  | cons p rest ih =>
    obtain ⟨j, v⟩ := p
    simp only [Memory.wfFrom, Bool.and_eq_true, decide_eq_true_eq] at h
    have hj : j ≠ k := by omega
    simpa [Memory.read, hj] using ih h.2

/-- Canonical memories with equal reads are equal data. -/
theorem Memory.ext_of_reads {m m' : Memory α} {lo : Nat} (h : Memory.wfFrom d size lo m = true)
    (h' : Memory.wfFrom d size lo m' = true) (hr : ∀ k, Memory.read d m k = Memory.read d m' k) : m = m' := by
  induction m generalizing lo m' with
  | nil =>
    cases m' with
    | nil => rfl
    | cons p rest =>
      obtain ⟨j, v⟩ := p
      have := hr j
      simp only [Memory.wfFrom, Bool.and_eq_true, decide_eq_true_eq] at h'
      simp [Memory.read] at this
      exact absurd this.symm h'.1.2
  | cons p rest ih =>
    obtain ⟨j, v⟩ := p
    have hw := h
    simp only [Memory.wfFrom, Bool.and_eq_true, decide_eq_true_eq] at h
    cases m' with
    | nil =>
      have := hr j
      simp [Memory.read] at this
      exact absurd this h.1.2
    | cons p' rest' =>
      obtain ⟨j', v'⟩ := p'
      have hw' := h'
      simp only [Memory.wfFrom, Bool.and_eq_true, decide_eq_true_eq] at h'
      have hjj : j = j' := by
        rcases Nat.lt_trichotomy j j' with hlt | heq | hgt
        · have e := hr j
          have hne : j' ≠ j := by omega
          rw [show Memory.read d ((j', v') :: rest') j = d from by
            simpa [Memory.read, hne] using Memory.read_below h'.2 (by omega)] at e
          simp [Memory.read] at e
          exact absurd e h.1.2
        · exact heq
        · have e := hr j'
          have hne : j ≠ j' := by omega
          rw [show Memory.read d ((j, v) :: rest) j' = d from by
            simpa [Memory.read, hne] using Memory.read_below h.2 (by omega)] at e
          simp [Memory.read] at e
          exact absurd e.symm h'.1.2
      subst hjj
      have hvv : v = v' := by simpa [Memory.read] using hr j
      subst hvv
      have hrest : rest = rest' := by
        refine ih h.2 h'.2 fun k => ?_
        by_cases hk : j = k
        · subst hk
          rw [Memory.read_below h.2 (Nat.lt_succ_self j), Memory.read_below h'.2 (Nat.lt_succ_self j)]
        · simpa [Memory.read, hk] using hr k
      rw [hrest]

end Generic

/-! The three memories of the block. -/

/-- FREQ is one of the canonical memories. -/
theorem memoriesWf_iff (st : State) : st.memoriesWf = true ↔
    Memory.wf freqDefault Config.nSymbols st.freq = true ∧ Memory.wf nodeDefault Config.maxNodes st.arena = true
      ∧ Memory.wf lutDefault Config.nSymbols st.lut = true := by
  simp [State.memoriesWf, and_assoc]

/-- FREQ[s] after `FREQ[s] <- v`. -/
theorem setFreq_freqOf_same {st : State} (s : Sym) (v : Word)
    (h : Memory.wf freqDefault Config.nSymbols st.freq = true) : (st.setFreq s v).freqOf s = v :=
  Memory.read_write_same v h

/-- The other entries after `FREQ[s] <- v`. -/
theorem setFreq_freqOf_other (st : State) {s x : Sym} (v : Word) (hne : x ≠ s) :
    (st.setFreq s v).freqOf x = st.freqOf x :=
  Memory.read_write_other v fun e => hne (BitVec.eq_of_toNat_eq e)

/-- `FREQ[s] <- v` keeps the canonical form. -/
theorem setFreq_wf {st : State} (s : Sym) (v : Word) (h : Memory.wf freqDefault Config.nSymbols st.freq = true) :
    Memory.wf freqDefault Config.nSymbols (st.setFreq s v).freq = true :=
  Memory.wf_write v h s.isLt

/-- An arena entry outside the run written. -/
theorem nodeAt_writeNodes_outside (ns : List Node) (m : Memory Node) (lo i : Nat)
    (h : i < lo ∨ lo + ns.length ≤ i) : nodeAt (writeNodes m lo ns) i = nodeAt m i := by
  induction ns generalizing m lo with
  | nil => rfl
  | cons n rest ih =>
    simp only [List.length_cons] at h
    rw [writeNodes, ih _ _ (by omega)]
    exact Memory.read_write_other n (by omega)

/-- Writing a run of nodes inside the arena keeps its canonical form. -/
theorem writeNodes_wf (ns : List Node) (m : Memory Node) (lo : Nat)
    (h : Memory.wf nodeDefault Config.maxNodes m = true) (hlen : lo + ns.length ≤ Config.maxNodes) :
    Memory.wf nodeDefault Config.maxNodes (writeNodes m lo ns) = true := by
  induction ns generalizing m lo with
  | nil => exact h
  | cons n rest ih =>
    simp only [List.length_cons] at hlen
    exact ih _ _ (Memory.wf_write n h (by omega)) (by omega)

/-- The entry at place `k` of the run written is the run's `k`-th node. -/
theorem nodeAt_writeNodes_inside (ns : List Node) (m : Memory Node) (lo k : Nat)
    (h : Memory.wf nodeDefault Config.maxNodes m = true) (hlen : lo + ns.length ≤ Config.maxNodes)
    (hk : k < ns.length) : nodeAt (writeNodes m lo ns) (lo + k) = ns[k] := by
  induction ns generalizing m lo k with
  | nil => exact absurd hk (Nat.not_lt_zero k)
  | cons n rest ih =>
    simp only [List.length_cons] at hlen hk
    cases k with
    | zero =>
      rw [writeNodes, nodeAt_writeNodes_outside rest _ _ _ (by omega)]
      exact Memory.read_write_same n h
    | succ k =>
      have := ih (Memory.write nodeDefault m lo n) (lo + 1) k (Memory.wf_write n h (by omega)) (by omega) (by omega)
      simpa [writeNodes, Nat.add_assoc, Nat.add_comm 1 k] using this

/-- LUT[s] after `LUT[s] <- e`. -/
theorem read_writeLut_same {m : Memory LutEntry} (s : Sym) (e : LutEntry)
    (h : Memory.wf lutDefault Config.nSymbols m = true) : Memory.read lutDefault (writeLut m s e) s.toNat = e :=
  Memory.read_write_same e h

/-- The other entries after `LUT[s] <- e`. -/
theorem read_writeLut_other (m : Memory LutEntry) {s x : Sym} (e : LutEntry) (hne : x ≠ s) :
    Memory.read lutDefault (writeLut m s e) x.toNat = Memory.read lutDefault m x.toNat :=
  Memory.read_write_other e fun h => hne (BitVec.eq_of_toNat_eq h)

/-- `LUT[s] <- e` keeps the canonical form. -/
theorem writeLut_wf {m : Memory LutEntry} (s : Sym) (e : LutEntry)
    (h : Memory.wf lutDefault Config.nSymbols m = true) :
    Memory.wf lutDefault Config.nSymbols (writeLut m s e) = true :=
  Memory.wf_write e h s.isLt

/-- LUT_DERIVE's loop keeps the canonical form. -/
theorem deriveLut_wf (arena : Memory Node) (nodes root : Nat) {lut : Memory LutEntry}
    (h : Memory.wf lutDefault Config.nSymbols lut = true) :
    Memory.wf lutDefault Config.nSymbols (deriveLut arena nodes root lut) = true := by
  unfold deriveLut
  induction List.range nodes generalizing lut with
  | nil => exact h
  | cons i rest ih =>
    refine ih ?_
    unfold deriveNode
    split
    · exact writeLut_wf _ _ h
    · exact h

end Sys2Proof.Machine
end

