-- ==== Sys2Proof/Laws/Ops.lean ====
section
/-! SUPPORT. What each shared operation can do, said once: the two port transfers, the codeword check, the parts of
ENC_SYM and DEC_SYM, the merge of the tree builder, the host's actions, and one step. -/

namespace Sys2Proof.Machine

/-! Ports. -/

/-- A bit is emitted exactly when the sink accepts, and only the sink's side changes. -/
theorem emitBit_eq_some {b : Bool} {st t : State} : emitBit b st = some t ↔
    st.sinkMode.accepts = true ∧ t = { st with sink := st.sink ++ [b], sinkMode := st.sinkMode.afterTransfer } := by
  unfold emitBit
  split <;> rename_i h
  · exact ⟨fun e => ⟨h, (Option.some.inj e).symm⟩, fun e => congrArg some e.2.symm⟩
  · exact ⟨fun e => (nomatch e), fun e => absurd e.1 h⟩

/-- No bit is emitted exactly when the sink does not accept. -/
theorem emitBit_eq_none {b : Bool} {st : State} : emitBit b st = none ↔ st.sinkMode.accepts = false := by
  unfold emitBit
  split <;> simp_all

/-- The three answers of TakeBit. -/
theorem takeBit_cases (st : State) :
    (∃ b rest, st.src = b :: rest ∧ takeBit st = .bit b rest) ∨ (st.src = [] ∧ st.eos = true ∧ takeBit st = .eos)
      ∨ (st.src = [] ∧ st.eos = false ∧ takeBit st = .hold) := by
  unfold takeBit
  cases st.src with
  | nil => cases st.eos <;> simp
  | cons b rest => simp

/-! The codeword check. -/

/-- NO_LUT first, then SYM_ABSENT, then none. -/
theorem codewordError_cases (st : State) (sym : Sym) :
    (st.lutValid = false ∧ codewordError st sym = some .noLut)
      ∨ (st.lutValid = true ∧ st.freqOf sym = 0#32 ∧ codewordError st sym = some .symAbsent)
      ∨ (st.lutValid = true ∧ st.freqOf sym ≠ 0#32 ∧ codewordError st sym = none) := by
  unfold codewordError
  cases hv : st.lutValid <;> by_cases hf : st.freqOf sym = 0#32 <;> simp [hf]

/-- The check passes. -/
theorem codewordError_none {st : State} {sym : Sym} (hv : st.lutValid = true) (hf : st.freqOf sym ≠ 0#32) :
    codewordError st sym = none := by
  simp [codewordError, hv, hf]

/-! The steps of ENC_SYM and DEC_SYM. -/

/-- ENC_SYM's start step raises, ends at once on an empty codeword, or goes on. -/
theorem encStart_cases (sym : Sym) (st : State) :
    (∃ code, codewordError st sym = some code ∧ encStart sym st = raiseError code st)
      ∨ (codewordError st sym = none ∧ (st.lutOf sym).len = 0#8 ∧ encStart sym st = complete { st with encPos := 0#8 })
      ∨ (codewordError st sym = none ∧ (st.lutOf sym).len ≠ 0#8
          ∧ encStart sym st = { st with encPos := 0#8, phase := .running }) := by
  unfold encStart
  cases hc : codewordError st sym with
  | some code => exact .inl ⟨code, rfl, rfl⟩
  | none => by_cases hl : (st.lutOf sym).len = 0#8 <;> simp [hl]

/-- An emit step holds, emits the last bit and ends, or emits a bit and goes on. -/
theorem encEmit_cases (sym : Sym) (st : State) :
    (st.sinkMode.accepts = false ∧ encEmit sym st = st)
      ∨ (st.sinkMode.accepts = true ∧ ∃ t,
          t = { st with sink := st.sink ++ [(st.lutOf sym).code.getD st.encPos.toNat false],
                        sinkMode := st.sinkMode.afterTransfer, encPos := st.encPos + 1#8 }
          ∧ ((st.encPos + 1#8 = (st.lutOf sym).len ∧ encEmit sym st = complete t)
            ∨ (st.encPos + 1#8 ≠ (st.lutOf sym).len ∧ encEmit sym st = t))) := by
  unfold encEmit emitBit
  cases ha : st.sinkMode.accepts
  · simp
  · refine .inr ⟨rfl, _, rfl, ?_⟩
    by_cases hl : st.encPos + 1#8 = (st.lutOf sym).len
    · exact .inl ⟨hl, by simp [hl]⟩
    · exact .inr ⟨hl, by simp [hl]⟩

/-- DEC_SYM arrives at a leaf and ends, or at an internal node and goes on. -/
theorem decArrive_cases (i : NodeIdx) (st : State) :
    ((st.nodeOf i.toNat).leaf = true
        ∧ decArrive i st = completeWith (zext32 (st.nodeOf i.toNat).sym) { st with decNode := i })
      ∨ ((st.nodeOf i.toNat).leaf = false ∧ decArrive i st = { st with decNode := i, phase := .running }) := by
  unfold decArrive
  cases hl : (st.nodeOf i.toNat).leaf <;> simp

/-- A bit step takes a bit and moves, raises TRUNCATED, or holds. -/
theorem decBit_cases (st : State) :
    (∃ b rest, st.src = b :: rest
        ∧ decBit st = decArrive (childOf (st.nodeOf st.decNode.toNat) b) { st with src := rest })
      ∨ (st.src = [] ∧ st.eos = true ∧ decBit st = raiseError .truncated st)
      ∨ (st.src = [] ∧ st.eos = false ∧ decBit st = st) := by
  rcases takeBit_cases st with ⟨b, rest, hs, ht⟩ | ⟨hs, he, ht⟩ | ⟨hs, he, ht⟩
  · exact .inl ⟨b, rest, hs, by simp [decBit, ht]⟩
  · exact .inr (.inl ⟨hs, he, by simp [decBit, ht]⟩)
  · exact .inr (.inr ⟨hs, he, by simp [decBit, ht]⟩)

/-! The tree builder. -/

/-- The least key is in the queue. -/
theorem leastKey_mem (k : Key) (ks : List Key) : leastKey k ks ∈ k :: ks := by
  induction ks generalizing k with
  | nil => simp [leastKey]
  | cons k' rest ih =>
    rw [leastKey]
    have hm := ih (if k'.before k then k' else k)
    simp only [List.mem_cons] at hm ⊢
    split at hm
    · rw [if_pos ‹_›]; tauto
    · rw [if_neg ‹_›]; tauto

/-- A queue that is not empty gives up one element. -/
theorem takeLeast_length {q rest : List Key} {a : Key} (h : takeLeast q = some (a, rest)) :
    rest.length + 1 = q.length := by
  cases q with
  | nil => simp [takeLeast] at h
  | cons k ks =>
    simp only [takeLeast, Option.some.injEq, Prod.mk.injEq] at h
    obtain ⟨rfl, rfl⟩ := h
    rw [List.length_erase_of_mem (leastKey_mem k ks)]
    simp

/-- What is taken and what is left are the queue. -/
theorem takeLeast_perm {q rest : List Key} {a : Key} (h : takeLeast q = some (a, rest)) : q.Perm (a :: rest) := by
  cases q with
  | nil => simp [takeLeast] at h
  | cons k ks =>
    simp only [takeLeast, Option.some.injEq, Prod.mk.injEq] at h
    obtain ⟨rfl, rfl⟩ := h
    exact List.perm_cons_erase (leastKey_mem k ks)

/-- A turn of the loop leaves the build alone, or joins the two least keys. -/
theorem mergeOnce_cases (b : Build) :
    (b.queue.length ≤ 1 ∧ mergeOnce b = b)
      ∨ ∃ first q1 second q2, takeLeast b.queue = some (first, q1) ∧ takeLeast q1 = some (second, q2)
          ∧ mergeOnce b = { nodes := b.nodes ++ [joinNode first second]
                            queue := q2 ++ [{ w := first.w + second.w, idx := b.nodes.length }] } := by
  unfold mergeOnce
  cases h1 : takeLeast b.queue with
  | none =>
    cases hq : b.queue with
    | nil => simp
    | cons k ks => simp [hq, takeLeast] at h1
  | some p =>
    obtain ⟨first, q1⟩ := p
    cases h2 : takeLeast q1 with
    | none =>
      have := takeLeast_length h1
      cases q1 with
      | nil => exact .inl ⟨by simp at this; omega, by simp [h2]⟩
      | cons k ks => simp [takeLeast] at h2
    | some p2 =>
      obtain ⟨second, q2⟩ := p2
      exact .inr ⟨first, q1, second, q2, rfl, h2, by simp [h2]⟩

/-! The host. -/

/-- The three outcomes of a CMD write (R24). -/
theorem writeCmd_cases (w : Word) (st : State) :
    (st.busy = true ∧ writeCmd w st = { st with ovr := true })
      ∨ (st.busy = false ∧ st.err = true ∧ w ≠ Config.errClearWord ∧ writeCmd w st = st)
      ∨ (st.busy = false ∧ (st.err = false ∨ w = Config.errClearWord) ∧ writeCmd w st = acceptCommand w st) := by
  unfold writeCmd
  cases hb : st.busy <;> cases he : st.err <;> by_cases hw : w = Config.errClearWord <;> simp [hw]

/-- `ACCEPT n` leaves a sink that accepts n more bits than it still would, none being counted for one that always did. -/
@[simp] theorem addRoom_always (n : Nat) : SinkMode.always.addRoom n = .limited n := rfl

@[simp] theorem addRoom_limited (room n : Nat) : (SinkMode.limited room).addRoom n = .limited (room + n) := rfl

/-- A hold means a command is in flight (10_state R28). -/
theorem hold_busy {st : State} (h : holdIn st = true ∨ holdOut st = true) : st.busy = true := by
  cases hb : st.busy with
  | true => rfl
  | false => simp [holdIn, holdOut, ibitReady, obitValid, State.decoding, State.encoding, hb] at h

/-- The decoder and the encoder are never held together (10_state R28): one word is in flight. -/
theorem not_hold_both (st : State) : ¬ (holdIn st = true ∧ holdOut st = true) := by
  rintro ⟨hi, ho⟩
  have hd : decode st.curCmd = some .decSym := by
    simp [holdIn, ibitReady, State.decoding] at hi
    exact hi.1.1.1.2
  simp [holdOut, obitValid, State.encoding, hd] at ho

/-- Where ERR and BUSY are not both 1, what host actions keep of R28 is R28. -/
theorem StatusInv.rule28 {st : State} (h : StatusInv st) (hi : st.err = true → st.busy = false) : Rule28 st :=
  ⟨h.lut_tree, h.ok_code, hi, hold_busy, not_hold_both st⟩

/-- What R24 (c) writes and no more, in a state with ERR = 1, is outside R28: BUSY rises, ERR is not among what it writes
(log 9). -/
theorem accepted_in_error_not_rule28 {st t : State} (he : st.err = true) (hb : t.busy = true) (hs : t.err = st.err) :
    ¬ Rule28 t := by
  intro h
  have := h.err_idle (hs.trans he)
  simp [hb] at this

/-- Whose turn it is. -/
theorem turnOf_cases (st : State) :
    (st.pending = [] ∧ turnOf st = .engine [])
      ∨ (∃ rest, st.pending = .yield :: rest ∧ turnOf st = .engine rest)
      ∨ (∃ rest, st.pending = .wait :: rest ∧ st.busy = true ∧ turnOf st = .engine (.wait :: rest))
      ∨ (∃ e rest, st.pending = e :: rest ∧ e ≠ .yield ∧ (e = .wait → st.busy = false) ∧ turnOf st = .host e rest) := by
  cases hp : st.pending with
  | nil => simp [turnOf, hp]
  | cons e rest => cases e <;> cases hb : st.busy <;> simp [turnOf, hp, hb]

/-- A step is a host action or the engine's turn. -/
theorem step_cases {st t : State} (h : step st = .next t) :
    (∃ e rest, turnOf st = .host e rest ∧ t = applyHostEvent e { st with pending := rest })
      ∨ (∃ rest, turnOf st = .engine rest ∧ engineStep { st with pending := rest } = .next t) := by
  unfold step at h
  cases ht : turnOf st with
  | host e rest =>
    rw [ht] at h
    exact .inl ⟨e, rest, rfl, by simpa [eq_comm] using h⟩
  | engine rest =>
    rw [ht] at h
    exact .inr ⟨rest, rfl, h⟩

/-- The engine's turn: nothing in reset or while idle, ILLEGAL, or the command's step. -/
theorem engineStep_cases {st t : State} (h : engineStep st = .next t) :
    ((st.rstN = false ∨ st.busy = false) ∧ t = st)
      ∨ (st.rstN = true ∧ st.busy = true ∧ decode st.curCmd = none ∧ t = raiseError .illegal st)
      ∨ (st.rstN = true ∧ st.busy = true ∧ ∃ i, decode st.curCmd = some i ∧ exec i st = .next t) := by
  unfold engineStep runCommand at h
  cases hr : st.rstN <;> cases hb : st.busy <;> simp [hr, hb] at h <;> try exact .inl ⟨by simp, h.symm⟩
  cases hd : decode st.curCmd with
  | none => exact .inr (.inl ⟨rfl, rfl, rfl, by simpa [hd, eq_comm] using h⟩)
  | some i => exact .inr (.inr ⟨rfl, rfl, i, rfl, by simpa [hd] using h⟩)

end Sys2Proof.Machine
end

