-- ==== Sys2Proof/Laws/PerInstr.lean ====
section
/-! SUPPORT. Statements about every command as syntax, one lemma per constructor: each is well formed (30_encoding R95),
and each command's word spells its own mnemonic (R84). -/

namespace Sys2Proof.Laws

/-- A command's operands fit their fields. -/
def WellFormed.Statement (i : Instr) : Prop := i.wellFormed = true

namespace WellFormed

/-- A line of one operand within its field's range. -/
theorem one {m : Mnemonic} {f : Field} {a : Nat} (hm : m.format.operandFields = [f]) (ha : a < f.size) :
    AsmLine.wellFormed { mnemonic := m, operands := [a] } = true := by
  simp [AsmLine.wellFormed, AsmLine.arityOk, AsmLine.rangesOk, hm, ha]

/-- A line of two operands within their fields' ranges. -/
theorem two {m : Mnemonic} {f g : Field} {a b : Nat} (hm : m.format.operandFields = [f, g]) (ha : a < f.size)
    (hb : b < g.size) : AsmLine.wellFormed { mnemonic := m, operands := [a, b] } = true := by
  simp [AsmLine.wellFormed, AsmLine.arityOk, AsmLine.rangesOk, hm, ha, hb]

theorem nop : Statement .nop := rfl
theorem ftClear : Statement .ftClear := rfl
theorem ftAccum (sym : Sym) : Statement (.ftAccum sym) := one (f := .sym) rfl sym.isLt
theorem ftLoad (sym : Sym) : Statement (.ftLoad sym) := one (f := .sym) rfl sym.isLt
theorem ftRead (sym : Sym) : Statement (.ftRead sym) := one (f := .sym) rfl sym.isLt
theorem treeBuild : Statement .treeBuild := rfl
theorem nodeRead (node : NodeIdx) (fsel : FSel) : Statement (.nodeRead node fsel) :=
  two (f := .node) (g := .fsel) rfl node.isLt fsel.toNat_lt
theorem lutDerive : Statement .lutDerive := rfl
theorem lutLen (sym : Sym) : Statement (.lutLen sym) := one (f := .sym) rfl sym.isLt
theorem lutWord (sym : Sym) (widx : BitVec 3) : Statement (.lutWord sym widx) :=
  two (f := .sym) (g := .widx) rfl sym.isLt widx.isLt
theorem encSym (sym : Sym) : Statement (.encSym sym) := one (f := .sym) rfl sym.isLt
theorem decSym : Statement .decSym := rfl
theorem errClear : Statement .errClear := rfl

end WellFormed

/-- A command's word spells its mnemonic. -/
def Spells.Statement (i : Instr) : Prop := spells (encode i) i.mnemonic = true

namespace Spells

/-- A symbol reaches no bit of a format S mask. -/
theorem sym_masked (sym : Sym) : zext32 sym &&& 0xFFFFFF00#32 = 0#32 := by
  revert sym
  decide

/-- A format S word under its mask is its match word. -/
theorem of_sym {m : Mnemonic} (hm : m.format = .s) (sym : Sym) : spells (matchOf m ||| zext32 sym) m = true := by
  have hmatch : matchOf m &&& 0xFFFFFF00#32 = matchOf m := by
    cases m <;> decide
  simp [spells, maskOf, hm, or_masked, hmatch, sym_masked]

theorem nop : Statement .nop := rfl
theorem ftClear : Statement .ftClear := rfl
theorem ftAccum (sym : Sym) : Statement (.ftAccum sym) := of_sym rfl sym
theorem ftLoad (sym : Sym) : Statement (.ftLoad sym) := of_sym rfl sym
theorem ftRead (sym : Sym) : Statement (.ftRead sym) := of_sym rfl sym
theorem treeBuild : Statement .treeBuild := rfl
theorem nodeRead (node : NodeIdx) (fsel : FSel) : Statement (.nodeRead node fsel) := by
  have h1 : zext32 node &&& 0xFFFFCE00#32 = 0#32 := by
    revert node
    decide
  have h2 : zext32 fsel.toBits <<< 12 &&& 0xFFFFCE00#32 = 0#32 := by
    cases fsel <;> decide
  simp [Statement, spells, Instr.mnemonic, maskOf, Mnemonic.format, matchOf, encode, or_masked, h1, h2]
theorem lutDerive : Statement .lutDerive := rfl
theorem lutLen (sym : Sym) : Statement (.lutLen sym) := of_sym rfl sym
theorem lutWord (sym : Sym) (widx : BitVec 3) : Statement (.lutWord sym widx) := by
  have h1 : zext32 sym &&& 0xFFFFF800#32 = 0#32 := by
    revert sym
    decide
  have h2 : zext32 widx <<< 8 &&& 0xFFFFF800#32 = 0#32 := by
    revert widx
    decide
  simp [Statement, spells, Instr.mnemonic, maskOf, Mnemonic.format, matchOf, encode, or_masked, h1, h2]
theorem encSym (sym : Sym) : Statement (.encSym sym) := of_sym rfl sym
theorem decSym : Statement .decSym := rfl
theorem errClear : Statement .errClear := rfl

end Spells

end Sys2Proof.Laws
end

