-- ==== Sys2Proof/Machine/Assembler.lean ====
section
/-! DEFINITION. The assembler's text (00_scope R13, 30_encoding R95, R96): one line of a program, read as the host actions
it stands for, none where it is an assembly error. A bare command line means `DO` of it (R96). -/

namespace Sys2Proof.Machine

/-- The quotes of R95's `'a'` and of R96's `"str"`. -/
def charQuote : Char := Char.ofNat 0x27
def stringQuote : Char := Char.ofNat 0x22

/-- The text without spaces at either end, which mean nothing there (DESIGN CHOICE, log 26). -/
def trimSpaces (t : List Char) : List Char :=
  ((t.dropWhile (· == ' ')).reverse.dropWhile (· == ' ')).reverse

/-- A line's first word and the text after it. -/
def splitKeyword (t : List Char) : List Char × List Char :=
  ((trimSpaces t).takeWhile (· != ' '), trimSpaces ((trimSpaces t).dropWhile (· != ' ')))

/-- Cut at the commas, but not inside a quoted character: after an opening quote, `held` counts the two characters that
are taken as they are. `cur` is the operand being read, last character first. -/
def splitCommas (held : Nat) (cur : List Char) (t : List Char) : List (List Char) :=
  match t with
  | [] => [trimSpaces cur.reverse]
  | a :: rest =>
    match held with
    | n + 1 => splitCommas n (a :: cur) rest
    | 0 =>
      if a = ',' then trimSpaces cur.reverse :: splitCommas 0 [] rest
      else splitCommas (if a = charQuote then 2 else 0) (a :: cur) rest

/-- The operands after a line's first word. -/
def operandTokens (t : List Char) : List (List Char) :=
  if trimSpaces t = [] then [] else splitCommas 0 [] t

/-- The value of a digit; hexadecimal digits may be of either case (DESIGN CHOICE, log 26). -/
def digitOf (c : Char) : Option Nat :=
  if '0'.toNat ≤ c.toNat ∧ c.toNat ≤ '9'.toNat then some (c.toNat - '0'.toNat)
  else if 'a'.toNat ≤ c.toNat ∧ c.toNat ≤ 'f'.toNat then some (c.toNat - 'a'.toNat + 10)
  else if 'A'.toNat ≤ c.toNat ∧ c.toNat ≤ 'F'.toNat then some (c.toNat - 'A'.toNat + 10)
  else none

/-- Digits of a base, most significant first, after the value `acc`. -/
def digitsFrom (base acc : Nat) (t : List Char) : Option Nat :=
  match t with
  | [] => some acc
  | c :: rest =>
    match digitOf c with
    | some d => if d < base then digitsFrom base (base * acc + d) rest else none
    | none => none

/-- The byte of an ASCII character (R10 "the byte value of an ASCII character", R95 "its byte value"). The spec gives no
byte for any other character: DESIGN CHOICE, one is an assembly error (log 24). -/
def byteOf (c : Char) : Option Sym := if c.toNat < 128 then some (BitVec.ofNat 8 c.toNat) else none

/-- R95: "numbers decimal or `0x` hexadecimal or a quoted character". -/
def numberOf (t : List Char) : Option Nat :=
  match t with
  | [] => none
  | '0' :: 'x' :: [] => none
  | '0' :: 'x' :: ds => digitsFrom 16 0 ds
  | [a, b, c] => if a = charQuote ∧ c = charQuote then (byteOf b).map (·.toNat) else digitsFrom 10 0 t
  | ds => digitsFrom 10 0 ds

/-- The value of `WR <reg>, v` or `FT_SET s, v`. R95 gives a range to a command's fields alone: DESIGN CHOICE, a value of
2^32 or more is an assembly error, not cut to 32 bits (log 26). -/
def wordOf (t : List Char) : Option Word :=
  match numberOf t with
  | some n => if n < 2 ^ 32 then some (BitVec.ofNat 32 n) else none
  | none => none

/-- What a name stands for in a table. -/
def lookupName {α : Type} (table : List (String × α)) (t : List Char) : Option α :=
  (table.find? fun p => p.1.toList == t).map (·.2)

/-- The mnemonics, "in upper case exactly as in rule R84" (R95). -/
def mnemonicNames : List (String × Mnemonic) :=
  [("NOP", .nop), ("FT_CLEAR", .ftClear), ("FT_ACCUM", .ftAccum), ("FT_LOAD", .ftLoad), ("FT_READ", .ftRead),
   ("TREE_BUILD", .treeBuild), ("NODE_READ", .nodeRead), ("LUT_DERIVE", .lutDerive), ("LUT_LEN", .lutLen),
   ("LUT_WORD", .lutWord), ("ENC_SYM", .encSym), ("DEC_SYM", .decSym), ("ERR_CLEAR", .errClear)]

/-- FSEL "is one of `WEIGHT`, `INFO`, `CHILD0`, `CHILD1` or 0..3" (R95). -/
def fselNames : List (String × Nat) := [("WEIGHT", 0), ("INFO", 1), ("CHILD0", 2), ("CHILD1", 3)]

/-- The register names of 10_state R22; a register may be named by its index too, as in 95_test_vectors CT2. -/
def registerNames : List (String × BitVec 4) :=
  [("CMD", Config.idxCmd), ("DATA", Config.idxData), ("RESULT", Config.idxResult), ("STATUS", Config.idxStatus),
   ("ERRCMD", Config.idxErrCmd), ("NSYM", Config.idxNsym), ("TOTAL", Config.idxTotal), ("NODES", Config.idxNodes),
   ("ROOT", Config.idxRoot), ("ID", Config.idxId)]

/-- A register operand; an index above 15 names none, and is an assembly error (DESIGN CHOICE, log 26). -/
def registerOf (t : List Char) : Option (BitVec 4) :=
  match lookupName registerNames t with
  | some idx => some idx
  | none =>
    match numberOf t with
    | some n => if n < 16 then some (BitVec.ofNat 4 n) else none
    | none => none

/-- The values of a command's operands, each read for the field it stands in. -/
def operandValues (fields : List Field) (tokens : List (List Char)) : Option (List Nat) :=
  match fields, tokens with
  | [], [] => some []
  | f :: fs, t :: ts =>
    match (if f = .fsel then (lookupName fselNames t).or (numberOf t) else numberOf t), operandValues fs ts with
    | some v, some vs => some (v :: vs)
    | _, _ => none
  | _, _ => none

/-- A command line (R95). -/
def asmLineOf (t : List Char) : Option AsmLine :=
  match lookupName mnemonicNames (splitKeyword t).1 with
  | none => none
  | some m =>
    (operandValues m.format.operandFields (operandTokens (splitKeyword t).2)).map fun vs =>
      { mnemonic := m, operands := vs }

/-- The command a line writes: assembled (R95), then read back. -/
def commandOfText (t : List Char) : Option Instr :=
  match asmLineOf t with
  | none => none
  | some l =>
    match assemble l with
    | none => none
    | some w => decode w

/-- A bit string (R95 PUSH). -/
def bitsOf (t : List Char) : Option (List Bool) :=
  t.mapM fun c => if c = '0' then some false else if c = '1' then some true else none

/-- The bytes of a string in double quotes (R96). The spec gives no way to write a double quote inside one: DESIGN CHOICE,
there is none, and a line with an inner quote is an assembly error (log 25). -/
def bytesOf (t : List Char) : Option (List Sym) :=
  match t with
  | [] => none
  | q :: rest =>
    if q = stringQuote ∧ rest.getLast? = some stringQuote ∧ stringQuote ∉ rest.dropLast then rest.dropLast.mapM byteOf
    else none

/-- The host action of R95 or pseudo-instruction of R96 that a first word names. -/
inductive Directive where
  | wr | rd | wait | push | eos | accept | ftSet | issue | doIt | build | count | encode | decode
deriving DecidableEq, Repr

/-- Their names (R95, R96). -/
def directiveNames : List (String × Directive) :=
  [("WR", .wr), ("RD", .rd), ("WAIT", .wait), ("PUSH", .push), ("EOS", .eos), ("ACCEPT", .accept), ("FT_SET", .ftSet),
   ("ISSUE", .issue), ("DO", .doIt), ("BUILD", .build), ("COUNT", .count), ("ENCODE", .encode), ("DECODE", .decode)]

/-- The host actions of a directive with the text after it. -/
def directiveActions (d : Directive) (t : List Char) : Option (List HostEvent) :=
  match d, operandTokens t with
  | .wr, [r, v] =>
    match registerOf r, wordOf v with
    | some idx, some w => some [.writeReg idx w]
    | _, _ => none
  | .rd, [r] => (registerOf r).map fun idx => [.readReg idx]
  | .wait, [] => some [.wait]
  | .push, [b] => (bitsOf b).map fun bits => [.offer bits]
  | .eos, [v] =>
    match numberOf v with
    | some 0 => some [.setEos false]
    | some 1 => some [.setEos true]
    | _ => none
  | .accept, [v] => (numberOf v).map fun n => [.accept n]
  | .ftSet, [s, v] =>
    match numberOf s, wordOf v with
    | some n, some w => if n < 256 then some (ftSet (BitVec.ofNat 8 n) w) else none
    | _, _ => none
  | .issue, _ => (commandOfText t).map issue
  | .doIt, _ => (commandOfText t).map doCommand
  | .build, [] => some buildCommands
  | .count, _ => (bytesOf t).map countCommands
  | .encode, _ => (bytesOf t).map encodeCommands
  | .decode, [v] => (numberOf v).map decodeCommands
  | _, _ => none

/-- One line of a program (R13, R95, R96). -/
def hostActionsOfLine (line : String) : Option (List HostEvent) :=
  match lookupName directiveNames (splitKeyword line.toList).1 with
  | some d => directiveActions d (splitKeyword line.toList).2
  | none => (commandOfText line.toList).map doCommand

/-- A program, one line after another; none if a line is an assembly error. The spec does not say how far the engine gets
between two lines (R9, 70_reset R243): DESIGN CHOICE, it is the parameter `turns`, the engine turns given after each line
(log 23). The values of 95_test_vectors are read with the engine run until it is held or idle, for which
`settlingTurns` are enough. -/
def hostActionsOf (turns : Nat) (lines : List String) : Option (List HostEvent) :=
  (lines.mapM hostActionsOfLine).map fun actions => actions.flatMap fun a => a ++ List.replicate turns .yield

/-- Enough turns for any command to end or be held: 1 + 255 engine steps (70_reset R251). -/
def settlingTurns : Nat := 1 + Config.maxCodeLen

end Sys2Proof.Machine
end

