-- ==== Sys2Proof/Tests/Slice0.lean ====
section
/-! SUPPORT. Tests. Expected values come from spec/95_test_vectors.md (vector ids in the comments) or from the rule cited;
then, for every statement with hypotheses, a named theorem that concrete states and operands meet all of them together
(one for each clause where a statement has clauses over one input). -/

open Sys2Proof Sys2Proof.Machine

/-! WellFormed refuses what 30_encoding R95 calls an assembly error. -/

theorem test_asm_ok : AsmLine.wellFormed { mnemonic := .lutWord, operands := [255, 7] } = true := by decide
theorem test_asm_arity : AsmLine.wellFormed { mnemonic := .nop, operands := [0] } = false := by decide
theorem test_asm_arity_short : AsmLine.wellFormed { mnemonic := .nodeRead, operands := [0] } = false := by decide
theorem test_asm_sym : AsmLine.wellFormed { mnemonic := .ftAccum, operands := [256] } = false := by decide
theorem test_asm_widx : AsmLine.wellFormed { mnemonic := .lutWord, operands := [0, 8] } = false := by decide
theorem test_asm_node : AsmLine.wellFormed { mnemonic := .nodeRead, operands := [512, 0] } = false := by decide
theorem test_asm_fsel : AsmLine.wellFormed { mnemonic := .nodeRead, operands := [0, 4] } = false := by decide
/-- R95's two examples. -/
theorem test_assemble : assemble { mnemonic := .lutWord, operands := [1, 1] } = some 0x09000101#32
    ∧ assemble { mnemonic := .nodeRead, operands := [8, 3] } = some 0x06003008#32 := by decide

/-! The assembler's text (R95's examples, R96's expansions, lines that are errors). -/

theorem test_text_lutWord : asmLineOf "LUT_WORD 0x01, 1".toList = some { mnemonic := .lutWord, operands := [1, 1] }
    ∧ (hostActionsOfLine "ISSUE LUT_WORD 0x01, 1") = some [.writeReg 0 0x09000101#32] := by decide
theorem test_text_nodeRead : hostActionsOfLine "NODE_READ 8, CHILD1" = some [.writeReg 0 0x06003008#32, .wait] := by decide
theorem test_text_host : hostActionsOf 0 ["WR DATA, 5", "FT_LOAD 'a'", "RD RESULT", "PUSH 101", "EOS 1", "ACCEPT 2", "RD 10"]
    = some [.writeReg 1 5#32, .writeReg 0 0x03000061#32, .wait, .readReg 2, .offer [true, false, true], .setEos true,
        .accept 2, .readReg 10] := by decide
theorem test_text_macros : hostActionsOf 0 ["FT_SET 0x00, 0xFFFFFFFF", "BUILD", "COUNT \"ab\"", "DECODE 1"]
    = some [.writeReg 1 0xFFFFFFFF#32, .writeReg 0 0x03000000#32, .wait, .writeReg 0 0x05000000#32, .wait,
        .writeReg 0 0x07000000#32, .wait, .writeReg 0 0x02000061#32, .wait, .writeReg 0 0x02000062#32, .wait,
        .writeReg 0 0x0B000000#32, .wait, .readReg 2] := by decide
theorem test_text_errors : ["FT_ACCUM 256", "LUT_WORD 1, 8", "NODE_READ 512, INFO", "NODE_READ 0, 4", "NOP 0", "nop",
    "FT_READ", "FT_READ 1, 2", "FT_READ 0x", "WR DATA, 0x100000000", "RD 16"].all (fun l => (hostActionsOfLine l).isNone) = true := by decide
theorem test_text_not_ascii : hostActionsOfLine "FT_ACCUM 'é'" = none ∧ hostActionsOfLine "COUNT \"é\"" = none := by decide
theorem test_text_inner_quote : hostActionsOfLine "COUNT \"a\"b\"" = none ∧ hostActionsOfLine "COUNT \"" = none := by decide
theorem test_text_turns : hostActionsOf 2 ["ACCEPT 0", "ISSUE ENC_SYM 0x64"]
    = some [.accept 0, .yield, .yield, .writeReg 0 0x0A000064#32, .yield, .yield] := by decide
theorem test_text_quoted_comma : hostActionsOfLine "ISSUE LUT_WORD ',', 7" = some [.writeReg 0 0x0900072C#32] := by decide

/-! Decoding, each word written out from R81 and R84: bits 31:24 the opcode, then the fields. -/

theorem test_decode_nop : decode 0b00000000000000000000000000000000#32 = some .nop := by decide
theorem test_decode_ftClear : decode 0b00000001000000000000000000000000#32 = some .ftClear := by decide
theorem test_decode_ftAccum : decode 0b00000010000000000000000001100001#32 = some (.ftAccum 0x61) := by decide
theorem test_decode_ftLoad : decode 0b00000011000000000000000001100010#32 = some (.ftLoad 0x62) := by decide
theorem test_decode_ftRead : decode 0b00000100000000000000000011111111#32 = some (.ftRead 0xFF) := by decide
theorem test_decode_treeBuild : decode 0b00000101000000000000000000000000#32 = some .treeBuild := by decide
theorem test_decode_nodeRead : decode 0b00000110000000000010000101111111#32 = some (.nodeRead 383 .child0) := by decide
theorem test_decode_lutDerive : decode 0b00000111000000000000000000000000#32 = some .lutDerive := by decide
theorem test_decode_lutLen : decode 0b00001000000000000000000001110010#32 = some (.lutLen 0x72) := by decide
theorem test_decode_lutWord : decode 0b00001001000000000000011101100010#32 = some (.lutWord 0x62 7) := by decide
theorem test_decode_encSym : decode 0b00001010000000000000000001100100#32 = some (.encSym 0x64) := by decide
theorem test_decode_decSym : decode 0b00001011000000000000000000000000#32 = some .decSym := by decide
theorem test_decode_errClear : decode 0b00001100000000000000000000000000#32 = some .errClear := by decide
/-- TB12, LU13, CT5, CT9, CT12, CT3, CT4: illegal words. -/
theorem test_decode_illegal :
    [0x06000200#32, 0x06004002#32, 0x09000862#32, 0x01000001#32, 0x0C000001#32, 0x02000100#32, 0x0D000000#32,
      0xFF000000#32].all (fun w => (decode w).isNone) = true := by decide
theorem test_decodeTableWord : decodeTableWord 32 0x06003002 = some (.nodeRead 2 .child1) := by decide

/-! Small states. -/

/-- Word `w` accepted (R24 (c)), its first engine step next. -/
def inFlight (w : Word) (s : State) : State := acceptCommand w s

/-- The state one step later. -/
def after (s : State) : State :=
  match step s with
  | .next t => t
  | _ => s

/-- 95_test_vectors: the sink "always accepts unless an `ACCEPT` line says otherwise". -/
theorem test_accept : (after { State.reset with pending := [.accept 2] }).sinkMode = .limited 2
    ∧ (after { State.reset with sinkMode := .limited 1, pending := [.accept 2] }).sinkMode = .limited 3 := by decide

def leafOf (s : Sym) (w : Word) : Node := { w := w, leaf := true, sym := s, c0 := 0, c1 := 0 }
def intOf (w : Word) (a b : NodeIdx) : Node := { w := w, leaf := false, sym := 0, c0 := a, c1 := b }

/-- "abab" counted. -/
def abab : State := { State.reset with freq := [(0x61, 2#32), (0x62, 2#32)], nsym := 2, total := 4 }
/-- The T-abab row: built. -/
def ababBuilt : State :=
  { abab with arena := [(0, leafOf 0x61 2), (1, leafOf 0x62 2), (2, intOf 4 0 1)], nodes := 3, root := 2,
              treeValid := true }
/-- The T-abab row: built and derived. -/
def ababDerived : State :=
  { ababBuilt with lut := [(0x61, ⟨1, [false]⟩), (0x62, ⟨1, [true]⟩)], lutValid := true }

/-- "abracadabra" counted. -/
def abra : State :=
  { State.reset with freq := [(0x61, 5#32), (0x62, 2#32), (0x63, 1#32), (0x64, 1#32), (0x72, 2#32)], nsym := 5,
                     total := 11 }
/-- The T-abra row: built. -/
def abraBuilt : State :=
  { abra with arena := [(0, leafOf 0x61 5), (1, leafOf 0x62 2), (2, leafOf 0x63 1), (3, leafOf 0x64 1),
                        (4, leafOf 0x72 2), (5, intOf 2 2 3), (6, intOf 4 1 4), (7, intOf 6 5 6), (8, intOf 11 0 7)]
              nodes := 9, root := 8, treeValid := true }
/-- The T-abra row: built and derived. -/
def abraDerived : State :=
  { abraBuilt with lut := [(0x61, ⟨1, [false]⟩), (0x62, ⟨3, [true, true, false]⟩), (0x63, ⟨3, [true, false, false]⟩),
                           (0x64, ⟨3, [true, false, true]⟩), (0x72, ⟨3, [true, true, true]⟩)]
                   lutValid := true }

/-! Frequency table. -/

/-- FT1. -/
theorem test_ftAccum_first : after (inFlight 0x02000061 .reset)
    = { inFlight 0x02000061 .reset with freq := [(0x61, 1#32)], nsym := 1, total := 1, busy := false } := by decide
/-- FT12: counting invalidates the tree. -/
theorem test_ftAccum_invalidates : statusWord (after (inFlight 0x02000061 ababDerived)) = 0x000#32
    ∧ (after (inFlight 0x02000061 ababDerived)).freqOf 0x61 = 3#32
    ∧ (after (inFlight 0x02000061 ababDerived)).nodes = 0 := by decide
/-- FT9: OVERFLOW of FT_LOAD. -/
theorem test_ftLoad_overflow :
    let s : State := { State.reset with data := 1, freq := [(0, 0xFFFFFFFF#32)], nsym := 1, total := 0xFFFFFFFF }
    statusWord (after (inFlight 0x03000001 s)) = 0x602#32 ∧ (after (inFlight 0x03000001 s)).errCmd = 0x03000001#32
      ∧ (after (inFlight 0x03000001 s)).freqOf 1 = 0#32 := by decide
/-- FT5: a count of 0 removes the symbol. -/
theorem test_ftLoad_removes :
    let s : State := { State.reset with freq := [(0x61, 5#32), (0x62, 5#32)], nsym := 2, total := 10 }
    (after (inFlight 0x03000061 s)).freq = [(0x62, 5#32)] ∧ (after (inFlight 0x03000061 s)).nsym = 1
      ∧ (after (inFlight 0x03000061 s)).total = 5#32 := by decide
/-- FT11. -/
theorem test_ftClear : after (inFlight 0x01000000 { ababDerived with result := 2 })
    = { inFlight 0x01000000 { ababDerived with result := 2 } with
        freq := [], nsym := 0, total := 0, nodes := 0, root := 0, treeValid := false, lutValid := false, busy := false } := by
  decide
/-- FT3. -/
theorem test_ftRead : (after (inFlight 0x04000062 abab)).result = 2#32
    ∧ (after (inFlight 0x04000063 { abab with result := 9 })).result = 0#32 := by decide

/-! Tree builder. -/

set_option maxRecDepth 8000 in
/-- TB7: the T-abra arena. -/
theorem test_treeBuild_abra : (after (inFlight 0x05000000 abra)).arena = abraBuilt.arena
    ∧ readReg (after (inFlight 0x05000000 abra)) 7 = 9#32 ∧ readReg (after (inFlight 0x05000000 abra)) 8 = 8#32
    ∧ statusWord (after (inFlight 0x05000000 abra)) = 0x004#32 := by decide
/-- TB1: an empty table is no error. -/
theorem test_treeBuild_empty : statusWord (after (inFlight 0x05000000 .reset)) = 0x000#32 := by decide
/-- TB3, TB2: the four fields, and a leaf's child. -/
theorem test_nodeRead : (after (inFlight 0x06000002 ababBuilt)).result = 4#32
    ∧ (after (inFlight 0x06002002 { ababBuilt with result := 9 })).result = 0#32
    ∧ (after (inFlight 0x06003002 ababBuilt)).result = 1#32 ∧ (after (inFlight 0x06001001 ababBuilt)).result = 0x162#32
    ∧ (after (inFlight 0x06002000 ababBuilt)).result = 0xFFFFFFFF#32 := by decide
/-- TB10, TB11: NODE_RANGE, and NO_TREE before it. -/
theorem test_nodeRead_errors : statusWord (after (inFlight 0x06000003 ababDerived)) = 0x50E#32
    ∧ statusWord (after (inFlight 0x060001FF .reset)) = 0x202#32 := by decide

/-! Codeword LUT. -/

set_option maxRecDepth 8000 in
/-- The T-abra codewords; LU14 that a second derivation leaves them. -/
theorem test_lutDerive_abra : (after (inFlight 0x07000000 abraBuilt)).lut = abraDerived.lut
    ∧ (after (inFlight 0x07000000 abraDerived)).lut = abraDerived.lut
    ∧ statusWord (after (inFlight 0x07000000 abraBuilt)) = 0x00C#32 := by decide
/-- LU1. -/
theorem test_lutDerive_noTree : statusWord (after (inFlight 0x07000000 .reset)) = 0x202#32 := by decide
/-- LU3, LU6. -/
theorem test_lutLen : (after (inFlight 0x08000062 abraDerived)).result = 3#32
    ∧ statusWord (after (inFlight 0x0800007A abraDerived)) = 0x40E#32 := by decide
/-- LU2, LU7. -/
theorem test_lutLen_noLut : statusWord (after (inFlight 0x08000061 abraBuilt)) = 0x306#32
    ∧ statusWord (after (inFlight 0x0800007A .reset)) = 0x302#32 := by decide
/-- LU4, LU5. -/
theorem test_lutWord : (after (inFlight 0x09000064 abraDerived)).result = 0xA0000000#32
    ∧ (after (inFlight 0x09000162 abraDerived)).result = 0#32 := by decide
/-- LU10: 33 ones read across a word boundary. -/
theorem test_lutWord_boundary : lutWordOf ⟨33, List.replicate 33 true⟩ 0 = 0xFFFFFFFF#32
    ∧ lutWordOf ⟨33, List.replicate 33 true⟩ 1 = 0x80000000#32 := by decide

/-! Encoder and decoder. -/

/-- EN6: ENC_SYM 'd' held at its second bit, then the sink accepts. -/
theorem test_encSym_emit :
    let s : State := { inFlight 0x0A000064 abraDerived with phase := .running, encPos := 1, sinkMode := .limited 0 }
    statusWord s = 0x02D#32 ∧ step s = .next s ∧ (after { s with sinkMode := .limited 1 }).sink = [false]
      ∧ (after { s with sinkMode := .limited 1 }).encPos = 2 := by
  refine ⟨by decide, rfl, by decide, by decide⟩
/-- EN5, EN4. -/
theorem test_encSym_errors : statusWord (after (inFlight 0x0A00007A abraDerived)) = 0x40E#32
    ∧ statusWord (after (inFlight 0x0A000061 abraBuilt)) = 0x306#32 := by decide
/-- DE1's last bit: from node 5 the bit 1 reaches leaf 3, 'd'. -/
theorem test_decSym_leaf :
    let s : State := { inFlight 0x0B000000 abraBuilt with phase := .running, decNode := 5, src := [true, false] }
    (after s).result = 0x64#32 ∧ (after s).src = [false] ∧ statusWord (after s) = 0x004#32 := by decide
/-- DE7, DE8: TRUNCATED, and the hold. -/
theorem test_decSym_end :
    let s : State := { inFlight 0x0B000000 { abraBuilt with result := 0x61 } with phase := .running, decNode := 6 }
    statusWord (after { s with eos := true }) = 0x706#32 ∧ (after { s with eos := true }).result = 0x61#32
      ∧ statusWord s = 0x015#32 := by decide

/-! Control, registers, reset. -/

/-- CT1. -/
theorem test_nop : viewOf (after (inFlight 0 .reset)) = viewOf .reset := by decide
/-- R161, R171: no hold before the start step, whatever the ports do (log 8). -/
theorem test_no_hold_before_start : statusWord (inFlight 0x0B000000 abraBuilt) = 0x005#32
    ∧ statusWord (inFlight 0x0A000064 { abraDerived with sinkMode := .limited 0 }) = 0x00D#32 := by decide
/-- CT8, CT10. -/
theorem test_errClear :
    let s : State := { ababDerived with err := true, errCode := .illegal, errCmd := 0x0D000000, ovr := true }
    statusWord (after (inFlight 0x0C000000 s)) = 0x00C#32 ∧ (after (inFlight 0x0C000000 s)).errCmd = 0#32 := by decide
/-- CT3. -/
theorem test_illegal : statusWord (after (inFlight 0x0D000000 .reset)) = 0x102#32
    ∧ (after (inFlight 0x0D000000 .reset)).errCmd = 0x0D000000#32 := by decide
/-- CT2. -/
theorem test_registers : readReg .reset 9 = 0x48554601#32 ∧ readReg .reset 0 = 0#32 ∧ readReg .reset 10 = 0#32
    ∧ readReg (writeReg 2 5 .reset) 2 = 0#32 ∧ readReg (writeReg 1 5 .reset) 1 = 5#32 := by decide
/-- R66: byte 1 of ID is 'F' in little-endian lanes. -/
theorem test_byte_lane : readRegByte .reset 9 1 = 0x46#8 := by decide
/-- EN7, CT6: an overrun, and a command while ERR = 1. -/
theorem test_cmd_write : writeCmd 0 (inFlight 0x0B000000 .reset) = { inFlight 0x0B000000 .reset with ovr := true }
    ∧ writeCmd 0x02000061 { State.reset with err := true } = { State.reset with err := true } := by decide
/-- RS2: reset in the middle of an ENC_SYM keeps the sink's bits. -/
theorem test_reset :
    after { inFlight 0x0A000064 abraDerived with phase := .running, encPos := 1, sink := [true],
                                                 pending := [.setRstN false] }
      = { State.reset with sink := [true], rstN := false } := by decide
/-- The very next step after withFetchWord runs the word (log 13). -/
theorem test_withFetchWord :
    after (State.withFetchWord { State.reset with pending := [.setEos true] } 32 0x02000061)
      = { after (inFlight 0x02000061 .reset) with pending := [.setEos true] } := by decide

/-! Witnesses. States that meet every invariant. -/

set_option maxRecDepth 8000 in
/-- The T-abab state, built and derived, meets every invariant. -/
theorem inv_ababDerived : Inv ababDerived where
  memories := by decide
  status := ⟨by decide, by decide, by decide, by decide⟩
  count := ⟨by decide, by decide⟩
  tree := ⟨by decide, by decide, by decide, by decide, by decide⟩
  lut := by
    intro _
    decide
  engine := ⟨by decide, by decide⟩
  zeroLeaf := by decide
  inReset := by
    intro h
    exact absurd h (by decide)

/-- A command accepted on a state that meets the invariants and is idle without error, with any host side. -/
theorem inv_accepted {s t : State} (h : Inv s) (he : s.err = false) (hr : s.rstN = true)
    (ht : t = { s with curCmd := t.curCmd, curData := t.curData, busy := true, phase := .start, encPos := 255,
                       decNode := 0, sinkMode := t.sinkMode, src := t.src, eos := t.eos, pending := t.pending }) : Inv t := by
  obtain ⟨hm, hs, hc, htr, hl, _, hz, _⟩ := h
  rw [ht]
  refine ⟨hm, ⟨hs.lut_tree, hs.ok_code, ?_, ?_⟩, ⟨hc.nsym, hc.total⟩,
    ⟨htr.none_nodes, htr.nsym_pos, htr.nodes, htr.root, htr.arena⟩, hl, ?_, hz, ?_⟩
  · intro h1
    exact absurd (he.symm.trans h1) (by decide)
  · intro h1
    exact absurd (he.symm.trans h1) (by decide)
  · refine ⟨fun _ _ => ⟨rfl, hz⟩, ?_⟩
    intro _ h1
    exact absurd (show Phase.start = Phase.running from h1) (by decide)
  · intro h1
    exact absurd (hr.symm.trans h1) (by decide)

/-- ENC_SYM 'b' accepted on T-abab. -/
def encB : State := inFlight 0x0A000062 ababDerived
/-- DEC_SYM accepted on T-abab with the bits `1`, `0` offered. -/
def dec10 : State := { inFlight 0x0B000000 ababDerived with src := [true, false] }
/-- DEC_SYM accepted on T-abab with no bit offered and end-of-stream. -/
def decEos : State := { inFlight 0x0B000000 ababDerived with eos := true }
/-- The emit step of `encB`. -/
def encBRun : State := { encB with phase := .running, encPos := 0 }
/-- The bit step of `dec10`. -/
def decRun : State := { dec10 with phase := .running, decNode := 2 }

theorem inv_encB : Inv encB := inv_accepted inv_ababDerived (by decide) (by decide) rfl
theorem inv_dec10 : Inv dec10 := inv_accepted inv_ababDerived (by decide) (by decide) rfl
theorem inv_decEos : Inv decEos := inv_accepted inv_ababDerived (by decide) (by decide) rfl

/-! Encoding. -/

theorem witness_WordSpells : decode 0x06003002#32 = some (.nodeRead 2 .child1)
    ∧ 0x06003002#32 &&& 0xFFFFCE00#32 = 0x06000000#32 := by decide
theorem witness_IllegalWords : ∀ p ∈ [[], [.wait, .readReg 3], [.yield, .readReg 3]],
    let s : State := { inFlight 0x0C000001 .reset with pending := p }
    s.rstN = true ∧ s.busy = true ∧ s.pending = p ∧ decode s.curCmd = none := by decide
theorem witness_DecodedOperands : decode 0x02000061#32 = some (.ftAccum 0x61)
    ∧ decode 0x09000762#32 = some (.lutWord 0x62 7) ∧ decode 0x060031FF#32 = some (.nodeRead 511 .child1) := by decide
theorem witness_Assembler : assemble { mnemonic := .nodeRead, operands := [511, 3] } = some 0x060031FF#32 := by decide

/-! Step and registers. -/

theorem witness_StepRuns :
    ∀ p ∈ [[], [.yield, .readReg 3], [.wait, .readReg 3]], ∃ s : State, s.rstN = true ∧ s.busy = true
      ∧ decode s.curCmd = some (.encSym 0x62) ∧ s.pending = p := by
  intro p _
  exact ⟨{ encB with pending := p }, rfl, rfl, (by decide : decode 0x0A000062#32 = some (.encSym 0x62)), rfl⟩
theorem witness_CommandWrite_busy : ∃ s : State, s.rstN = true ∧ s.pending = [.writeReg 0 0#32] ∧ s.busy = true :=
  ⟨{ encB with pending := [.writeReg 0 0#32] }, rfl, rfl, rfl⟩
theorem witness_CommandWrite_locked : ∃ s : State, s.rstN = true ∧ s.pending = [.writeReg 0 0x0C000001#32]
    ∧ s.busy = false ∧ s.err = true ∧ 0x0C000001#32 ≠ 0x0C000000#32 :=
  ⟨{ State.reset with err := true, errCode := .illegal, pending := [.writeReg 0 0x0C000001#32] },
    rfl, rfl, rfl, rfl, by decide⟩
theorem witness_CommandWrite_accepted : ∃ s : State, s.rstN = true ∧ s.pending = [.writeReg 0 0x0C000000#32]
    ∧ s.busy = false ∧ s.err = true :=
  ⟨{ State.reset with err := true, errCode := .illegal, pending := [.writeReg 0 0x0C000000#32] }, rfl, rfl, rfl, rfl⟩
theorem witness_RegisterAccesses : ∀ e ∈ [HostEvent.writeReg 1 7#32, .writeReg 2 7#32, .writeReg 15 7#32, .readReg 9],
    ∃ s : State, s.rstN = true ∧ s.pending = [e] := by
  intro e _
  exact ⟨{ State.reset with pending := [e] }, rfl, rfl⟩
theorem witness_RegisterAccesses_zero : (0 : BitVec 4) = 0 ∧ 10 ≤ (10 : BitVec 4).toNat ∧ ¬ 10 ≤ (9 : BitVec 4).toNat := by
  decide
theorem witness_EngineStepNotTaken_held : ∃ s : State, EngineInv s ∧ s.rstN = true ∧ s.busy = true ∧ s.pending = []
    ∧ holdOut s = true := by
  refine ⟨{ encBRun with sinkMode := .limited 0 }, ?_, rfl, rfl, rfl, by decide⟩
  exact ⟨fun _ h => absurd h (by decide), fun _ _ => Or.inl ⟨0x62, by decide, rfl, by decide, by decide⟩⟩
theorem witness_EngineStepNotTaken_taken : ∃ s : State, EngineInv s ∧ s.rstN = true ∧ s.busy = true ∧ s.pending = []
    ∧ holdIn s = false ∧ holdOut s = false :=
  ⟨encB, inv_encB.engine, rfl, rfl, rfl, by decide, by decide⟩

theorem witness_HostPort_no_action : State.reset.pending = [] ∧ State.reset.busy = false := by decide
theorem witness_HostPort : ∀ e ∈ [HostEvent.offer [true], .withdraw, .setEos true, .setSink (.limited 0), .accept 2, .wait,
      .yield], ∀ m ∈ [SinkMode.always, .limited 1],
    let s : State := { State.reset with sinkMode := m, pending := [e] }
    s.pending = [e] ∧ s.sinkMode = m ∧ s.busy = false := by decide

/-! Commands. -/

theorem witness_FtAccum_overflow : ({ State.reset with total := 0xFFFFFFFF#32 } : State).total = 0xFFFFFFFF#32 := rfl
theorem witness_FtAccum_counts : ababDerived.memoriesWf = true ∧ ababDerived.total ≠ 0xFFFFFFFF#32
    ∧ (0x63 : Sym) ≠ 0x61 := by decide
theorem witness_FtLoad_overflow :
    let s : State := { abab with curData := 0xFFFFFFFE#32 }
    (s.total.toNat : Int) - (s.freqOf 0x61).toNat + s.curData.toNat > 0xFFFFFFFF := by decide
theorem witness_FtLoad_sets :
    let s : State := { ababDerived with curData := 0xFFFFFFFD#32 }
    s.memoriesWf = true ∧ CountInv s
      ∧ (s.total.toNat : Int) - (s.freqOf 0x61).toNat + s.curData.toNat ≤ 0xFFFFFFFF :=
  ⟨inv_ababDerived.memories, ⟨inv_ababDerived.count.nsym, inv_ababDerived.count.total⟩, by decide⟩
theorem witness_TreeBuild_empty : State.reset.nsym = 0#9 := rfl
theorem witness_TreeBuild_builds : ababDerived.memoriesWf = true ∧ CountInv ababDerived ∧ ababDerived.nsym ≠ 0#9 :=
  ⟨inv_ababDerived.memories, inv_ababDerived.count, by decide⟩
theorem witness_NodeRead : State.reset.treeValid = false ∧ ababDerived.treeValid = true
    ∧ ababDerived.nodes.toNat ≤ (3 : NodeIdx).toNat ∧ (2 : NodeIdx).toNat < ababDerived.nodes.toNat := by decide
theorem witness_LutDerive : Inv ababDerived ∧ ababDerived.treeValid = true ∧ (ababDerived.nodeOf 1).leaf = true
    ∧ 1 < ababDerived.nodes.toNat ∧ ababDerived.freqOf 0x63 = 0#32 := ⟨inv_ababDerived, by decide⟩
/-- For LutLenReturnsTheLength and LutWordReturnsCodewordBitsMsbFirst. -/
theorem witness_LutReads : ababDerived.lutValid = true ∧ ababDerived.freqOf 0x61 ≠ 0#32
    ∧ ababDerived.freqOf 0x63 = 0#32 ∧ ababBuilt.lutValid = false := by decide
theorem witness_EncSym_start : encB.phase = .start ∧ encB.lutValid = true ∧ encB.freqOf 0x62 ≠ 0#32
    ∧ (encB.lutOf 0x62).len ≠ 0#8 ∧ encB.freqOf 0x63 = 0#32
    ∧ (inFlight 0x0A000062 ababBuilt).lutValid = false := by decide
theorem witness_EncSym_empty_code :
    let s : State := { State.reset with freq := [(0x61, 4#32)], nsym := 1, total := 4, lutValid := true }
    s.phase = .start ∧ s.lutValid = true ∧ s.freqOf 0x61 ≠ 0#32 ∧ (s.lutOf 0x61).len = 0#8 := by decide
theorem witness_EncSym_emit : encBRun.phase = .running ∧ encBRun.sinkMode.accepts = true
    ∧ SinkMode.accepts (.limited 0) = false := by decide
theorem witness_DecSym_start : dec10.phase = .start ∧ dec10.treeValid = true
    ∧ (dec10.nodeOf dec10.root.toNat).leaf = false ∧ (inFlight 0x0B000000 .reset).treeValid = false := by decide
theorem witness_DecSym_leaf_root :
    let s : State := { State.reset with arena := [(0, leafOf 0x61 4)], nodes := 1, treeValid := true }
    s.phase = .start ∧ s.treeValid = true ∧ (s.nodeOf s.root.toNat).leaf = true := by decide
theorem witness_DecSym_bit : decRun.phase = .running ∧ decRun.src = true :: [false]
    ∧ (decRun.nodeOf (decRun.nodeOf decRun.decNode.toNat).c1.toNat).leaf = true := by decide
theorem witness_DecSym_bit_goes_on :
    let s : State := { abraBuilt with phase := .running, decNode := 8, src := [true] }
    (s.nodeOf (s.nodeOf s.decNode.toNat).c1.toNat).leaf = false := by decide
theorem witness_DecSym_end : ∀ e : Bool, ({ decRun with src := [], eos := e } : State).phase = .running
    ∧ ({ decRun with src := [], eos := e } : State).src = [] ∧ ({ decRun with src := [], eos := e } : State).eos = e :=
  fun _ => ⟨rfl, rfl, rfl⟩

/-! Whole commands and streams. -/

theorem witness_EncSymEmits : Inv encB ∧ readyFor (.encSym 0x62) encB ∧ encB.lutValid = true
    ∧ encB.freqOf 0x62 ≠ 0#32 ∧ encB.sinkMode = .always :=
  ⟨inv_encB, ⟨rfl, rfl, rfl, by decide⟩, rfl, by decide, rfl⟩
theorem witness_EncSymEmits_limited : Inv { encB with sinkMode := .limited 1 }
    ∧ (encB.lutOf 0x62).len.toNat ≤ 1 :=
  ⟨inv_accepted inv_ababDerived (by decide) (by decide) rfl, by decide⟩
theorem witness_DecSymDecodes : Inv dec10 ∧ readyFor .decSym dec10 ∧ dec10.treeValid = true
    ∧ dec10.freqOf 0x62 ≠ 0#32 ∧ codeOf dec10 0x62 = some [true] ∧ dec10.src = [true] ++ [false] :=
  ⟨inv_dec10, ⟨rfl, rfl, rfl, by decide⟩, rfl, by decide, by decide, rfl⟩
theorem witness_DecSymTruncation : Inv decEos ∧ readyFor .decSym decEos ∧ decEos.treeValid = true
    ∧ decEos.freqOf 0x62 ≠ 0#32 ∧ codeOf decEos 0x62 = some (decEos.src ++ [true]) ∧ [true] ≠ ([] : List Bool)
    ∧ decEos.eos = true :=
  ⟨inv_decEos, ⟨rfl, rfl, rfl, by decide⟩, rfl, by decide, by decide, by decide, rfl⟩
theorem witness_AnyBits : Inv decEos ∧ readyFor .decSym decEos ∧ decEos.treeValid = true ∧ decEos.eos = true :=
  ⟨inv_decEos, ⟨rfl, rfl, rfl, by decide⟩, rfl, rfl⟩
theorem witness_RoundTrip : Inv ababDerived ∧ ababDerived.rstN = true ∧ ababDerived.busy = false
    ∧ ababDerived.err = false ∧ ababDerived.lutValid = true ∧ ababDerived.treeValid = true
    ∧ ababDerived.sinkMode = .always ∧ ∀ b ∈ [0x61, 0x62, 0x61, 0x62], ababDerived.freqOf b ≠ 0#32 :=
  ⟨inv_ababDerived, by decide⟩
theorem witness_Counting : ababDerived.memoriesWf = true ∧ ababDerived.rstN = true ∧ ababDerived.busy = false
    ∧ ababDerived.err = false ∧ ([0x61, 0x00, 0xFF] : List Sym).length ≤ 0xFFFFFFFF := by decide

/-! Tree and codewords. -/

theorem witness_BuildTree : (presentSyms abra.freq).length = 5 ∧ 1 ≤ 5 := by decide
/-- For ValidTreeIsAFullTreeWithSummedWeights, PathIsTheBranchBitsFromTheRoot and CodewordLengthsFillTheCodeSpace. -/
theorem witness_ValidTree : Inv ababDerived ∧ ababDerived.treeValid = true := ⟨inv_ababDerived, rfl⟩
theorem witness_EqualTables : Inv ababDerived ∧ Inv dec10 ∧ ababDerived ≠ dec10 ∧ dec10.lutValid = true
    ∧ ∀ x, ababDerived.freqOf x = dec10.freqOf x := ⟨inv_ababDerived, inv_dec10, by decide, rfl, fun _ => rfl⟩
theorem witness_Optimal : Inv ababDerived ∧ ababDerived.treeValid = true
    ∧ (Shape.node (.leaf 0x62) (.leaf 0x61)).leaves.Perm (presentSyms ababDerived.freq) :=
  ⟨inv_ababDerived, rfl, by decide⟩
theorem witness_CodewordLengths : Inv ababDerived ∧ ababDerived.treeValid = true ∧ ababDerived.freqOf 0x61 ≠ 0#32 :=
  ⟨inv_ababDerived, rfl, by decide⟩
/-- The branch clauses of PathIsTheBranchBitsFromTheRoot. -/
theorem witness_Path : 2 < ababDerived.nodes.toNat ∧ (ababDerived.nodeOf 2).leaf = false
    ∧ (ababDerived.nodeOf 2).c0.toNat = 0 ∧ (ababDerived.nodeOf 2).c1.toNat = 1 := by decide
theorem witness_PrefixFree : Inv ababDerived ∧ ababDerived.treeValid = true ∧ ababDerived.freqOf 0x61 ≠ 0#32
    ∧ ababDerived.freqOf 0x62 ≠ 0#32 ∧ (0x61 : Sym) ≠ 0x62 ∧ codeOf ababDerived 0x61 = some [false]
    ∧ codeOf ababDerived 0x62 = some [true] := ⟨inv_ababDerived, by decide⟩

/-! The whole machine. -/

theorem witness_ErrorsArePrecise : ∃ t, decEos.err = false ∧ exec (.nodeRead 3 .weight) decEos = .next t ∧ t.err = true :=
  ⟨raiseError .nodeRange decEos, by decide, rfl, rfl⟩
theorem witness_ErrorLock :
    let s : State := { State.reset with err := true, errCode := .illegal, pending := [.writeReg 0 0x02000061#32] }
    s.err = true ∧ s.busy = false ∧ s.rstN = true ∧ (∃ t, step s = .next t)
      ∧ ¬ hostDoes s (.writeReg 0 0x0C000000#32) ∧ ¬ hostDoes s (.setRstN false) := by
  refine ⟨rfl, rfl, rfl, ⟨_, rfl⟩, ?_, ?_⟩ <;> rintro ⟨rest, h⟩ <;> exact absurd h (by simp [turnOf])
theorem witness_Overrun_rises : ∃ s t : State, step s = .next t ∧ s.rstN = true ∧ s.busy = true
    ∧ s.pending = .writeReg 0 0#32 :: [] ∧ s.ovr = false ∧ t.ovr = true :=
  ⟨{ encB with pending := [.writeReg 0 0#32] }, _, rfl, rfl, rfl, rfl, rfl, rfl⟩
theorem witness_Overrun_falls : ∃ s t : State, step s = .next t ∧ s.ovr = true ∧ t.ovr = false :=
  ⟨{ State.reset with ovr := true, pending := [.setRstN false] }, _, rfl, rfl, rfl⟩
theorem witness_Written_steps :
    step (inFlight 0x04000061 ababDerived) = .next (after (inFlight 0x04000061 ababDerived))
    ∧ step (inFlight 0x02000061 ababDerived) = .next (after (inFlight 0x02000061 ababDerived))
    ∧ step (inFlight 0x05000000 abab) = .next (after (inFlight 0x05000000 abab))
    ∧ step (inFlight 0x07000000 ababBuilt) = .next (after (inFlight 0x07000000 ababBuilt))
    ∧ step (inFlight 0x08000063 ababDerived) = .next (after (inFlight 0x08000063 ababDerived))
    ∧ ababDerived.memoriesWf = true ∧ ¬ hostDoes (inFlight 0x04000061 ababDerived) (.setRstN false) := by
  refine ⟨rfl, rfl, rfl, rfl, rfl, by decide, ?_⟩
  rintro ⟨rest, h⟩
  exact absurd h (by simp [turnOf, inFlight, ababDerived, ababBuilt, abab, State.reset])
theorem witness_Written_clauses : (after (inFlight 0x04000061 ababDerived)).result ≠ ababDerived.result
    ∧ (after (inFlight 0x02000061 ababDerived)).freqOf 0x61 ≠ ababDerived.freqOf 0x61
    ∧ (after (inFlight 0x02000061 ababDerived)).nodes ≠ ababDerived.nodes
    ∧ (after (inFlight 0x05000000 abab)).arena ≠ abab.arena ∧ (after (inFlight 0x07000000 ababBuilt)).lut ≠ ababBuilt.lut
    ∧ (after (inFlight 0x08000063 ababDerived)).err ≠ ababDerived.err := by decide
theorem witness_DataLatched : ∃ s t : State, step s = .next t ∧ t.data ≠ s.data ∧ s.busy = true ∧ t.busy = true :=
  ⟨{ encB with pending := [.writeReg 1 9#32] }, after { encB with pending := [.writeReg 1 9#32] }, rfl, by decide⟩
theorem witness_DataLatched_accepts : ∃ s t : State, step s = .next t ∧ s.busy = false ∧ t.busy = true :=
  ⟨{ ababDerived with pending := [.writeReg 0 0#32] }, _, rfl, rfl, rfl⟩
theorem witness_UpdatesShow : ∃ t, encB.busy = true ∧ exec (.encSym 0x62) encB = .next t ∧ t.busy = true :=
  ⟨after encB, rfl, rfl, by decide⟩
theorem witness_OtherCommands : (∀ sym, Instr.treeBuild ≠ .encSym sym) ∧ Instr.treeBuild ≠ .decSym :=
  ⟨fun _ => by simp, by simp⟩
theorem witness_ValidBits_rise : ∃ s t : State, step s = .next t ∧ s.lutValid = false ∧ t.lutValid = true :=
  ⟨inFlight 0x07000000 ababBuilt, after (inFlight 0x07000000 ababBuilt), rfl, rfl, rfl⟩
theorem witness_ValidBits_tree_rises : ∃ s t : State, step s = .next t ∧ s.treeValid = false ∧ t.treeValid = true :=
  ⟨inFlight 0x05000000 abab, after (inFlight 0x05000000 abab), rfl, rfl, rfl⟩
theorem witness_ValidBits_fall : ∃ s t : State, step s = .next t ∧ s.treeValid = true ∧ t.treeValid = false
    ∧ s.lutValid = true ∧ t.lutValid = false :=
  ⟨inFlight 0x02000061 ababDerived, after (inFlight 0x02000061 ababDerived), rfl, rfl, rfl, rfl, rfl⟩
theorem witness_BitsMove : EngineInv encBRun ∧ step encBRun = .next (after encBRun) ∧ (after encBRun).sink ≠ encBRun.sink := by
  refine ⟨?_, rfl, by decide⟩
  exact ⟨fun _ h => absurd h (by decide), fun _ _ => Or.inl ⟨0x62, by decide, rfl, by decide, by decide⟩⟩

/-! Reset and invariants. -/

theorem witness_ResetSignal_asserted : ∃ s t : State, step s = .next t ∧ s.pending = [.setRstN false] :=
  ⟨{ encB with pending := [.setRstN false] }, _, rfl, rfl⟩
theorem witness_ResetSignal_held : ∃ s t : State, step s = .next t ∧ s.rstN = false ∧ InResetInv s ∧ t.rstN = false :=
  ⟨{ State.reset with rstN := false, pending := [.writeReg 0 0#32] }, _, rfl, rfl, fun _ => rfl, rfl⟩
theorem witness_ResetSignal_released : ∃ s t : State, step s = .next t ∧ s.pending = [.setRstN true] :=
  ⟨{ State.reset with rstN := false, pending := [.setRstN true] }, _, rfl, rfl⟩
theorem witness_StepKeepsCounts : step ababDerived = .next ababDerived ∧ ababDerived.memoriesWf = true
    ∧ CountInv ababDerived := ⟨rfl, inv_ababDerived.memories, inv_ababDerived.count⟩
theorem witness_StepKeepsStatus : StatusInv encB ∧ step encB = .next (after encB) := ⟨inv_encB.status, rfl⟩
theorem witness_StepKeepsStatus_rule28 : Rule28 State.reset ∧ step State.reset = .next State.reset
    ∧ (∃ rest, turnOf State.reset = .engine rest) ∧ State.reset.rstN = true
    ∧ ¬ hostDoes State.reset (.writeReg 0 0x0C000000#32) := by
  refine ⟨⟨by decide, by decide, by decide, by decide, by decide⟩, rfl, ⟨[], rfl⟩, rfl, ?_⟩
  rintro ⟨rest, h⟩
  exact absurd h (by simp [turnOf, State.reset])
theorem witness_StepKeepsEvery : Inv encB ∧ step encB = .next (after encB) := ⟨inv_encB, rfl⟩
/-- Two states that do differ, in a stale arena entry, an absent symbol's LUT entry and the idle engine's cursor. -/
theorem witness_Unspecified :
    let b : State := { ababDerived with decNode := 300, encPos := 9, curCmd := 0x0A000061, phase := .running }
    Inv ababDerived ∧ Inv b ∧ SameButUnreadable ababDerived b ∧ ababDerived ≠ b := by
  refine ⟨inv_ababDerived, ?_, ?_, by decide⟩
  · obtain ⟨hm, hs, hc, ht, hl, _, hz, _⟩ := inv_ababDerived
    refine ⟨hm, ⟨hs.lut_tree, hs.ok_code, hs.err_code, ?_⟩, ⟨hc.nsym, hc.total⟩,
      ⟨ht.none_nodes, ht.nsym_pos, ht.nodes, ht.root, ht.arena⟩, hl, ?_, hz, ?_⟩
    · intro h
      exact absurd h (by decide)
    · exact ⟨fun h => absurd h (by decide), fun h => absurd h (by decide)⟩
    · intro h
      exact absurd h (by decide)
  · refine ⟨rfl, fun _ _ _ => rfl, fun _ _ _ => rfl, ?_, ?_, ?_⟩ <;> intro h <;> exact absurd h (by decide)
theorem witness_CommandsEnd : Inv decEos ∧ decEos.rstN = true ∧ decEos.busy = true ∧ decEos.sinkMode = .always
    ∧ decEos.eos = true := ⟨inv_decEos, rfl, rfl, rfl, rfl⟩
end

section
/-! PROOFS. What one step of the machine can do, said once as inductive predicates with an inversion lemma each: one
engine step of a command, one host action, one step. Every invariant and every frame below goes through them. -/

namespace Sys2Proof.Machine

/-! The step, by the head of `pending` (log 1). -/

/-- A step given to the engine is the engine's turn. -/
theorem step_of_engine {s : State} {rest : List HostEvent} (h : turnOf s = .engine rest) :
    step s = engineStep { s with pending := rest } := by
  simp [step, h]

/-- A step given to the host is its next action. -/
theorem step_of_host {s : State} {e : HostEvent} {rest : List HostEvent} (h : turnOf s = .host e rest) :
    step s = .next (applyHostEvent e { s with pending := rest }) := by
  simp [step, h]

theorem turnOf_nil {s : State} (h : s.pending = []) : turnOf s = .engine [] := by
  simp [turnOf, h]

theorem turnOf_yield {s : State} {rest : List HostEvent} (h : s.pending = .yield :: rest) :
    turnOf s = .engine rest := by
  simp [turnOf, h]

theorem turnOf_wait_busy {s : State} {rest : List HostEvent} (h : s.pending = .wait :: rest) (hb : s.busy = true) :
    turnOf s = .engine s.pending := by
  simp [turnOf, h, hb]

theorem turnOf_wait_idle {s : State} {rest : List HostEvent} (h : s.pending = .wait :: rest) (hb : s.busy = false) :
    turnOf s = .host .wait rest := by
  simp [turnOf, h, hb]

/-- Any other action is the host's to take. -/
theorem turnOf_action {s : State} {e : HostEvent} {rest : List HostEvent} (h : s.pending = e :: rest)
    (hy : e ≠ .yield) (hw : e ≠ .wait) : turnOf s = .host e rest := by
  cases e <;> simp_all [turnOf]

/-- The engine runs the command in flight out of reset (10_state R41). -/
theorem engineStep_run {s : State} {i : Instr} (hr : s.rstN = true) (hb : s.busy = true)
    (hd : decode s.curCmd = some i) : engineStep s = exec i s := by
  simp [engineStep, runCommand, hr, hb, hd]

/-- An illegal word in flight raises ILLEGAL (60_exceptions R202). -/
theorem engineStep_illegal {s : State} (hr : s.rstN = true) (hb : s.busy = true)
    (hd : decode s.curCmd = none) : engineStep s = .next (raiseError .illegal s) := by
  simp [engineStep, runCommand, hr, hb, hd]

/-- An idle engine, or one in reset, takes no step (70_reset R231, R233). -/
theorem engineStep_idle {s : State} (h : s.busy = false ∨ s.rstN = false) : engineStep s = .next s := by
  rcases h with h | h <;> simp [engineStep, h]

/-! One engine step of a command. -/

/-- The value a command that only reads hands to RESULT (R104, R123, R143, R144), its checks passed. -/
inductive ReadOut (s : State) : Instr → Word → Prop where
  | count (sym : Sym) : ReadOut s (.ftRead sym) (s.freqOf sym)
  | node {node : NodeIdx} {fsel : FSel} (ht : s.treeValid = true) (hn : node.toNat < s.nodes.toNat) :
      ReadOut s (.nodeRead node fsel) (nodeField (s.nodeOf node.toNat) fsel)
  | length {sym : Sym} (hv : s.lutValid = true) (hf : s.freqOf sym ≠ 0#32) :
      ReadOut s (.lutLen sym) (zext32 (s.lutOf sym).len)
  | word {sym : Sym} {widx : BitVec 3} (hv : s.lutValid = true) (hf : s.freqOf sym ≠ 0#32) :
      ReadOut s (.lutWord sym widx) (lutWordOf (s.lutOf sym) widx)

/-- DEC_SYM goes to node `n` and leaves `src` of the bits offered: to the root in its start step, by a bit after it
(R171). -/
inductive DecMove (s : State) (n : NodeIdx) (src : List Bool) : Prop where
  | root (hp : s.phase = .start) (ht : s.treeValid = true) (hn : n = s.root) (hs : src = s.src)
  | bit (b : Bool) (hp : s.phase = .running) (hs : s.src = b :: src)
      (hn : n = childOf (s.nodeOf s.decNode.toNat) b)

/-- A port holds the command (R41, R161, R171). -/
inductive Held (s : State) : Instr → Prop where
  | out {sym : Sym} (hp : s.phase = .running) (ha : s.sinkMode.accepts = false) : Held s (.encSym sym)
  | input (hp : s.phase = .running) (hs : s.src = []) (he : s.eos = false) : Held s .decSym

/-- The state after one more bit of `sym`'s codeword has left (R161). -/
def emitted (sym : Sym) (s : State) : State :=
  { s with sink := s.sink ++ [(s.lutOf sym).code.getD s.encPos.toNat false],
           sinkMode := s.sinkMode.afterTransfer, encPos := s.encPos + 1#8 }

/-- The effect of one engine step of command `i`, each with the guards under which it comes about. -/
inductive CmdStep (s : State) : Instr → State → Prop where
  | raised {i : Instr} {code : ErrCode} (hc : code ≠ .none) : CmdStep s i (raiseError code s)
  | nop : CmdStep s .nop (complete s)
  | errClear : CmdStep s .errClear (complete (leaveErrorState s))
  | ftClear : CmdStep s .ftClear (complete (invalidate { s with freq := [], nsym := 0#9, total := 0#32 }))
  | ftAccum {sym : Sym} (ht : s.total ≠ BitVec.ofNat 32 Config.maxTotal) : CmdStep s (.ftAccum sym) (complete
      (invalidate
      { s.setFreq sym (s.freqOf sym + 1#32) with
        nsym := if s.freqOf sym = 0#32 then s.nsym + 1#9 else s.nsym
        total := s.total + 1#32 }))
  | ftLoad {sym : Sym} (ht : loadTotal s sym ≤ (Config.maxTotal : Int)) : CmdStep s (.ftLoad sym) (complete
      (invalidate
      { s.setFreq sym s.curData with
        nsym := s.nsym - presence (s.freqOf sym) + presence s.curData
        total := BitVec.ofInt 32 (loadTotal s sym) }))
  | readOut {i : Instr} {v : Word} (h : ReadOut s i v) : CmdStep s i (completeWith v s)
  | treeEmpty (hn : s.nsym = 0#9) : CmdStep s .treeBuild (complete (invalidate s))
  | treeBuilt (hn : s.nsym ≠ 0#9) : CmdStep s .treeBuild (complete
      { s with
        arena := writeNodes s.arena 0 (buildTree s.freq).nodes
        nodes := BitVec.ofNat 10 (2 * s.nsym.toNat - 1)
        root := BitVec.ofNat 9 (buildTree s.freq).root
        treeValid := true
        lutValid := false })
  | lutDerived (ht : s.treeValid = true) : CmdStep s .lutDerive (complete
      { s with
        lut := deriveLut s.arena s.nodes.toNat s.root.toNat s.lut
        lutValid := true })
  | held {i : Instr} (h : Held s i) : CmdStep s i s
  | encEmpty {sym : Sym} (hp : s.phase = .start) (hv : s.lutValid = true) (hf : s.freqOf sym ≠ 0#32)
      (hl : (s.lutOf sym).len = 0#8) : CmdStep s (.encSym sym) (complete { s with encPos := 0#8 })
  | encStarts {sym : Sym} (hp : s.phase = .start) (hv : s.lutValid = true) (hf : s.freqOf sym ≠ 0#32)
      (hl : (s.lutOf sym).len ≠ 0#8) : CmdStep s (.encSym sym) { s with encPos := 0#8, phase := .running }
  | encEmits {sym : Sym} (hp : s.phase = .running) (ha : s.sinkMode.accepts = true)
      (hl : s.encPos + 1#8 ≠ (s.lutOf sym).len) : CmdStep s (.encSym sym) (emitted sym s)
  | encEnds {sym : Sym} (hp : s.phase = .running) (ha : s.sinkMode.accepts = true)
      (hl : s.encPos + 1#8 = (s.lutOf sym).len) : CmdStep s (.encSym sym) (complete (emitted sym s))
  | decMoves {n : NodeIdx} {src : List Bool} (hm : DecMove s n src) (hl : (s.nodeOf n.toNat).leaf = false) :
      CmdStep s .decSym { s with src := src, decNode := n, phase := .running }
  | decEnds {n : NodeIdx} {src : List Bool} (hm : DecMove s n src) (hl : (s.nodeOf n.toNat).leaf = true) :
      CmdStep s .decSym (completeWith (zext32 (s.nodeOf n.toNat).sym) { s with src := src, decNode := n })

section
variable {s t : State}

/-! ENC_SYM and DEC_SYM by their phase and by what the port offers. -/

theorem exec_encSym_start (sym : Sym) (hp : s.phase = .start) : exec (.encSym sym) s = .next (encStart sym s) := by
  simp [exec, execEncSym, hp]

theorem exec_encSym_running (sym : Sym) (hp : s.phase = .running) : exec (.encSym sym) s = .next (encEmit sym s) := by
  simp [exec, execEncSym, hp]

theorem exec_decSym_start (hp : s.phase = .start) : exec .decSym s = .next (decStart s) := by
  simp [exec, execDecSym, hp]

theorem exec_decSym_running (hp : s.phase = .running) : exec .decSym s = .next (decBit s) := by
  simp [exec, execDecSym, hp]

theorem encEmit_of_accepts (sym : Sym) (ha : s.sinkMode.accepts = true) :
    encEmit sym s = if s.encPos + 1#8 = (s.lutOf sym).len then complete (emitted sym s) else emitted sym s := by
  simp only [encEmit, emitBit, ha, if_true, emitted]

theorem encEmit_of_not_accepts (sym : Sym) (ha : s.sinkMode.accepts = false) : encEmit sym s = s := by
  simp [encEmit, emitBit, ha]

theorem decBit_of_bit {b : Bool} {rest : List Bool} (hs : s.src = b :: rest) :
    decBit s = decArrive (childOf (s.nodeOf s.decNode.toNat) b) { s with src := rest } := by
  simp [decBit, takeBit, hs]

theorem decBit_of_eos (hs : s.src = []) (he : s.eos = true) : decBit s = raiseError .truncated s := by
  simp [decBit, takeBit, hs, he]

theorem decBit_of_hold (hs : s.src = []) (he : s.eos = false) : decBit s = s := by
  simp [decBit, takeBit, hs, he]

/-- LUT_LEN, LUT_WORD and ENC_SYM raise where the codeword check finds an error. -/
theorem codewordError_ne_none {sym : Sym} {code : ErrCode} (h : codewordError s sym = some code) : code ≠ .none := by
  rcases codewordError_cases s sym with ⟨-, hc⟩ | ⟨-, -, hc⟩ | ⟨-, -, hc⟩ <;> simp [hc] at h <;> simp [← h]

/-- The codeword check passes exactly for a present symbol of a valid LUT. -/
theorem codewordError_eq_none {sym : Sym} :
    codewordError s sym = none ↔ s.lutValid = true ∧ s.freqOf sym ≠ 0#32 := by
  rcases codewordError_cases s sym with ⟨hv, hc⟩ | ⟨hv, hf, hc⟩ | ⟨hv, hf, hc⟩ <;> simp_all

theorem encStart_cmdStep {sym : Sym} (hp : s.phase = .start) : CmdStep s (.encSym sym) (encStart sym s) := by
  rcases encStart_cases sym s with ⟨code, hc, he⟩ | ⟨hc, hl, he⟩ | ⟨hc, hl, he⟩ <;> rw [he]
  · exact .raised (codewordError_ne_none hc)
  · obtain ⟨hv, hf⟩ := codewordError_eq_none.1 hc
    exact .encEmpty hp hv hf hl
  · obtain ⟨hv, hf⟩ := codewordError_eq_none.1 hc
    exact .encStarts hp hv hf hl

theorem encEmit_cmdStep {sym : Sym} (hp : s.phase = .running) : CmdStep s (.encSym sym) (encEmit sym s) := by
  rcases encEmit_cases sym s with ⟨ha, he⟩ | ⟨ha, _, rfl, ⟨hl, he⟩ | ⟨hl, he⟩⟩ <;> rw [he]
  · exact .held (.out hp ha)
  · exact .encEnds hp ha hl
  · exact .encEmits hp ha hl

/-- Arriving at a node ends DEC_SYM or lets it go on. -/
theorem decArrive_cmdStep {n : NodeIdx} {src : List Bool} (hm : DecMove s n src) :
    CmdStep s .decSym (decArrive n { s with src := src }) := by
  rcases decArrive_cases n { s with src := src } with ⟨hl, he⟩ | ⟨hl, he⟩ <;> rw [he]
  · exact .decEnds hm hl
  · exact .decMoves hm hl

theorem decStart_cmdStep (hp : s.phase = .start) : CmdStep s .decSym (decStart s) := by
  unfold decStart
  split
  · exact .raised (by simp)
  · next ht => exact decArrive_cmdStep (src := s.src) (.root hp (by simpa using ht) rfl rfl)

theorem decBit_cmdStep (hp : s.phase = .running) : CmdStep s .decSym (decBit s) := by
  rcases decBit_cases s with ⟨b, rest, hs, he⟩ | ⟨-, -, he⟩ | ⟨hs, hn, he⟩ <;> rw [he]
  · exact decArrive_cmdStep (.bit b hp hs rfl)
  · exact .raised (by simp)
  · exact .held (.input hp hs hn)

/-- What one engine step of a command can do. -/
theorem cmdStep_of_exec {i : Instr} (h : exec i s = .next t) : CmdStep s i t := by
  cases i with
  | nop => cases h; exact .nop
  | ftClear => cases h; exact .ftClear
  | ftAccum sym =>
    simp only [exec, execFtAccum] at h
    split at h <;> cases h
    · exact .raised (by simp)
    · next ht => exact .ftAccum ht
  | ftLoad sym =>
    simp only [exec, execFtLoad] at h
    split at h <;> cases h
    · exact .raised (by simp)
    · next ht => exact .ftLoad (by omega)
  | ftRead sym => cases h; exact .readOut (.count sym)
  | treeBuild =>
    simp only [exec, execTreeBuild] at h
    split at h <;> cases h
    · next hn => exact .treeEmpty hn
    · next hn => exact .treeBuilt hn
  | nodeRead node fsel =>
    simp only [exec, execNodeRead] at h
    split at h
    · cases h; exact .raised (by simp)
    · next ht =>
      split at h <;> cases h
      · exact .raised (by simp)
      · next hn => exact .readOut (.node (by simpa using ht) (by omega))
  | lutDerive =>
    simp only [exec, execLutDerive] at h
    split at h <;> cases h
    · exact .raised (by simp)
    · next ht => exact .lutDerived (by simpa using ht)
  | lutLen sym | lutWord sym =>
    simp only [exec, execLutLen, execLutWord] at h
    cases hc : codewordError s sym with
    | some code =>
      simp only [hc] at h
      cases h
      exact .raised (codewordError_ne_none hc)
    | none =>
      obtain ⟨hv, hf⟩ := codewordError_eq_none.1 hc
      simp only [hc] at h
      cases h
      exact .readOut (by constructor <;> assumption)
  | encSym sym =>
    cases hp : s.phase with
    | start =>
      cases (exec_encSym_start sym hp).symm.trans h
      exact encStart_cmdStep hp
    | running =>
      cases (exec_encSym_running sym hp).symm.trans h
      exact encEmit_cmdStep hp
  | decSym =>
    cases hp : s.phase with
    | start =>
      cases (exec_decSym_start hp).symm.trans h
      exact decStart_cmdStep hp
    | running =>
      cases (exec_decSym_running hp).symm.trans h
      exact decBit_cmdStep hp
  | errClear => cases h; exact .errClear

/-- Every command's engine step answers a next state (log 17). -/
theorem exec_answers (i : Instr) (s : State) : ∃ t, exec i s = .next t := by
  cases i <;> simp only [exec, execNop, execFtClear, execFtAccum, execFtLoad, execFtRead, execTreeBuild, execNodeRead,
    execLutDerive, execLutLen, execLutWord, execEncSym, execDecSym, execErrClear]
  all_goals repeat' split
  all_goals exact ⟨_, rfl⟩

end

/-! One host action. -/

/-- The effect of one host action on a state. -/
inductive HostStep (s : State) : HostEvent → State → Prop where
  | data {v : Word} (hr : s.rstN = true) : HostStep s (.writeReg 1 v) { s with data := v }
  | overrun {w : Word} (hr : s.rstN = true) (hb : s.busy = true) : HostStep s (.writeReg 0 w) { s with ovr := true }
  | accepted {w : Word} (hr : s.rstN = true) (hb : s.busy = false) (he : s.err = false ∨ w = Config.errClearWord) :
      HostStep s (.writeReg 0 w) (acceptCommand w s)
  | reset : HostStep s (.setRstN false) { resetBlock s with rstN := false }
  | side {e : HostEvent} {t : State} (hne : e ≠ .setRstN false) (hr : t.rstN = true ∨ t.rstN = s.rstN)
      (ht : t = { s with sinkMode := t.sinkMode, src := t.src, eos := t.eos, rstN := t.rstN, reads := t.reads }) :
      HostStep s e t

/-- A register write. -/
theorem writeReg_hostStep (s : State) (idx : BitVec 4) (v : Word) :
    HostStep s (.writeReg idx v) (writeReg idx v s) := by
  have same : HostStep s (.writeReg idx v) s := .side (by simp) (.inr rfl) rfl
  unfold writeReg
  split
  · exact same
  · next hr =>
    have hr : s.rstN = true := by simpa using hr
    split
    · next hi =>
      subst hi
      rcases writeCmd_cases v s with ⟨hb, he⟩ | ⟨-, -, -, he⟩ | ⟨hb, ha, he⟩ <;> rw [he]
      · exact .overrun hr hb
      · exact same
      · exact .accepted hr hb ha
    · split
      · next hi => exact hi ▸ .data hr
      · exact same

/-- What one host action can do. -/
theorem hostStep_applyHostEvent (e : HostEvent) (s : State) : HostStep s e (applyHostEvent e s) := by
  cases e with
  | writeReg idx v => exact writeReg_hostStep s idx v
  | setRstN level =>
    cases level
    · exact .reset
    · exact .side (by simp) (.inl rfl) rfl
  | _ => exact .side (by simp) (.inr rfl) rfl

/-! One step. -/

/-- What one step can do: a host action, an engine's turn that finds it idle or in reset, ILLEGAL, or one engine step of
the command in flight. -/
inductive StepKind (s t : State) : Prop where
  | host (e : HostEvent) (rest : List HostEvent) (he : turnOf s = .host e rest)
      (h : HostStep { s with pending := rest } e t)
  | idle (rest : List HostEvent) (he : turnOf s = .engine rest) (hi : s.rstN = false ∨ s.busy = false)
      (h : t = { s with pending := rest })
  | illegal (rest : List HostEvent) (he : turnOf s = .engine rest) (hr : s.rstN = true) (hb : s.busy = true)
      (hd : decode s.curCmd = none) (h : t = raiseError .illegal { s with pending := rest })
  | command (i : Instr) (rest : List HostEvent) (he : engineRuns s i) (h : CmdStep { s with pending := rest } i t)

/-- What one step can do. -/
theorem stepKind_of_step {s t : State} (h : step s = .next t) : StepKind s t := by
  rcases step_cases h with ⟨e, rest, he, ht⟩ | ⟨rest, he, ht⟩
  · exact .host e rest he (ht ▸ hostStep_applyHostEvent e _)
  · rcases engineStep_cases ht with ⟨hi, ht⟩ | ⟨hr, hb, hd, ht⟩ | ⟨hr, hb, i, hd, ht⟩
    · exact .idle rest he hi ht
    · exact .illegal rest he hr hb hd ht
    · exact .command i rest ⟨⟨rest, he⟩, hr, hb, hd⟩ (cmdStep_of_exec ht)

end Sys2Proof.Machine
end

section
/-! PROOFS. The frequency table's sums (10_state R30, R31): what one write to FREQ does to them, and that no count leaves
its register. -/

namespace Sys2Proof.Machine

/-! Sums over all symbols. -/

theorem mem_allSyms (s : Sym) : s ∈ allSyms :=
  List.mem_map.2 ⟨s.toNat, List.mem_range.2 s.isLt, by simp⟩

theorem allSyms_nodup : allSyms.Nodup := by
  refine List.Nodup.map_on (fun a ha b hb h => ?_) List.nodup_range
  have ha : a < 256 := List.mem_range.1 ha
  have hb : b < 256 := List.mem_range.1 hb
  have h := congrArg BitVec.toNat h
  simp only [BitVec.toNat_ofNat] at h
  omega

theorem allSyms_length : allSyms.length = 256 := by
  simp [allSyms, Config.nSymbols]

/-- Changing a sum's term at one place changes the sum by as much. -/
theorem sum_map_update {α : Type} {l : List α} (hl : l.Nodup) {x : α} (hx : x ∈ l) {f g : α → Nat}
    (h : ∀ y, y ≠ x → f y = g y) : (l.map f).sum + g x = (l.map g).sum + f x := by
  induction l with
  | nil => simp at hx
  | cons a rest ih =>
    obtain ⟨ha, hrest⟩ := List.nodup_cons.1 hl
    by_cases hax : a = x
    · subst hax
      have hsame : rest.map f = rest.map g :=
        List.map_congr_left fun y hy => h y fun e => ha (e ▸ hy)
      simp only [List.map_cons, List.sum_cons, hsame]
      omega
    · have := ih hrest ((List.mem_cons.1 hx).resolve_left (Ne.symm hax))
      simp only [List.map_cons, List.sum_cons, h a hax]
      omega

/-- A symbol's part in NSYM as a number: 1 for a count above 0. -/
def present (f : Word) : Nat := if f = 0#32 then 0 else 1

@[simp] theorem presence_toNat (f : Word) : (presence f).toNat = present f := by
  unfold presence present
  split <;> rfl

theorem present_of_ne {f : Word} (h : f ≠ 0#32) : present f = 1 := if_neg h

theorem present_le (f : Word) : present f ≤ 1 := by
  unfold present
  split <;> simp

/-- The number of present symbols as a sum. -/
theorem presentSyms_length (freq : Memory Word) :
    (presentSyms freq).length = (allSyms.map fun s => present (freqAt freq s)).sum := by
  unfold presentSyms
  induction allSyms with
  | nil => rfl
  | cons s rest ih =>
    by_cases h : freqAt freq s = 0#32 <;> simp [present, h] <;> simp [present] at ih <;> omega

theorem presentSyms_length_le (freq : Memory Word) : (presentSyms freq).length ≤ 256 :=
  allSyms_length ▸ List.length_filter_le _ _

theorem mem_presentSyms {freq : Memory Word} {s : Sym} : s ∈ presentSyms freq ↔ freqAt freq s ≠ 0#32 := by
  simp [presentSyms, mem_allSyms]

theorem presentSyms_nodup (freq : Memory Word) : (presentSyms freq).Nodup :=
  allSyms_nodup.filter _

/-! The invariant of R30 and R31. -/

section
variable {s t : State}

/-- CountInv speaks of FREQ, NSYM and TOTAL only. -/
theorem CountInv.congr (h : CountInv s) (hf : t.freq = s.freq) (hn : t.nsym = s.nsym) (ht : t.total = s.total) :
    CountInv t :=
  ⟨by rw [hf, hn, h.nsym], by rw [hf, ht, h.total]⟩

theorem CountInv.nsym_le (h : CountInv s) : s.nsym.toNat ≤ 256 :=
  h.nsym ▸ presentSyms_length_le _

theorem CountInv.freqOf_le_total (h : CountInv s) (x : Sym) : (s.freqOf x).toNat ≤ s.total.toNat :=
  h.total ▸ List.single_le_sum (fun _ _ => Nat.zero_le _) _
    (List.mem_map.2 ⟨x, mem_allSyms x, rfl⟩)

theorem CountInv.present_le_nsym (h : CountInv s) (x : Sym) : present (s.freqOf x) ≤ s.nsym.toNat := by
  rw [h.nsym, presentSyms_length]
  exact List.single_le_sum (fun _ _ => Nat.zero_le _) _ (List.mem_map.2 ⟨x, mem_allSyms x, rfl⟩)

/-- A write to one entry of FREQ keeps R30 and R31 when NSYM and TOTAL move by what the entry's part in them moves. -/
theorem CountInv.setFreq (h : CountInv s) (hw : Memory.wf freqDefault Config.nSymbols s.freq = true) {sym : Sym}
    {v : Word} (hf : t.freq = (s.setFreq sym v).freq)
    (hn : t.nsym.toNat + present (s.freqOf sym) = s.nsym.toNat + present v)
    (ht : t.total.toNat + (s.freqOf sym).toNat = s.total.toNat + v.toNat) : CountInv t := by
  have hsame : freqAt t.freq sym = v := by rw [hf]; exact setFreq_freqOf_same sym v hw
  have hother : ∀ y, y ≠ sym → freqAt t.freq y = freqAt s.freq y := by
    intro y hy
    rw [hf]
    exact setFreq_freqOf_other s v hy
  constructor
  · have := sum_map_update allSyms_nodup (mem_allSyms sym) (f := fun y => present (freqAt t.freq y))
      (g := fun y => present (freqAt s.freq y)) fun y hy => by rw [hother y hy]
    rw [← presentSyms_length, ← presentSyms_length, ← h.nsym, hsame] at this
    change _ + present (s.freqOf sym) = _ at this
    omega
  · have := sum_map_update allSyms_nodup (mem_allSyms sym) (f := fun y => (freqAt t.freq y).toNat)
      (g := fun y => (freqAt s.freq y).toNat) fun y hy => by rw [hother y hy]
    change freqTotal t.freq + (s.freqOf sym).toNat = freqTotal s.freq + _ at this
    rw [← h.total, hsame] at this
    omega

/-- FT_CLEAR's empty table has no symbol and no total. -/
theorem countInv_empty (hf : t.freq = []) (hn : t.nsym = 0#9) (ht : t.total = 0#32) : CountInv t := by
  constructor
  · simp [hf, hn, presentSyms, freqAt, Memory.read, freqDefault]
  · simp [hf, ht, freqTotal, freqAt, Memory.read, freqDefault]

/-- FT_ACCUM without OVERFLOW keeps R30 and R31: the counts it adds 1 to do not wrap (R102). -/
theorem countInv_ftAccum (h : CountInv s) (hw : Memory.wf freqDefault Config.nSymbols s.freq = true) {sym : Sym}
    (hmax : s.total ≠ BitVec.ofNat 32 Config.maxTotal) (hf : t.freq = (s.setFreq sym (s.freqOf sym + 1#32)).freq)
    (hn : t.nsym = if s.freqOf sym = 0#32 then s.nsym + 1#9 else s.nsym) (ht : t.total = s.total + 1#32) :
    CountInv t := by
  have hnsym := h.nsym_le
  have hle := h.freqOf_le_total sym
  have htot : s.total.toNat < 2 ^ 32 - 1 := by
    have : s.total.toNat ≠ 2 ^ 32 - 1 := fun e => hmax (BitVec.eq_of_toNat_eq e)
    have := s.total.isLt
    omega
  have hv : (s.freqOf sym + 1#32).toNat = (s.freqOf sym).toNat + 1 := by
    rw [BitVec.toNat_add_of_lt (by simp; omega)]; rfl
  have hv1 : present (s.freqOf sym + 1#32) = 1 :=
    present_of_ne fun e => by simp [e] at hv
  refine h.setFreq hw hf ?_ ?_
  · rw [hn, hv1]
    by_cases h0 : s.freqOf sym = 0#32
    · rw [if_pos h0, BitVec.toNat_add_of_lt (by simp; omega), h0]; rfl
    · rw [if_neg h0, present_of_ne h0]
  · rw [ht, hv, BitVec.toNat_add_of_lt (by simp; omega)]
    simp; omega

/-- FT_LOAD without OVERFLOW keeps R30 and R31: its sums on unbounded integers fit their registers (R103, R107). -/
theorem countInv_ftLoad (h : CountInv s) (hw : Memory.wf freqDefault Config.nSymbols s.freq = true) {sym : Sym}
    (hmax : loadTotal s sym ≤ (Config.maxTotal : Int)) (hf : t.freq = (s.setFreq sym s.curData).freq)
    (hn : t.nsym = s.nsym - presence (s.freqOf sym) + presence s.curData)
    (ht : t.total = BitVec.ofInt 32 (loadTotal s sym)) : CountInv t := by
  have hnsym := h.nsym_le
  have hle := h.freqOf_le_total sym
  have hpos := h.present_le_nsym sym
  refine h.setFreq hw hf ?_ ?_
  · have hold := presence_toNat (s.freqOf sym)
    have hnew := presence_toNat s.curData
    have := present_le s.curData
    rw [hn]
    bv_omega
  · simp only [loadTotal, State.loadOperand, Config.maxTotal] at hmax ht
    rw [ht, BitVec.toNat_ofInt]
    omega

end
end Sys2Proof.Machine
end

section
/-! PROOFS. The shape of what BuildTree builds (41_tree_builder R122): the leaves first, the joins after them, each over
two lower indices, the last one the root. -/

namespace Sys2Proof.Machine

/-- The leaves of the present symbols, ascending (R122 step 1). -/
theorem leafNodes_eq_map (freq : Memory Word) :
    leafNodes freq = (presentSyms freq).map fun s => leafNode s (freqAt freq s) := by
  unfold leafNodes presentSyms
  induction allSyms with
  | nil => rfl
  | cons s rest ih => by_cases h : freqAt freq s = 0#32 <;> simp [h, ih]

@[simp] theorem leafNodes_length (freq : Memory Word) : (leafNodes freq).length = (presentSyms freq).length := by
  simp [leafNodes_eq_map]

/-- Every node BuildTree starts with is a leaf. -/
theorem leaf_of_mem_leafNodes {freq : Memory Word} {m : Node} (h : m ∈ leafNodes freq) : m.leaf = true := by
  rw [leafNodes_eq_map] at h
  obtain ⟨s, -, rfl⟩ := List.mem_map.1 h
  rfl

/-- What holds of BuildTree in progress after every turn of its loop, started from `leaves`. -/
structure Build.Sound (leaves : List Node) (b : Build) : Prop where
  grown : ∃ inner, b.nodes = leaves ++ inner ∧ ∀ m ∈ inner, m.leaf = false
  count : b.nodes.length + b.queue.length = 2 * leaves.length
  bound : ∀ k ∈ b.queue, k.idx < b.nodes.length
  last : ∃ k ∈ b.queue, k.idx + 1 = b.nodes.length
  children : ∀ (i : Nat) (m : Node), b.nodes[i]? = some m → m.leaf = false → m.c0.toNat < i ∧ m.c1.toNat < i

/-- Where the loop starts, the table not being empty. -/
theorem buildStart_sound {freq : Memory Word} (h : presentSyms freq ≠ []) :
    (buildStart freq).Sound (leafNodes freq) := by
  have hpos : 0 < (leafNodes freq).length := by
    simpa using List.length_pos_iff.2 h
  refine ⟨⟨[], by simp [buildStart], by simp⟩, by simp [buildStart]; omega, ?_, ?_, ?_⟩
  · intro k hk
    obtain ⟨⟨m, j⟩, hm, rfl⟩ := List.mem_map.1 hk
    exact (List.getElem?_eq_some_iff.1 (List.mk_mem_zipIdx_iff_getElem?.1 hm)).1
  · refine ⟨_, List.mem_map.2
      ⟨((leafNodes freq)[(leafNodes freq).length - 1], (leafNodes freq).length - 1), ?_, rfl⟩, ?_⟩
    · exact List.mk_mem_zipIdx_iff_getElem?.2 (List.getElem?_eq_getElem _)
    · simp only [buildStart]
      omega
  · intro i m hm hl
    have := leaf_of_mem_leafNodes (List.mem_of_getElem? hm)
    simp [hl] at this

/-- A join's children are the two keys it joins, whose indices fit a node index. -/
theorem joinNode_children {a b : Key} {n : Nat} (ha : a.idx < n) (hb : b.idx < n) (hn : n ≤ 512) :
    (joinNode a b).c0.toNat < n ∧ (joinNode a b).c1.toNat < n := by
  simp only [joinNode, BitVec.toNat_ofNat]
  omega

/-- A turn of the loop keeps it. -/
theorem Build.Sound.mergeOnce {leaves : List Node} {b : Build} (h : b.Sound leaves) (hlen : leaves.length ≤ 256) :
    (mergeOnce b).Sound leaves := by
  rcases mergeOnce_cases b with ⟨-, he⟩ | ⟨first, q1, second, q2, h1, h2, he⟩
  · rwa [he]
  obtain ⟨⟨inner, hg, hi⟩, hc, hb, -, hch⟩ := h
  have hp1 := takeLeast_perm h1
  have hp2 := takeLeast_perm h2
  have hq1 : ∀ k ∈ q1, k ∈ b.queue := fun k hk => hp1.mem_iff.2 (List.mem_cons_of_mem _ hk)
  have hfirst := hb first (hp1.mem_iff.2 List.mem_cons_self)
  have hsecond := hb second (hq1 _ (hp2.mem_iff.2 List.mem_cons_self))
  have hl1 := takeLeast_length h1
  have hl2 := takeLeast_length h2
  rw [he]
  refine ⟨⟨inner ++ [joinNode first second], by simp [hg], ?_⟩, ?_, ?_, ?_, ?_⟩
  · intro m hm
    rcases List.mem_append.1 hm with hm | hm
    · exact hi m hm
    · rw [List.mem_singleton.1 hm]; rfl
  · simp only [List.length_append, List.length_singleton]
    omega
  · intro k hk
    simp only [List.length_append, List.length_singleton]
    rcases List.mem_append.1 hk with hk | hk
    · have := hb k (hq1 k (hp2.mem_iff.2 (List.mem_cons_of_mem _ hk)))
      omega
    · rw [List.mem_singleton.1 hk]
      exact Nat.lt_succ_self _
  · exact ⟨_, List.mem_append_right _ (List.mem_singleton_self _), by simp⟩
  · intro i m hm hl
    rcases Nat.lt_trichotomy i b.nodes.length with hlt | rfl | hgt
    · exact hch i m (by rwa [List.getElem?_append_left hlt] at hm) hl
    · rw [List.getElem?_concat_length] at hm
      cases hm
      exact joinNode_children hfirst hsecond (by omega)
    · rw [List.getElem?_eq_none (by simpa using hgt)] at hm
      cases hm

theorem Build.Sound.mergeAll {leaves : List Node} (hlen : leaves.length ≤ 256) (turns : Nat) {b : Build}
    (h : b.Sound leaves) : (mergeAll turns b).Sound leaves := by
  induction turns generalizing b with
  | zero => exact h
  | succ n ih => exact ih (h.mergeOnce hlen)

/-- Each turn takes one key off a queue of more than one. -/
theorem mergeOnce_queue_length (b : Build) : (mergeOnce b).queue.length ≤ max 1 (b.queue.length - 1) := by
  rcases mergeOnce_cases b with ⟨hq, he⟩ | ⟨first, q1, second, q2, h1, h2, he⟩
  · rw [he]
    omega
  · have hl1 := takeLeast_length h1
    have hl2 := takeLeast_length h2
    rw [he]
    simp only [List.length_append, List.length_singleton]
    omega

theorem mergeAll_queue_length (turns : Nat) (b : Build) :
    (mergeAll turns b).queue.length ≤ max 1 (b.queue.length - turns) := by
  induction turns generalizing b with
  | zero => simp [mergeAll]
  | succ n ih =>
    have := ih (mergeOnce b)
    have := mergeOnce_queue_length b
    simp only [mergeAll]
    omega

/-! The result, for a table that is not empty. -/

section
variable {freq : Memory Word} (h : presentSyms freq ≠ [])
include h

theorem buildTree_sound : (buildTree freq).Sound (leafNodes freq) :=
  (buildStart_sound h).mergeAll (by simpa using presentSyms_length_le freq) _

/-- One node is left when the loop ends. -/
theorem buildTree_queue_length : (buildTree freq).queue.length = 1 := by
  obtain ⟨k, hk, -⟩ := (buildTree_sound h).last
  have hpos := List.length_pos_of_mem hk
  have hstart : (buildStart freq).queue.length = (leafNodes freq).length := by simp [buildStart]
  have := mergeAll_queue_length (leafNodes freq).length (buildStart freq)
  rw [hstart] at this
  change (buildTree freq).queue.length ≤ _ at this
  omega

/-- A tree of n leaves has 2n - 1 nodes (R36). -/
theorem buildTree_length : (buildTree freq).nodes.length = 2 * (presentSyms freq).length - 1 := by
  have := (buildTree_sound h).count
  rw [buildTree_queue_length h, leafNodes_length] at this
  omega

/-- The root is the last node (R122 step 3). -/
theorem buildTree_root : (buildTree freq).root + 1 = (buildTree freq).nodes.length := by
  obtain ⟨k, hk, hlast⟩ := (buildTree_sound h).last
  obtain ⟨r, hr⟩ := List.length_eq_one_iff.1 (buildTree_queue_length h)
  rw [hr, List.mem_singleton] at hk
  simp [Build.root, hr, ← hk, hlast]

/-- A node of the tree is a leaf exactly when it is one of the leaves it started with. -/
theorem buildTree_leaf_iff {i : Nat} {m : Node} (hm : (buildTree freq).nodes[i]? = some m) :
    m.leaf = true ↔ (leafNodes freq)[i]? = some m := by
  obtain ⟨inner, hg, hi⟩ := (buildTree_sound h).grown
  rw [hg] at hm
  constructor
  · intro hl
    rcases Nat.lt_or_ge i (leafNodes freq).length with hlt | hge
    · rwa [List.getElem?_append_left hlt] at hm
    · rw [List.getElem?_append_right hge] at hm
      simp [hi m (List.mem_of_getElem? hm)] at hl
  · intro hl
    exact leaf_of_mem_leafNodes (List.mem_of_getElem? hl)

/-- The leaves stand first. -/
theorem buildTree_getElem?_of_leafNodes {i : Nat} {m : Node} (hm : (leafNodes freq)[i]? = some m) :
    (buildTree freq).nodes[i]? = some m := by
  obtain ⟨inner, hg, -⟩ := (buildTree_sound h).grown
  rw [hg, List.getElem?_append_left (List.getElem?_eq_some_iff.1 hm).1, hm]

end

/-- Whatever the table, the tree fits the arena (R8 MAX_NODES). -/
theorem buildTree_length_le (freq : Memory Word) : (buildTree freq).nodes.length ≤ Config.maxNodes := by
  by_cases h : presentSyms freq = []
  · have : leafNodes freq = [] := by simp [leafNodes_eq_map, h]
    simp [buildTree, this, mergeAll, buildStart, Config.maxNodes]
  · have := buildTree_length h
    have := presentSyms_length_le freq
    simp only [Config.maxNodes]
    omega

end Sys2Proof.Machine
end

section
/-! PROOFS. What each part of the state can do in one step: the tables of the block, its valid bits, its error record, a
command that goes on. The invariants and the frames are read off from these. -/

namespace Sys2Proof.Machine

/-- The registers and memories that commands write are as they were. -/
structure SameTables (s t : State) : Prop where
  result : t.result = s.result
  freq : t.freq = s.freq
  nsym : t.nsym = s.nsym
  total : t.total = s.total
  arena : t.arena = s.arena
  nodes : t.nodes = s.nodes
  root : t.root = s.root
  lut : t.lut = s.lut
  treeValid : t.treeValid = s.treeValid
  lutValid : t.lutValid = s.lutValid

/-- ERR, ERRCODE and ERRCMD are as they were. -/
structure SameErrors (s t : State) : Prop where
  err : t.err = s.err
  errCode : t.errCode = s.errCode
  errCmd : t.errCmd = s.errCmd

section
variable {s t : State}

/-! The host. -/

/-- No host action but the assertion of reset touches the tables. -/
theorem HostStep.sameTables {e : HostEvent} (h : HostStep s e t) (hne : e ≠ .setRstN false) : SameTables s t := by
  cases h with
  | reset => exact absurd rfl hne
  | side _ _ ht => rw [ht]; constructor <;> rfl
  | _ => constructor <;> rfl

/-- No host action but the assertion of reset touches the error record. -/
theorem HostStep.sameErrors {e : HostEvent} (h : HostStep s e t) (hne : e ≠ .setRstN false) : SameErrors s t := by
  cases h with
  | reset => exact absurd rfl hne
  | side _ _ ht => rw [ht]; constructor <;> rfl
  | _ => constructor <;> rfl

/-- The assertion of reset has one outcome. -/
theorem HostStep.reset_eq (h : HostStep s (.setRstN false) t) : t = { resetBlock s with rstN := false } := by
  cases h with
  | reset => rfl
  | side hne => exact absurd rfl hne

/-! Commands. -/

/-- A command still in flight is ENC_SYM or DEC_SYM, and its step has moved the cursor and at most one bit of one port
(R41, R44). -/
theorem CmdStep.goesOn {i : Instr} (h : CmdStep s i t) (hb : t.busy = true) :
    ((∃ sym, i = .encSym sym) ∨ i = .decSym)
      ∧ t = { s with phase := t.phase, encPos := t.encPos, decNode := t.decNode, sink := t.sink,
                     sinkMode := t.sinkMode, src := t.src }
      ∧ (t.sink = s.sink ∨ ∃ b, t.sink = s.sink ++ [b]) ∧ (t.src = s.src ∨ ∃ b, s.src = b :: t.src)
      ∧ (t.sink = s.sink ∨ t.src = s.src) := by
  cases h with
  | held h => cases h <;> simp
  | encStarts => simp
  | encEmits => simp [emitted]
  | decMoves hm => cases hm <;> simp_all
  | _ => simp at hb

/-- A command leaves the error record, clears it (R181), or raises an error (R205). -/
theorem CmdStep.errors_cases {i : Instr} (h : CmdStep s i t) :
    SameErrors s t ∨ (i = .errClear ∧ t = complete (leaveErrorState s))
      ∨ ∃ code, code ≠ .none ∧ t = raiseError code s := by
  cases h with
  | raised hc => exact .inr (.inr ⟨_, hc, rfl⟩)
  | errClear => exact .inr (.inl ⟨rfl, rfl⟩)
  | _ => exact .inl ⟨rfl, rfl, rfl⟩

/-- The three commands that change the frequency table (R106). -/
def ChangesFreq (i : Instr) : Prop := i = .ftClear ∨ ∃ sym, i = .ftAccum sym ∨ i = .ftLoad sym

/-- A command leaves both valid bits; clears both without error (R106, R121); builds the tree (R121); or derives the LUT
(R140). -/
theorem CmdStep.validBits_cases {i : Instr} (h : CmdStep s i t) :
    (t.treeValid = s.treeValid ∧ t.lutValid = s.lutValid)
      ∨ (t.treeValid = false ∧ t.lutValid = false ∧ t.err = s.err
        ∧ (ChangesFreq i ∨ (i = .treeBuild ∧ s.nsym = 0#9)))
      ∨ (t.treeValid = true ∧ t.lutValid = false ∧ i = .treeBuild ∧ s.nsym ≠ 0#9)
      ∨ (t.treeValid = s.treeValid ∧ t.lutValid = true ∧ i = .lutDerive ∧ s.treeValid = true) := by
  cases h with
  | ftClear => exact .inr (.inl ⟨rfl, rfl, rfl, .inl (.inl rfl)⟩)
  | ftAccum => exact .inr (.inl ⟨rfl, rfl, rfl, .inl (.inr ⟨_, .inl rfl⟩)⟩)
  | ftLoad => exact .inr (.inl ⟨rfl, rfl, rfl, .inl (.inr ⟨_, .inr rfl⟩)⟩)
  | treeEmpty hn => exact .inr (.inl ⟨rfl, rfl, rfl, .inr ⟨rfl, hn⟩⟩)
  | treeBuilt hn => exact .inr (.inr (.inl ⟨rfl, rfl, rfl, hn⟩))
  | lutDerived ht => exact .inr (.inr (.inr ⟨rfl, rfl, rfl, ht⟩))
  | _ => exact .inl ⟨rfl, rfl⟩

/-! The step. -/

/-- A step leaves the tables, asserts reset, or is a command's. -/
theorem StepKind.tables_cases (h : StepKind s t) :
    SameTables s t
      ∨ (hostDoes s (.setRstN false)
        ∧ ∃ rest, t = { resetBlock { s with pending := rest } with rstN := false })
      ∨ ∃ i rest, engineRuns s i ∧ CmdStep { s with pending := rest } i t := by
  cases h with
  | host e rest he h =>
    by_cases hr : e = .setRstN false
    · subst hr
      exact .inr (.inl ⟨⟨rest, he⟩, rest, h.reset_eq⟩)
    · obtain ⟨h1, h2, h3, h4, h5, h6, h7, h8, h9, h10⟩ := h.sameTables hr
      exact .inl ⟨h1, h2, h3, h4, h5, h6, h7, h8, h9, h10⟩
  | idle rest he hi h => subst h; exact .inl (by constructor <;> rfl)
  | illegal rest he hr hb hd h => subst h; exact .inl (by constructor <;> rfl)
  | command i rest he h => exact .inr (.inr ⟨i, rest, he, h⟩)

/-! The canonical form of the memories (log 19) and the counts (R30, R31). -/

theorem SameTables.memoriesWf (h : SameTables s t) (hw : s.memoriesWf = true) : t.memoriesWf = true := by
  rw [memoriesWf_iff] at *
  rwa [h.freq, h.arena, h.lut]

theorem SameTables.countInv (h : SameTables s t) (hc : CountInv s) : CountInv t :=
  hc.congr h.freq h.nsym h.total

theorem CmdStep.memoriesWf {i : Instr} (h : CmdStep s i t) (hw : s.memoriesWf = true) : t.memoriesWf = true := by
  rw [memoriesWf_iff] at *
  obtain ⟨hf, ha, hl⟩ := hw
  cases h with
  | ftClear => exact ⟨rfl, ha, hl⟩
  | ftAccum | ftLoad => exact ⟨setFreq_wf _ _ hf, ha, hl⟩
  | treeBuilt => exact ⟨hf, writeNodes_wf _ _ _ ha (by simpa using buildTree_length_le _), hl⟩
  | lutDerived => exact ⟨hf, ha, deriveLut_wf _ _ _ hl⟩
  | _ => exact ⟨hf, ha, hl⟩

theorem CmdStep.countInv {i : Instr} (h : CmdStep s i t) (hw : s.memoriesWf = true) (hc : CountInv s) : CountInv t := by
  obtain ⟨hf, -, -⟩ := (memoriesWf_iff s).1 hw
  cases h with
  | ftClear => exact countInv_empty rfl rfl rfl
  | ftAccum hmax => exact countInv_ftAccum hc hf hmax rfl rfl rfl
  | ftLoad hmax => exact countInv_ftLoad hc hf hmax rfl rfl rfl
  | _ => exact hc.congr rfl rfl rfl

/-- Settles O55: only FT_CLEAR, FT_ACCUM, FT_LOAD, TREE_BUILD and LUT_DERIVE write a memory, and each write keeps its
form; the counts move with FREQ. -/
theorem stepKeepsCountsAndCanonicalMemories : Obligations.StepKeepsCountsAndCanonicalMemories := by
  intro s t h hw
  rcases (stepKind_of_step h).tables_cases with h | ⟨-, rest, rfl⟩ | ⟨i, rest, -, h⟩
  · exact ⟨h.memoriesWf hw, h.countInv⟩
  · exact ⟨rfl, fun _ => countInv_empty rfl rfl rfl⟩
  · exact ⟨h.memoriesWf hw, fun hc => h.countInv hw (hc.congr rfl rfl rfl)⟩

/-! STATUS (R28). -/

/-- The word of ERR_CLEAR spells it. -/
theorem decode_errClearWord : decode Config.errClearWord = some .errClear := by decide

/-- A command in flight while ERR = 1 is ERR_CLEAR (log 9). -/
theorem StatusInv.command_of_err (hs : StatusInv s) (he : s.err = true) {i : Instr} (hb : s.busy = true)
    (hd : decode s.curCmd = some i) : i = .errClear := by
  rw [(hs.err_busy he hb).1, decode_errClearWord] at hd
  exact (Option.some.inj hd).symm

/-- LUT_VALID implies TREE_VALID after a command's step (R28). -/
theorem CmdStep.lut_tree {i : Instr} (h : CmdStep s i t) (hs : s.lutValid = true → s.treeValid = true)
    (hl : t.lutValid = true) : t.treeValid = true := by
  rcases h.validBits_cases with ⟨ht, hl'⟩ | ⟨-, hl', -⟩ | ⟨-, hl', -⟩ | ⟨ht, -, -, hv⟩
  · rw [ht]; exact hs (hl' ▸ hl)
  · simp [hl'] at hl
  · simp [hl'] at hl
  · rw [ht, hv]

/-- ERR = 0 implies ERRCODE = 0 after a command's step (R28). -/
theorem CmdStep.ok_code {i : Instr} (h : CmdStep s i t) (hs : s.err = false → s.errCode = .none)
    (he : t.err = false) : t.errCode = .none := by
  rcases h.errors_cases with h | ⟨-, rfl⟩ | ⟨code, -, rfl⟩
  · rw [h.errCode]; exact hs (h.err ▸ he)
  · rfl
  · simp at he

/-- A command that began without an error, or is ERR_CLEAR, does not leave ERR and BUSY both 1 (R28, R205). -/
theorem CmdStep.err_idle {i : Instr} (h : CmdStep s i t) (hs : s.err = true → i = .errClear) (he : t.err = true) :
    t.busy = false := by
  by_contra hb
  obtain ⟨hi, ht, -⟩ := h.goesOn (by simpa using hb)
  rw [ht] at he
  have hi' := hs he
  subst hi'
  simp at hi

/-- ERRCODE is an error's while ERR = 1 after a command's step (R28). -/
theorem CmdStep.err_code {i : Instr} (h : CmdStep s i t) (hs : s.err = true → s.errCode ≠ .none)
    (he : t.err = true) : t.errCode ≠ .none := by
  rcases h.errors_cases with h | ⟨-, rfl⟩ | ⟨code, hc, rfl⟩
  · rw [h.errCode]; exact hs (h.err ▸ he)
  · simp at he
  · exact hc

theorem CmdStep.statusInv {i : Instr} (h : CmdStep s i t) (hs : StatusInv s) (hc : s.err = true → i = .errClear) :
    StatusInv t :=
  ⟨h.lut_tree hs.lut_tree, h.ok_code hs.ok_code, h.err_code hs.err_code,
    fun he hb => absurd hb (by simp [h.err_idle hc he])⟩

/-- An error raised leaves a state of R28. -/
theorem raiseError_statusInv {code : ErrCode} (hc : code ≠ .none) (hs : s.lutValid = true → s.treeValid = true) :
    StatusInv (raiseError code s) :=
  ⟨hs, by simp, fun _ => hc, by simp⟩

/-- So does reset. -/
theorem resetBlock_statusInv (s : State) : StatusInv { resetBlock s with rstN := false } :=
  ⟨by simp [State.reset], fun _ => rfl, by simp [State.reset], by simp [State.reset]⟩

theorem HostStep.statusInv {e : HostEvent} (h : HostStep s e t) (hs : StatusInv s) : StatusInv t := by
  obtain ⟨hl, ho, hc, hb⟩ := hs
  cases h with
  | accepted hr hi he => exact ⟨hl, ho, hc, fun h _ => ⟨he.resolve_left (by simpa using h), rfl⟩⟩
  | reset => exact resetBlock_statusInv s
  | side _ _ ht => rw [ht]; exact ⟨hl, ho, hc, hb⟩
  | _ => exact ⟨hl, ho, hc, hb⟩

/-- The invariants do not read the list of host actions. -/
theorem StatusInv.setPending (h : StatusInv s) (p : List HostEvent) : StatusInv { s with pending := p } :=
  ⟨h.lut_tree, h.ok_code, h.err_code, h.err_busy⟩

theorem StepKind.statusInv (h : StepKind s t) (hs : StatusInv s) : StatusInv t := by
  cases h with
  | host e rest he h => exact h.statusInv (hs.setPending rest)
  | idle rest he hi h => exact h ▸ hs.setPending rest
  | illegal rest he hr hb hd h => exact h ▸ raiseError_statusInv (by simp) hs.lut_tree
  | command i rest he h =>
    obtain ⟨-, -, hb, hd⟩ := he
    exact h.statusInv (hs.setPending rest) fun he => hs.command_of_err he hb hd

/-- After the engine's turn out of reset ERR and BUSY are not both 1. -/
theorem StepKind.engine_err_idle (h : StepKind s t) (hs : StatusInv s) {rest : List HostEvent}
    (he : turnOf s = .engine rest) (hr : s.rstN = true) (ht : t.err = true) : t.busy = false := by
  cases h with
  | host e rest' he' => simp [he] at he'
  | idle rest' _ hi h =>
    subst h
    exact hi.resolve_left (by simp [hr])
  | illegal rest' _ _ _ _ h => subst h; rfl
  | command i rest' he' h =>
    obtain ⟨-, -, hb, hd⟩ := he'
    exact h.err_idle (fun he => hs.command_of_err he hb hd) ht

/-- R28 after a host action: only the acceptance of ERR_CLEAR breaks it (log 9). -/
theorem HostStep.rule28 {e : HostEvent} (h : HostStep s e t) (hs : Rule28 s)
    (hne : e ≠ .writeReg 0 Config.errClearWord) : Rule28 t := by
  obtain ⟨hl, ho, hi, -, -⟩ := hs
  suffices h : (t.lutValid = true → t.treeValid = true) ∧ (t.err = false → t.errCode = .none)
      ∧ (t.err = true → t.busy = false) from ⟨h.1, h.2.1, h.2.2, hold_busy, not_hold_both t⟩
  cases h with
  | accepted hr hb he =>
    refine ⟨hl, ho, fun h => ?_⟩
    rcases he with he | rfl
    · simp [he] at h
    · exact absurd rfl hne
  | reset => simp [State.reset]
  | side _ _ ht => rw [ht]; exact ⟨hl, ho, hi⟩
  | _ => exact ⟨hl, ho, hi⟩

/-- R28 after any step but the acceptance of ERR_CLEAR. -/
theorem StepKind.rule28 (h : StepKind s t) (hs : Rule28 s) (hne : ¬ hostDoes s (.writeReg 0 Config.errClearWord)) :
    Rule28 t := by
  cases h with
  | host e rest he h =>
    exact h.rule28 ⟨hs.lut_tree, hs.ok_code, hs.err_idle, hold_busy, not_hold_both _⟩ fun e => hne ⟨rest, e ▸ he⟩
  | idle rest he hi h =>
    subst h
    exact ⟨hs.lut_tree, hs.ok_code, hs.err_idle, hold_busy, not_hold_both _⟩
  | illegal rest he hr hb hd h =>
    subst h
    exact ⟨hs.lut_tree, by simp, by simp, hold_busy, not_hold_both _⟩
  | command i rest he h =>
    obtain ⟨-, -, hb, -⟩ := he
    exact ⟨h.lut_tree hs.lut_tree, h.ok_code hs.ok_code,
      h.err_idle fun he => absurd (hs.err_idle he) (by simp [hb]), hold_busy, not_hold_both t⟩

/-- Settles O56: a step writes ERR, ERRCODE and the valid bits together, and lets BUSY stand with ERR only at the
acceptance of ERR_CLEAR. -/
theorem stepKeepsStatusInvariants : Obligations.StepKeepsStatusInvariants := by
  intro s t h
  have hk := stepKind_of_step h
  refine ⟨fun hs => ⟨hk.statusInv hs, hold_busy, not_hold_both t, ?_⟩, hk.rule28⟩
  rintro ⟨rest, he⟩ hr
  exact (hk.statusInv hs).rule28 (hk.engine_err_idle hs he hr)

end
end Sys2Proof.Machine
end

section
/-! PROOFS. The tree, the codewords and the engine's cursor (10_state R32, R39, R40): what a valid tree in a state gives,
and that every step keeps the invariant `Inv`. -/

namespace Sys2Proof.Machine

/-! A valid tree. -/

/-- ROOT is a node of the tree. -/
theorem TreeInv.root_lt {s : State} (ht : TreeInv s) (hv : s.treeValid = true) : s.root.toNat < s.nodes.toNat := by
  have := ht.nsym_pos hv
  have := ht.nodes hv
  have := ht.root hv
  omega

section
variable {s : State} (hc : CountInv s) (ht : TreeInv s) (hv : s.treeValid = true)
include hc ht hv

theorem TreeInv.table_ne_nil : presentSyms s.freq ≠ [] := by
  have := ht.nsym_pos hv
  rw [hc.nsym] at this
  exact List.length_pos_iff.1 this

/-- An internal node's children come before it (R124). -/
theorem TreeInv.child_lt {i : Nat} (hi : i < s.nodes.toNat) (hl : (s.nodeOf i).leaf = false) (b : Bool) :
    (childOf (s.nodeOf i) b).toNat < i := by
  obtain ⟨h0, h1⟩ := (buildTree_sound (ht.table_ne_nil hc hv)).children i _ (ht.arena hv i hi) hl
  cases b
  · exact h0
  · exact h1

/-- Node `i` is a leaf exactly when it is the leaf of the `i`-th present symbol. -/
theorem TreeInv.leaf_iff {i : Nat} (hi : i < s.nodes.toNat) :
    (s.nodeOf i).leaf = true ↔ (leafNodes s.freq)[i]? = some (s.nodeOf i) :=
  buildTree_leaf_iff (ht.table_ne_nil hc hv) (ht.arena hv i hi)

/-- A leaf stands at its symbol's place among the present symbols. -/
theorem TreeInv.presentSyms_of_leaf {i : Nat} (hi : i < s.nodes.toNat) (hl : (s.nodeOf i).leaf = true) :
    (presentSyms s.freq)[i]? = some (s.nodeOf i).sym := by
  have h := (ht.leaf_iff hc hv hi).1 hl
  rw [leafNodes_eq_map, List.getElem?_map, Option.map_eq_some_iff] at h
  obtain ⟨x, hx, he⟩ := h
  rw [hx, ← he]
  rfl

/-- No two leaves have the same symbol (R124). -/
theorem TreeInv.leaf_unique {i j : Nat} (hi : i < s.nodes.toNat) (hj : j < s.nodes.toNat)
    (hli : (s.nodeOf i).leaf = true) (hlj : (s.nodeOf j).leaf = true) (he : (s.nodeOf i).sym = (s.nodeOf j).sym) :
    i = j := by
  have h1 := ht.presentSyms_of_leaf hc hv hi hli
  have h2 := ht.presentSyms_of_leaf hc hv hj hlj
  rw [← he, ← h1] at h2
  exact (List.getElem?_inj (List.getElem?_eq_some_iff.1 h1).1 (presentSyms_nodup _)).1 h2.symm

/-- Every present symbol has a leaf (R124). -/
theorem TreeInv.exists_leaf {x : Sym} (hx : s.freqOf x ≠ 0#32) :
    ∃ i, i < s.nodes.toNat ∧ (s.nodeOf i).leaf = true ∧ (s.nodeOf i).sym = x := by
  obtain ⟨i, hi⟩ := List.getElem?_of_mem (mem_presentSyms.2 hx)
  have hleaf : (leafNodes s.freq)[i]? = some (leafNode x (s.freqOf x)) := by
    rw [leafNodes_eq_map, List.getElem?_map, hi]
    rfl
  have hlt : i < s.nodes.toNat := by
    have := (List.getElem?_eq_some_iff.1 hi).1
    have := ht.nodes hv
    have := hc.nsym
    omega
  have hn : s.nodeOf i = leafNode x (s.freqOf x) := by
    have := buildTree_getElem?_of_leafNodes (ht.table_ne_nil hc hv) hleaf
    rw [ht.arena hv i hlt] at this
    exact Option.some.inj this
  exact ⟨i, hlt, by rw [hn]; exact ⟨rfl, rfl⟩⟩

/-- LEAFIDX of a present symbol is its leaf (R37). -/
theorem TreeInv.leafIndex_eq {i : Nat} (hi : i < s.nodes.toNat) (hl : (s.nodeOf i).leaf = true) :
    leafIndex s (s.nodeOf i).sym = some i := by
  unfold leafIndex
  cases hf : (List.range s.nodes.toNat).find? fun j =>
      (s.nodeOf j).leaf && decide ((s.nodeOf j).sym = (s.nodeOf i).sym) with
  | none =>
    have := List.find?_eq_none.1 hf i (List.mem_range.2 hi)
    simp [hl] at this
  | some j =>
    have hj := List.mem_range.1 (List.mem_of_find?_eq_some hf)
    have hp := List.find?_some hf
    simp only [Bool.and_eq_true, decide_eq_true_eq] at hp
    rw [ht.leaf_unique hc hv hj hi hp.1 hl hp.2]

end

/-! LUT_DERIVE (R140). -/

section
variable {arena : Memory Node} {nodes root : Nat} {x : Sym}

theorem deriveNode_wf {lut : Memory LutEntry} (h : Memory.wf lutDefault Config.nSymbols lut = true) (i : Nat) :
    Memory.wf lutDefault Config.nSymbols (deriveNode arena nodes root lut i) = true := by
  unfold deriveNode
  split
  · exact writeLut_wf _ _ h
  · exact h

/-- Nodes that are no leaf of `x` leave its entry. -/
theorem read_foldl_deriveNode_other {l : List Nat} {lut : Memory LutEntry}
    (h : ∀ j ∈ l, (nodeAt arena j).leaf = true → (nodeAt arena j).sym ≠ x) :
    Memory.read lutDefault (l.foldl (deriveNode arena nodes root) lut) x.toNat = Memory.read lutDefault lut x.toNat := by
  induction l generalizing lut with
  | nil => rfl
  | cons j rest ih =>
    rw [List.foldl_cons, ih fun k hk => h k (List.mem_cons_of_mem _ hk)]
    unfold deriveNode
    split
    · next hl => exact read_writeLut_other _ _ (h j List.mem_cons_self hl).symm
    · rfl

/-- The one leaf of `x` gives it its path. -/
theorem read_foldl_deriveNode {l : List Nat} {lut : Memory LutEntry} {i : Nat}
    (hw : Memory.wf lutDefault Config.nSymbols lut = true) (hi : i ∈ l) (hl : (nodeAt arena i).leaf = true)
    (hx : (nodeAt arena i).sym = x)
    (hu : ∀ j ∈ l, (nodeAt arena j).leaf = true → (nodeAt arena j).sym = x → j = i) :
    Memory.read lutDefault (l.foldl (deriveNode arena nodes root) lut) x.toNat
      = entryOf (path arena nodes root i) := by
  induction l generalizing lut with
  | nil => simp at hi
  | cons j rest ih =>
    rw [List.foldl_cons]
    by_cases hr : i ∈ rest
    · exact ih (deriveNode_wf hw j) hr fun k hk => hu k (List.mem_cons_of_mem _ hk)
    · obtain rfl : i = j := (List.mem_cons.1 hi).resolve_right hr
      rw [read_foldl_deriveNode_other fun k hk hkl hks => hr (hu k (List.mem_cons_of_mem _ hk) hkl hks ▸ hk),
        deriveNode, if_pos hl, hx]
      exact read_writeLut_same x _ hw

end

section
variable {s t : State}

/-- After LUT_DERIVE every present symbol's entry is its path. -/
theorem lutInv_lutDerived (hw : s.memoriesWf = true) (hc : CountInv s) (ht : TreeInv s) (hv : s.treeValid = true) :
    LutInv (complete { s with lut := deriveLut s.arena s.nodes.toNat s.root.toNat s.lut, lutValid := true }) := by
  obtain ⟨-, -, hlut⟩ := (memoriesWf_iff s).1 hw
  intro _ x hx
  obtain ⟨i, hi, hl, rfl⟩ := ht.exists_leaf hc hv hx
  have hread := read_foldl_deriveNode (nodes := s.nodes.toNat) (root := s.root.toNat) hlut (List.mem_range.2 hi) hl rfl
    fun j hj hlj he => ht.leaf_unique hc hv (List.mem_range.1 hj) hi hlj hl he
  have hcode : codeOf s (s.nodeOf i).sym = some (path s.arena s.nodes.toNat s.root.toNat i) := by
    rw [codeOf, ht.leafIndex_eq hc hv hi hl]
    rfl
  change (codeOf s (s.nodeOf i).sym).map entryOf = some (Memory.read lutDefault (deriveLut _ _ _ _) _)
  rw [hcode, deriveLut]
  exact congrArg some hread.symm

/-! TREE_BUILD (R121). -/

/-- What TREE_BUILD writes for a table that is not empty. -/
theorem treeInv_treeBuilt (hw : s.memoriesWf = true) (hc : CountInv s) (hn : s.nsym ≠ 0#9)
    (ha : t.arena = writeNodes s.arena 0 (buildTree s.freq).nodes)
    (hns : t.nodes = BitVec.ofNat 10 (2 * s.nsym.toNat - 1)) (hr : t.root = BitVec.ofNat 9 (buildTree s.freq).root)
    (hv : t.treeValid = true) (hs : t.nsym = s.nsym) (hf : t.freq = s.freq) :
    TreeInv t ∧ (t.nodeOf 0).leaf = true := by
  obtain ⟨-, harena, -⟩ := (memoriesWf_iff s).1 hw
  have hpos : 1 ≤ s.nsym.toNat := by
    by_contra h
    exact hn (BitVec.eq_of_toNat_eq (by simpa using h))
  have hne : presentSyms s.freq ≠ [] := by
    rw [hc.nsym] at hpos
    exact List.length_pos_iff.1 hpos
  have hle := hc.nsym_le
  have hlen : (buildTree s.freq).nodes.length = 2 * s.nsym.toNat - 1 := by
    rw [buildTree_length hne, hc.nsym]
  have hnodes : t.nodes.toNat = 2 * s.nsym.toNat - 1 := by
    rw [hns, BitVec.toNat_ofNat]
    omega
  have hroot : t.root.toNat = t.nodes.toNat - 1 := by
    have := buildTree_root hne
    rw [hr, BitVec.toNat_ofNat]
    omega
  have hnode : ∀ i, i < t.nodes.toNat → (buildTree t.freq).nodes[i]? = some (t.nodeOf i) := by
    intro i hi
    have hi : i < (buildTree s.freq).nodes.length := by omega
    have := nodeAt_writeNodes_inside _ s.arena 0 i harena (by simpa using buildTree_length_le s.freq) hi
    rw [Nat.zero_add] at this
    rw [State.nodeOf, ha, this, hf, List.getElem?_eq_getElem hi]
  have htree : TreeInv t :=
    ⟨by simp [hv], fun _ => hs ▸ hpos, fun _ => hs ▸ hnodes, fun _ => hroot, fun _ => hnode⟩
  refine ⟨htree, (buildTree_leaf_iff (hf ▸ hne) (hnode 0 (by omega))).2 ?_⟩
  obtain ⟨m, hm⟩ : ∃ m, (leafNodes t.freq)[0]? = some m :=
    ⟨_, List.getElem?_eq_getElem (by simpa [hf] using List.length_pos_iff.2 hne)⟩
  rw [hm, ← hnode 0 (by omega), buildTree_getElem?_of_leafNodes (hf ▸ hne) hm]

/-! The tree and the LUT after one step. -/

/-- TreeInv speaks of the tree and the table only. -/
theorem TreeInv.congr (h : TreeInv s) (hv : t.treeValid = s.treeValid) (hs : t.nsym = s.nsym) (hn : t.nodes = s.nodes)
    (hr : t.root = s.root) (hf : t.freq = s.freq) (ha : t.arena = s.arena) : TreeInv t := by
  obtain ⟨h1, h2, h3, h4, h5⟩ := h
  refine ⟨?_, ?_, ?_, ?_, ?_⟩ <;> simpa only [State.nodeOf, hv, hs, hn, hr, hf, ha]

/-- Without a tree there is nothing to agree with. -/
theorem treeInv_of_noTree (hv : t.treeValid = false) (hn : t.nodes = 0#10) (hr : t.root = 0#9) : TreeInv t :=
  ⟨fun _ => ⟨hn, hr⟩, by simp [hv], by simp [hv], by simp [hv], by simp [hv]⟩

theorem LutInv.congr (h : LutInv s) (hv : t.lutValid = s.lutValid) (hn : t.nodes = s.nodes) (hr : t.root = s.root)
    (hf : t.freq = s.freq) (ha : t.arena = s.arena) (hl : t.lut = s.lut) : LutInv t := by
  cases s
  cases t
  cases hv
  cases hn
  cases hr
  cases hf
  cases ha
  cases hl
  exact h

theorem lutInv_of_noLut (hv : t.lutValid = false) : LutInv t := by
  simp [LutInv, hv]

/-- A command keeps R32, R39 (b) and NODE[0] a leaf. -/
theorem CmdStep.treeInv {i : Instr} (h : CmdStep s i t) (hs : Inv s) : TreeInv t ∧ (t.nodeOf 0).leaf = true := by
  cases h with
  | ftClear | ftAccum | ftLoad | treeEmpty => exact ⟨treeInv_of_noTree rfl rfl rfl, hs.zeroLeaf⟩
  | treeBuilt hn => exact treeInv_treeBuilt hs.memories hs.count hn rfl rfl rfl rfl rfl rfl
  | _ => exact ⟨hs.tree.congr rfl rfl rfl rfl rfl rfl, hs.zeroLeaf⟩

/-- A command keeps R39 (c). -/
theorem CmdStep.lutInv {i : Instr} (h : CmdStep s i t) (hs : Inv s) : LutInv t := by
  cases h with
  | ftClear | ftAccum | ftLoad | treeEmpty | treeBuilt => exact lutInv_of_noLut rfl
  | lutDerived hv => exact lutInv_lutDerived hs.memories hs.count hs.tree hv
  | _ => exact hs.lut.congr rfl rfl rfl rfl rfl rfl

/-! The engine's cursor (R40, R161, R171). -/

theorem engineInv_of_idle (hb : t.busy = false) : EngineInv t := by
  simp [EngineInv, hb]

/-- The cursor that DEC_SYM moves to is a node of the tree. -/
theorem DecMove.node_lt {n : NodeIdx} {src : List Bool} (hm : DecMove s n src) (hs : Inv s) (hb : s.busy = true)
    (hd : decode s.curCmd = some .decSym) : s.treeValid = true ∧ n.toNat < s.nodes.toNat := by
  cases hm with
  | root hp ht hn hsrc => exact ⟨ht, hn ▸ hs.tree.root_lt ht⟩
  | bit b hp hsrc hn =>
    rcases hs.engine.2 hb hp with ⟨sym, he, -⟩ | ⟨-, ht, hlt, hl⟩
    · simp [hd] at he
    · have := hs.tree.child_lt hs.count ht hlt hl b
      exact ⟨ht, by rw [hn]; omega⟩

theorem CmdStep.engineInv {i : Instr} (h : CmdStep s i t) (hs : Inv s) (hb : s.busy = true)
    (hd : decode s.curCmd = some i) : EngineInv t := by
  cases h with
  | held => exact hs.engine
  | @encStarts sym hp hv hf hl =>
    refine ⟨fun _ h => by simp at h, fun _ _ => .inl ⟨sym, hd, hv, hf, ?_⟩⟩
    exact (BitVec.pos_iff_ne_zero _).2 hl
  | @encEmits sym hp ha hl =>
    refine ⟨fun _ h => by simp [emitted, hp] at h, fun _ _ => .inl ?_⟩
    rcases hs.engine.2 hb hp with ⟨sym', he, hv, hf, hlt⟩ | ⟨he, -⟩
    · obtain rfl : sym' = sym := by simpa [hd, eq_comm] using he
      refine ⟨sym', hd, hv, hf, ?_⟩
      change s.encPos + 1#8 < (s.lutOf sym').len
      bv_omega
    · simp [hd] at he
  | decMoves hm hl =>
    obtain ⟨ht, hn⟩ := hm.node_lt hs hb hd
    exact ⟨fun _ h => by simp at h, fun _ _ => .inr ⟨hd, ht, hn, hl⟩⟩
  | _ => exact engineInv_of_idle rfl

/-! Every step keeps every invariant. -/

theorem Inv.setPending (h : Inv s) (p : List HostEvent) : Inv { s with pending := p } :=
  ⟨h.memories, h.status.setPending p, h.count.congr rfl rfl rfl, h.tree.congr rfl rfl rfl rfl rfl rfl,
    h.lut.congr rfl rfl rfl rfl rfl rfl, h.engine, h.zeroLeaf,
    fun hr => congrArg (fun u : State => { u with pending := p }) (h.inReset hr)⟩

/-- The invariants of the tables, from a state with the same ones. -/
theorem SameTables.inv (h : SameTables s t) (hs : Inv s) (hst : StatusInv t) (he : EngineInv t) (hr : InResetInv t) :
    Inv t :=
  ⟨h.memoriesWf hs.memories, hst, h.countInv hs.count,
    hs.tree.congr h.treeValid h.nsym h.nodes h.root h.freq h.arena,
    hs.lut.congr h.lutValid h.nodes h.root h.freq h.arena h.lut, he,
    by rw [State.nodeOf, h.arena]; exact hs.zeroLeaf, hr⟩

/-- The block out of reset need not be in its reset state. -/
theorem inResetInv_of_rstN (hr : t.rstN = true) : InResetInv t := by
  simp [InResetInv, hr]

/-- A command does not drive rst_n. -/
theorem CmdStep.rstN_eq {i : Instr} (h : CmdStep s i t) : t.rstN = s.rstN := by
  cases h <;> rfl

theorem CmdStep.inv {i : Instr} (h : CmdStep s i t) (hs : Inv s) (hr : s.rstN = true) (hb : s.busy = true)
    (hd : decode s.curCmd = some i) : Inv t := by
  obtain ⟨htree, hzero⟩ := h.treeInv hs
  exact ⟨h.memoriesWf hs.memories, h.statusInv hs.status fun he => hs.status.command_of_err he hb hd,
    h.countInv hs.memories hs.count, htree, h.lutInv hs, h.engineInv hs hb hd, hzero,
    inResetInv_of_rstN (h.rstN_eq.trans hr)⟩

/-- The state of R230 meets every invariant whatever the host's side is. -/
theorem resetBlock_inv (s : State) : Inv { resetBlock s with rstN := false } :=
  ⟨rfl, resetBlock_statusInv s, countInv_empty rfl rfl rfl, treeInv_of_noTree rfl rfl rfl, lutInv_of_noLut rfl,
    engineInv_of_idle rfl, rfl, fun _ => rfl⟩

theorem HostStep.engineInv {e : HostEvent} (h : HostStep s e t) (hs : Inv s) : EngineInv t := by
  cases h with
  | accepted => exact ⟨fun _ _ => ⟨rfl, hs.zeroLeaf⟩, fun _ h => by simp at h⟩
  | reset => exact engineInv_of_idle rfl
  | side _ _ ht => rw [ht]; exact hs.engine
  | _ => exact hs.engine

theorem HostStep.inResetInv {e : HostEvent} (h : HostStep s e t) (hs : InResetInv s) : InResetInv t := by
  cases h with
  | data hr | overrun hr | accepted hr => exact inResetInv_of_rstN hr
  | reset => exact fun _ => rfl
  | side _ hr ht =>
    intro hl
    have hs := hs (by simpa [hl] using hr)
    rw [ht]
    exact congrArg (fun u : State =>
      { u with sinkMode := t.sinkMode, src := t.src, eos := t.eos, rstN := t.rstN, reads := t.reads }) hs

theorem HostStep.inv {e : HostEvent} (h : HostStep s e t) (hs : Inv s) : Inv t := by
  by_cases he : e = .setRstN false
  · subst he
    exact h.reset_eq ▸ resetBlock_inv s
  · exact (h.sameTables he).inv hs (h.statusInv hs.status) (h.engineInv hs) (h.inResetInv hs.inReset)

theorem StepKind.inv (h : StepKind s t) (hs : Inv s) : Inv t := by
  cases h with
  | host e rest he h => exact h.inv (hs.setPending rest)
  | idle rest he hi h => exact h ▸ hs.setPending rest
  | illegal rest he hr hb hd h =>
    subst h
    exact SameTables.inv (by constructor <;> rfl) hs (raiseError_statusInv (by simp) hs.status.lut_tree)
      (engineInv_of_idle rfl) (inResetInv_of_rstN hr)
  | command i rest he h =>
    obtain ⟨-, hr, hb, hd⟩ := he
    exact h.inv (hs.setPending rest) hr hb hd

/-- Settles O57: by what each kind of step can do to each part of the state. -/
theorem stepKeepsEveryInvariant : Obligations.StepKeepsEveryInvariant :=
  fun _ _ h hs => (stepKind_of_step h).inv hs

end
end Sys2Proof.Machine
end

section
/-! PROOFS. Noninterference (93 I2, I3, I4): two states meeting the invariants that differ only in what cannot be read
look alike and step alike. The tree and the codewords need no step argument: `Inv` fixes them by FREQ. -/

namespace Sys2Proof.Machine

/-! Codewords depend on the arena's entries below NODES only. -/

section
variable {m m' : Memory Node} {nodes : Nat} (h : ∀ i, i < nodes → nodeAt m i = nodeAt m' i)
include h

theorem parentOf_congr (i : Nat) : parentOf m nodes i = parentOf m' nodes i := by
  unfold parentOf
  rw [List.find?_congr fun j hj => by rw [h j (List.mem_range.1 hj)]]
  cases hf : (List.range nodes).find? _ with
  | none => rfl
  | some j =>
    have hj := h j (List.mem_range.1 (List.mem_of_find?_eq_some hf))
    simp only [hj]

theorem pathUp_congr (root fuel i : Nat) : pathUp m nodes root fuel i = pathUp m' nodes root fuel i := by
  induction fuel generalizing i with
  | zero => rfl
  | succ n ih => simp only [pathUp, parentOf_congr h, ih]

end

/-- States with the same tree have the same codewords. -/
theorem codeOf_congr {a b : State} (hn : a.nodes = b.nodes) (hr : a.root = b.root)
    (h : ∀ i, i < a.nodes.toNat → a.nodeOf i = b.nodeOf i) (x : Sym) : codeOf a x = codeOf b x := by
  have hl : leafIndex a x = leafIndex b x := by
    rw [leafIndex, leafIndex, ← hn]
    exact List.find?_congr fun j hj => by rw [h j (List.mem_range.1 hj)]
  simp only [codeOf, hl, path, ← hn, ← hr, pathUp_congr h]

/-! The parts of the relation. -/

/-- The states agree outside the arena, the LUT and the engine's registers. -/
def SameVisible (a b : State) : Prop :=
  a = { b with arena := a.arena, lut := a.lut, curCmd := a.curCmd, curData := a.curData, phase := a.phase,
               encPos := a.encPos, decNode := a.decNode }

/-- The states agree on the command in flight and on the part of the cursor it uses. -/
structure SameEngine (a b : State) : Prop where
  command : a.busy = true → a.curCmd = b.curCmd ∧ a.curData = b.curData ∧ a.phase = b.phase
  encCursor : a.busy = true → a.phase = .running → ∀ sym, decode a.curCmd = some (.encSym sym) → a.encPos = b.encPos
  decCursor : a.busy = true → a.phase = .running → decode a.curCmd = some .decSym → a.decNode = b.decNode

section
variable {a b a' b' : State}

/-- A state that agrees visibly with `b` is `b` with other unreadable contents. -/
theorem SameVisible.overlay (h : SameVisible a b) : ∃ A L c d p e n,
    a = { b with arena := A, lut := L, curCmd := c, curData := d, phase := p, encPos := e, decNode := n } :=
  ⟨_, _, _, _, _, _, _, h⟩

section
variable (h : SameVisible a b)
include h

theorem SameVisible.busy : a.busy = b.busy := (congrArg State.busy h :)
theorem SameVisible.treeValid : a.treeValid = b.treeValid := (congrArg State.treeValid h :)
theorem SameVisible.lutValid : a.lutValid = b.lutValid := (congrArg State.lutValid h :)
theorem SameVisible.nsym : a.nsym = b.nsym := (congrArg State.nsym h :)
theorem SameVisible.total : a.total = b.total := (congrArg State.total h :)
theorem SameVisible.nodes : a.nodes = b.nodes := (congrArg State.nodes h :)
theorem SameVisible.root : a.root = b.root := (congrArg State.root h :)
theorem SameVisible.freq : a.freq = b.freq := (congrArg State.freq h :)
theorem SameVisible.sink : a.sink = b.sink := (congrArg State.sink h :)
theorem SameVisible.sinkMode : a.sinkMode = b.sinkMode := (congrArg State.sinkMode h :)
theorem SameVisible.src : a.src = b.src := (congrArg State.src h :)
theorem SameVisible.eos : a.eos = b.eos := (congrArg State.eos h :)
theorem SameVisible.rstN : a.rstN = b.rstN := (congrArg State.rstN h :)
theorem SameVisible.pending : a.pending = b.pending := (congrArg State.pending h :)
theorem SameVisible.reads : a.reads = b.reads := (congrArg State.reads h :)

theorem SameVisible.freqOf (x : Sym) : a.freqOf x = b.freqOf x := by
  rw [State.freqOf, State.freqOf, h.freq]

/-- The same error is raised for the same word in flight. -/
theorem SameVisible.raiseError (hc : a.curCmd = b.curCmd) (code : ErrCode) :
    SameVisible (raiseError code a) (raiseError code b) := by
  obtain ⟨A, L, c, d, p, e, n, rfl⟩ := h.overlay
  exact congrArg (fun w => ({ Machine.raiseError code b with
    arena := A, lut := L, curCmd := c, curData := d, phase := p, encPos := e, decNode := n, errCmd := w } : State)) hc

theorem SameVisible.completeWith (v : Word) : SameVisible (completeWith v a) (completeWith v b) := by
  obtain ⟨A, L, c, d, p, e, n, rfl⟩ := h.overlay
  rfl

end

theorem sameEngine_of_idle (hb : a.busy = false) : SameEngine a b := by
  constructor <;> simp [hb]

/-- Under the invariants equal tables have equal trees and codewords, so the arena and the LUT need no thought. -/
theorem sameButUnreadable_of_inv (ha : Inv a) (hb : Inv b) (hv : SameVisible a b) (he : SameEngine a b) :
    SameButUnreadable a b := by
  have harena : a.treeValid = true → ∀ i, i < a.nodes.toNat → a.nodeOf i = b.nodeOf i := by
    intro ht i hi
    have h1 := ha.tree.arena ht i hi
    have h2 := hb.tree.arena (hv.treeValid ▸ ht) i (hv.nodes ▸ hi)
    rw [← hv.freq, h1] at h2
    exact Option.some.inj h2
  refine ⟨hv, harena, fun hl x hx => ?_, he.command, he.encCursor, he.decCursor⟩
  have h1 := ha.lut hl x hx
  have h2 := hb.lut (hv.lutValid ▸ hl) x (hv.freqOf x ▸ hx)
  rw [← codeOf_congr hv.nodes hv.root (harena (ha.status.lut_tree hl)), h1] at h2
  exact Option.some.inj h2

theorem SameButUnreadable.visible (h : SameButUnreadable a b) : SameVisible a b := h.others

theorem SameButUnreadable.engine (h : SameButUnreadable a b) : SameEngine a b :=
  ⟨h.command, h.encCursor, h.decCursor⟩

/-- The list of host actions is no part of it. -/
theorem SameButUnreadable.setPending (h : SameButUnreadable a b) (p : List HostEvent) :
    SameButUnreadable { a with pending := p } { b with pending := p } :=
  ⟨congrArg (fun u : State => { u with pending := p }) h.others, h.arena, h.lut, h.command, h.encCursor, h.decCursor⟩

/-- What an ENC_SYM past its start step reads. -/
theorem SameButUnreadable.enc_eq (h : SameButUnreadable a b) (ha : Inv a) (hb : a.busy = true)
    (hp : a.phase = .running) {sym : Sym} (hd : decode a.curCmd = some (.encSym sym)) :
    a.lutOf sym = b.lutOf sym ∧ a.encPos = b.encPos := by
  refine ⟨?_, h.encCursor hb hp sym hd⟩
  rcases ha.engine.2 hb hp with ⟨sym', hd', hv, hf, -⟩ | ⟨hd', -⟩
  · obtain rfl : sym' = sym := by simpa [hd, eq_comm] using hd'
    exact h.lut hv _ hf
  · simp [hd] at hd'

/-- What a DEC_SYM past its start step reads: its node, and the node either bit leads to. -/
theorem SameButUnreadable.dec_eq (h : SameButUnreadable a b) (ha : Inv a) (hb : a.busy = true)
    (hp : a.phase = .running) (hd : decode a.curCmd = some .decSym) :
    a.decNode = b.decNode ∧ a.nodeOf a.decNode.toNat = b.nodeOf b.decNode.toNat
      ∧ ∀ bit n, n = childOf (a.nodeOf a.decNode.toNat) bit → a.nodeOf n.toNat = b.nodeOf n.toNat := by
  have hn := h.decCursor hb hp hd
  rcases ha.engine.2 hb hp with ⟨_, hd', -⟩ | ⟨-, ht, hlt, hl⟩
  · simp [hd] at hd'
  · refine ⟨hn, hn ▸ h.arena ht _ hlt, ?_⟩
    rintro bit n rfl
    have := ha.tree.child_lt ha.count ht hlt hl bit
    exact h.arena ht _ (by omega)

/-! What the host sees. -/

/-- Before its start step a command offers no bit (log 8). -/
theorem EngineInv.obitValid_start (h : EngineInv a) (hp : a.phase = .start) : obitValid a = false := by
  cases hb : a.busy with
  | false => simp [obitValid, State.encoding, hb]
  | true =>
    unfold obitValid
    rw [(h.1 hb hp).1]
    split
    · simp only [decide_eq_false_iff_not]
      bv_omega
    · rfl

/-- Before its start step a command asks for no bit (log 8). -/
theorem EngineInv.ibitReady_start (h : EngineInv a) (hp : a.phase = .start) : ibitReady a = false := by
  cases hb : a.busy with
  | false => simp [ibitReady, State.decoding, hb]
  | true => simp [ibitReady, (h.1 hb hp).2]

/-- The output port shows the same. -/
theorem SameButUnreadable.obit_eq (h : SameButUnreadable a b) (ha : Inv a) (hb : Inv b) :
    obitValid a = obitValid b ∧ (obitValid a && obitData a) = (obitValid b && obitData b) := by
  have hbusy := h.visible.busy
  cases hab : a.busy with
  | false => simp [obitValid, State.encoding, hab, ← hbusy]
  | true =>
    obtain ⟨hcmd, -, hphase⟩ := h.command hab
    cases hp : a.phase with
    | start => simp [ha.engine.obitValid_start hp, hb.engine.obitValid_start (hphase ▸ hp)]
    | running =>
      rcases ha.engine.2 hab hp with ⟨sym, hd, -⟩ | ⟨hd, -⟩
      · obtain ⟨hl, hpos⟩ := h.enc_eq ha hab hp hd
        simp [obitValid, obitData, State.encoding, hab, ← hbusy, ← hcmd, hd, hl, hpos]
      · simp [obitValid, State.encoding, hab, ← hbusy, ← hcmd, hd]

/-- The input port shows the same. -/
theorem SameButUnreadable.ibit_eq (h : SameButUnreadable a b) (ha : Inv a) (hb : Inv b) :
    ibitReady a = ibitReady b := by
  have hbusy := h.visible.busy
  cases hab : a.busy with
  | false => simp [ibitReady, State.decoding, hab, ← hbusy]
  | true =>
    obtain ⟨hcmd, -, hphase⟩ := h.command hab
    cases hp : a.phase with
    | start => simp [ha.engine.ibitReady_start hp, hb.engine.ibitReady_start (hphase ▸ hp)]
    | running =>
      rcases ha.engine.2 hab hp with ⟨sym, hd, -⟩ | ⟨hd, -⟩
      · simp [ibitReady, State.decoding, ← hcmd, hd]
      · obtain ⟨-, hn, -⟩ := h.dec_eq ha hab hp hd
        simp [ibitReady, State.decoding, hab, ← hbusy, ← hcmd, hn]

/-- A register reads what its field and the levels of the ports say. -/
theorem readReg_congr (hv : SameVisible a b) (ho : obitValid a = obitValid b) (hi : ibitReady a = ibitReady b)
    (idx : BitVec 4) : readReg a idx = readReg b idx := by
  have hs : statusWord a = statusWord b := by
    have hin : holdIn a = holdIn b := by
      rw [holdIn, holdIn, hi, hv.src, hv.eos]
    have hout : holdOut a = holdOut b := by
      rw [holdOut, holdOut, ho, hv.sinkMode]
    obtain ⟨A, L, c, d, p, e, n, rfl⟩ := hv.overlay
    simp only [statusWord, hin, hout]
  unfold readReg
  rw [hs]
  obtain ⟨A, L, c, d, p, e, n, rfl⟩ := hv.overlay
  rfl

theorem SameButUnreadable.readReg_eq (h : SameButUnreadable a b) (ha : Inv a) (hb : Inv b) (idx : BitVec 4) :
    readReg a idx = readReg b idx :=
  readReg_congr h.visible (h.obit_eq ha hb).1 (h.ibit_eq ha hb) idx

/-- The host's views agree. -/
theorem SameButUnreadable.view_eq (h : SameButUnreadable a b) (ha : Inv a) (hb : Inv b) : viewOf a = viewOf b := by
  obtain ⟨hvalid, hdata⟩ := h.obit_eq ha hb
  simp only [viewOf, h.readReg_eq ha hb, h.ibit_eq ha hb, hdata, h.visible.sink,
    h.visible.src, h.visible.reads]
  rw [hvalid]

/-! A host action. -/

/-- A register write acts alike on both, and leaves or sets the engine's registers alike. -/
theorem SameButUnreadable.writeReg (h : SameButUnreadable a b) (idx : BitVec 4) (v : Word) :
    SameVisible (writeReg idx v a) (writeReg idx v b) ∧ SameEngine (writeReg idx v a) (writeReg idx v b) := by
  obtain ⟨hcmd, henc, hdec⟩ := h.engine
  obtain ⟨A, L, c, d, p, e, n, rfl⟩ := h.visible.overlay
  simp only [Machine.writeReg, writeCmd]
  split
  · exact ⟨rfl, hcmd, henc, hdec⟩
  split
  · split
    · exact ⟨rfl, hcmd, henc, hdec⟩
    split
    · exact ⟨rfl, hcmd, henc, hdec⟩
    · exact ⟨rfl, fun _ => ⟨rfl, rfl, rfl⟩, fun _ _ _ _ => rfl, fun _ _ _ => rfl⟩
  split
  · exact ⟨rfl, hcmd, henc, hdec⟩
  · exact ⟨rfl, hcmd, henc, hdec⟩

/-- A host action acts alike on both. -/
theorem SameButUnreadable.host (h : SameButUnreadable a b) (hr : ∀ idx, readReg a idx = readReg b idx) (e : HostEvent) :
    SameVisible (applyHostEvent e a) (applyHostEvent e b) ∧ SameEngine (applyHostEvent e a) (applyHostEvent e b) := by
  obtain ⟨hcmd, henc, hdec⟩ := h.engine
  cases e with
  | writeReg idx v => exact h.writeReg idx v
  | readReg idx =>
    simp only [applyHostEvent, hr idx]
    obtain ⟨A, L, c, d, p, e, n, rfl⟩ := h.visible.overlay
    exact ⟨rfl, hcmd, henc, hdec⟩
  | setRstN level =>
    obtain ⟨A, L, c, d, p, e, n, rfl⟩ := h.visible.overlay
    cases level
    · exact ⟨rfl, sameEngine_of_idle rfl⟩
    · exact ⟨rfl, hcmd, henc, hdec⟩
  | _ =>
    obtain ⟨A, L, c, d, p, e, n, rfl⟩ := h.visible.overlay
    exact ⟨rfl, hcmd, henc, hdec⟩

/-! An engine step. -/

/-- The codeword check answers alike, and where it passes the codewords are the same. -/
theorem SameButUnreadable.codeword_eq (h : SameButUnreadable a b) (sym : Sym) :
    codewordError a sym = codewordError b sym ∧ (codewordError b sym = none → a.lutOf sym = b.lutOf sym) := by
  have hv := h.visible
  refine ⟨by simp only [codewordError, hv.lutValid, hv.freqOf], fun hc => ?_⟩
  obtain ⟨hl, hf⟩ := codewordError_eq_none.1 hc
  exact h.lut (hv.lutValid ▸ hl) sym (hv.freqOf sym ▸ hf)

/-- A command that ends in one step acts alike on both. -/
theorem SameButUnreadable.exec_visible (h : SameButUnreadable a b) (hcmd : a.curCmd = b.curCmd)
    (hdata : a.curData = b.curData) {i : Instr} (hi : ∀ sym, i ≠ .encSym sym) (hi' : i ≠ .decSym)
    (hxa : exec i a = .next a') (hxb : exec i b = .next b') : SameVisible a' b' := by
  have hv := h.visible
  obtain ⟨A, L, c, d, p, e, n, he⟩ := hv.overlay
  cases i with
  | nop | ftClear | errClear => cases hxa; cases hxb; subst he; rfl
  | ftAccum sym =>
    simp only [exec, execFtAccum, hv.total, hv.freqOf] at hxa hxb
    split_ifs at hxa hxb <;> cases hxa <;> cases hxb
    · exact hv.raiseError hcmd _
    · subst he; rfl
    · subst he; rfl
  | ftLoad sym =>
    have ht : loadTotal a sym = loadTotal b sym := by
      simp only [loadTotal, State.loadOperand, hv.total, hv.freqOf, hdata]
    simp only [exec, execFtLoad, ht, State.loadOperand, hdata] at hxa hxb
    split_ifs at hxa hxb <;> cases hxa <;> cases hxb
    · exact hv.raiseError hcmd _
    · subst he; rfl
  | ftRead sym =>
    cases hxa
    cases hxb
    exact hv.freqOf sym ▸ hv.completeWith _
  | treeBuild =>
    simp only [exec, execTreeBuild, hv.nsym] at hxa hxb
    split_ifs at hxa hxb <;> cases hxa <;> cases hxb <;> subst he <;> rfl
  | nodeRead node fsel =>
    simp only [exec, execNodeRead, hv.treeValid, hv.nodes] at hxa hxb
    split_ifs at hxa hxb with ht hn <;> cases hxa <;> cases hxb
    · exact hv.raiseError hcmd _
    · exact hv.raiseError hcmd _
    · have hnode := h.arena (by simpa [hv.treeValid] using ht) node.toNat (by rw [hv.nodes]; omega)
      exact hnode ▸ hv.completeWith _
  | lutDerive =>
    simp only [exec, execLutDerive, hv.treeValid] at hxa hxb
    split_ifs at hxa hxb <;> cases hxa <;> cases hxb
    · exact hv.raiseError hcmd _
    · subst he; rfl
  | lutLen sym | lutWord sym =>
    obtain ⟨hc, hl⟩ := h.codeword_eq sym
    simp only [exec, execLutLen, execLutWord, hc] at hxa hxb
    cases hcb : codewordError b sym with
    | some code =>
      simp only [hcb] at hxa hxb
      cases hxa
      cases hxb
      exact hv.raiseError hcmd _
    | none =>
      simp only [hcb] at hxa hxb
      cases hxa
      cases hxb
      exact hl hcb ▸ hv.completeWith _
  | encSym sym => exact absurd rfl (hi sym)
  | decSym => exact absurd rfl hi'

/-- One more bit of the same codeword. -/
theorem SameVisible.emitted (h : SameVisible a b) {sym : Sym} (hl : a.lutOf sym = b.lutOf sym)
    (hp : a.encPos = b.encPos) : SameVisible (emitted sym a) (emitted sym b) := by
  simp only [Machine.emitted, hl, hp]
  obtain ⟨A, L, c, d, p, e, n, rfl⟩ := h.overlay
  rfl

/-- ENC_SYM acts alike on both. -/
theorem SameButUnreadable.encSym (h : SameButUnreadable a b) (ha : Inv a) (hb : a.busy = true) {sym : Sym}
    (hd : decode a.curCmd = some (.encSym sym)) (hxa : exec (.encSym sym) a = .next a')
    (hxb : exec (.encSym sym) b = .next b') : SameVisible a' b' ∧ SameEngine a' b' := by
  have hv := h.visible
  obtain ⟨hcmd, hdata, hphase⟩ := h.command hb
  have hd' : decode a.curCmd ≠ some .decSym := by simp [hd]
  cases hp : a.phase with
  | start =>
    obtain ⟨hc, hl⟩ := h.codeword_eq sym
    cases (exec_encSym_start sym hp).symm.trans hxa
    cases (exec_encSym_start sym (hphase ▸ hp)).symm.trans hxb
    simp only [encStart, hc]
    cases hcb : codewordError b sym with
    | some code => exact ⟨hv.raiseError hcmd _, sameEngine_of_idle rfl⟩
    | none =>
      simp only [hl hcb]
      obtain ⟨A, L, c, d, p, e, n, he⟩ := hv.overlay
      split
      · refine ⟨?_, sameEngine_of_idle rfl⟩
        subst he
        rfl
      · refine ⟨?_, fun _ => ⟨hcmd, hdata, rfl⟩, fun _ _ _ _ => rfl, fun _ _ hx => absurd hx hd'⟩
        subst he
        rfl
  | running =>
    obtain ⟨hl, hpos⟩ := h.enc_eq ha hb hp hd
    have hem := hv.emitted hl hpos
    cases (exec_encSym_running sym hp).symm.trans hxa
    cases (exec_encSym_running sym (hphase ▸ hp)).symm.trans hxb
    cases hacc : a.sinkMode.accepts with
    | false =>
      rw [encEmit_of_not_accepts sym hacc, encEmit_of_not_accepts sym (hv.sinkMode ▸ hacc)]
      exact ⟨hv, h.engine⟩
    | true =>
      rw [encEmit_of_accepts sym hacc, encEmit_of_accepts sym (hv.sinkMode ▸ hacc), hl, hpos]
      split
      · refine ⟨?_, sameEngine_of_idle rfl⟩
        obtain ⟨A, L, c, d, p, e, n, he⟩ := hem.overlay
        rw [he]
        rfl
      · refine ⟨hem, fun _ => ⟨hcmd, hdata, hphase⟩, fun _ _ _ _ => ?_, fun _ _ hx => absurd hx hd'⟩
        exact congrArg (· + 1#8) hpos

/-- Arriving at a node that is the same in both acts alike. -/
theorem SameVisible.decArrive (hv : SameVisible a b) (hcmd : a.curCmd = b.curCmd) (hdata : a.curData = b.curData)
    (hd : decode a.curCmd = some .decSym) {n : NodeIdx} (hn : a.nodeOf n.toNat = b.nodeOf n.toNat) :
    SameVisible (decArrive n a) (decArrive n b) ∧ SameEngine (decArrive n a) (decArrive n b) := by
  simp only [Machine.decArrive, hn]
  obtain ⟨A, L, c, d, p, e, m, he⟩ := hv.overlay
  split
  · refine ⟨?_, sameEngine_of_idle rfl⟩
    subst he
    rfl
  · refine ⟨?_, fun _ => ⟨hcmd, hdata, rfl⟩, fun _ _ sym hx => ?_, fun _ _ _ => rfl⟩
    · subst he
      rfl
    · simp [hd] at hx

/-- DEC_SYM acts alike on both. -/
theorem SameButUnreadable.decSym (h : SameButUnreadable a b) (ha : Inv a) (hb : a.busy = true)
    (hd : decode a.curCmd = some .decSym) (hxa : exec .decSym a = .next a')
    (hxb : exec .decSym b = .next b') : SameVisible a' b' ∧ SameEngine a' b' := by
  have hv := h.visible
  obtain ⟨hcmd, hdata, hphase⟩ := h.command hb
  cases hp : a.phase with
  | start =>
    cases (exec_decSym_start hp).symm.trans hxa
    cases (exec_decSym_start (hphase ▸ hp)).symm.trans hxb
    simp only [decStart, hv.treeValid, hv.root]
    split
    · exact ⟨hv.raiseError hcmd _, sameEngine_of_idle rfl⟩
    · next ht =>
      have ht : a.treeValid = true := by simpa [hv.treeValid] using ht
      exact hv.decArrive hcmd hdata hd (h.arena ht _ (hv.root ▸ ha.tree.root_lt ht))
  | running =>
    obtain ⟨-, hnode, hchild⟩ := h.dec_eq ha hb hp hd
    cases (exec_decSym_running hp).symm.trans hxa
    cases (exec_decSym_running (hphase ▸ hp)).symm.trans hxb
    rcases decBit_cases a with ⟨bit, rest, hs, he⟩ | ⟨hs, he, hbit⟩ | ⟨hs, he, hbit⟩
    · rw [he, decBit_of_bit (hv.src ▸ hs), ← hnode]
      have hv' : SameVisible { a with src := rest } { b with src := rest } := by
        obtain ⟨A, L, c, d, p, e, m, rfl⟩ := hv.overlay
        rfl
      exact hv'.decArrive hcmd hdata hd (hchild bit _ rfl)
    · rw [hbit, decBit_of_eos (hv.src ▸ hs) (hv.eos ▸ he)]
      exact ⟨hv.raiseError hcmd _, sameEngine_of_idle rfl⟩
    · rw [hbit, decBit_of_hold (hv.src ▸ hs) (hv.eos ▸ he)]
      exact ⟨hv, h.engine⟩

/-- An engine step of the command in flight acts alike on both. -/
theorem SameButUnreadable.exec (h : SameButUnreadable a b) (ha : Inv a) (hb : a.busy = true) {i : Instr}
    (hd : decode a.curCmd = some i) (hxa : exec i a = .next a') (hxb : exec i b = .next b') :
    SameVisible a' b' ∧ SameEngine a' b' := by
  by_cases henc : ∃ sym, i = .encSym sym
  · obtain ⟨sym, rfl⟩ := henc
    exact h.encSym ha hb hd hxa hxb
  by_cases hdec : i = .decSym
  · subst hdec
    exact h.decSym ha hb hd hxa hxb
  obtain ⟨hcmd, hdata, -⟩ := h.command hb
  refine ⟨h.exec_visible hcmd hdata (fun sym e => henc ⟨sym, e⟩) hdec hxa hxb, sameEngine_of_idle ?_⟩
  by_contra hbusy
  obtain ⟨hi, -⟩ := (cmdStep_of_exec hxa).goesOn (by simpa using hbusy)
  exact hi.elim henc hdec

/-- The engine's turn acts alike on both. -/
theorem SameButUnreadable.engineStep (h : SameButUnreadable a b) (ha : Inv a) (hxa : engineStep a = .next a')
    (hxb : engineStep b = .next b') : SameVisible a' b' ∧ SameEngine a' b' := by
  have hv := h.visible
  by_cases hi : b.busy = false ∨ b.rstN = false
  · rw [engineStep_idle (hv.busy ▸ hv.rstN ▸ hi)] at hxa
    rw [engineStep_idle hi] at hxb
    cases hxa
    cases hxb
    exact ⟨hv, h.engine⟩
  obtain ⟨hb, hr⟩ : b.busy = true ∧ b.rstN = true := by simpa using hi
  obtain ⟨hcmd, -, -⟩ := h.command (hv.busy.trans hb)
  cases hd : decode b.curCmd with
  | none =>
    rw [engineStep_illegal (hv.rstN.trans hr) (hv.busy.trans hb) (hcmd ▸ hd)] at hxa
    rw [engineStep_illegal hr hb hd] at hxb
    cases hxa
    cases hxb
    exact ⟨hv.raiseError hcmd _, sameEngine_of_idle rfl⟩
  | some i =>
    rw [engineStep_run (hv.rstN.trans hr) (hv.busy.trans hb) (hcmd ▸ hd)] at hxa
    rw [engineStep_run hr hb hd] at hxb
    exact h.exec ha (hv.busy.trans hb) (hcmd ▸ hd) hxa hxb

/-- The next move is the same one's in both. -/
theorem SameVisible.turnOf_eq (h : SameVisible a b) : turnOf a = turnOf b := by
  unfold turnOf
  rw [h.pending, h.busy]

/-- A step acts alike on both. -/
theorem SameButUnreadable.step (h : SameButUnreadable a b) (ha : Inv a) (hb : Inv b) (hxa : step a = .next a')
    (hxb : step b = .next b') : SameVisible a' b' ∧ SameEngine a' b' := by
  cases ht : turnOf b with
  | host e rest =>
    rw [step_of_host (h.visible.turnOf_eq.trans ht)] at hxa
    rw [step_of_host ht] at hxb
    cases hxa
    cases hxb
    exact (h.setPending rest).host (h.readReg_eq ha hb) e
  | engine rest =>
    rw [step_of_engine (h.visible.turnOf_eq.trans ht)] at hxa
    rw [step_of_engine ht] at hxb
    exact (h.setPending rest).engineStep (ha.setPending rest) hxa hxb

end

/-- Settles O58: the invariants hold in both states after the step (O57), so only what the host sees and the command in
flight have to be followed through it. -/
theorem unspecifiedContentsAreNeverObserved : Obligations.UnspecifiedContentsAreNeverObserved := by
  intro a b ha hb h
  refine ⟨h.view_eq ha hb, fun a' b' hxa hxb => ?_⟩
  obtain ⟨hv, he⟩ := h.step ha hb hxa hxb
  exact sameButUnreadable_of_inv (stepKeepsEveryInvariant a a' hxa ha) (stepKeepsEveryInvariant b b' hxb hb) hv he

end Sys2Proof.Machine
end

section
/-! PROOFS. The step, the registers and STATUS (10_state R22 to R27, R40 to R43): what each move of the host or the engine
is, as an equation. -/

namespace Sys2Proof

/-! A command's word decodes to the command (30_encoding R85). -/

/-- A command's word spells its mnemonic. -/
theorem spells_encode (i : Instr) : spells (encode i) i.mnemonic = true := by
  cases i with
  | nop => exact Laws.Spells.nop
  | ftClear => exact Laws.Spells.ftClear
  | ftAccum sym => exact Laws.Spells.ftAccum sym
  | ftLoad sym => exact Laws.Spells.ftLoad sym
  | ftRead sym => exact Laws.Spells.ftRead sym
  | treeBuild => exact Laws.Spells.treeBuild
  | nodeRead node fsel => exact Laws.Spells.nodeRead node fsel
  | lutDerive => exact Laws.Spells.lutDerive
  | lutLen sym => exact Laws.Spells.lutLen sym
  | lutWord sym widx => exact Laws.Spells.lutWord sym widx
  | encSym sym => exact Laws.Spells.encSym sym
  | decSym => exact Laws.Spells.decSym
  | errClear => exact Laws.Spells.errClear

/-- The low bits of a value padded to a word are the value. -/
theorem extractLsb'_zext32 {n : Nat} (v : BitVec n) (hn : n ≤ 32) : (zext32 v).extractLsb' 0 n = v := by
  refine BitVec.eq_of_toNat_eq ?_
  have hlt : v.toNat < 2 ^ 32 := lt_of_lt_of_le v.isLt (Nat.pow_le_pow_right (by decide) hn)
  simp only [zext32, BitVec.extractLsb'_toNat, BitVec.toNat_setWidth, Nat.shiftRight_zero]
  rw [Nat.mod_eq_of_lt hlt, Nat.mod_eq_of_lt v.isLt]

/-- A match word has its symbol field 0. -/
theorem fieldSym_matchOf_or (m : Mnemonic) (w : Word) : fieldSym (matchOf m ||| w) = fieldSym w := by
  have hm : (matchOf m).extractLsb' 0 8 = 0#8 := by cases m <;> decide
  rw [fieldSym, BitVec.extractLsb'_or, hm, BitVec.zero_or, fieldSym]

theorem fieldSym_zext32 (sym : Sym) : fieldSym (zext32 sym) = sym := extractLsb'_zext32 sym (by decide)

/-- LUT_WORD's fields (R82). -/
theorem fields_lutWord (sym : Sym) (widx : BitVec 3) :
    fieldSym (encode (.lutWord sym widx)) = sym ∧ fieldWidx (encode (.lutWord sym widx)) = widx := by
  have hw : (zext32 widx <<< 8).extractLsb' 0 8 = 0#8 ∧ (zext32 widx <<< 8).extractLsb' 8 3 = widx := by
    revert widx
    decide
  have hs : (zext32 sym).extractLsb' 8 3 = 0#3 := by
    ext j hj
    simp [zext32]
  constructor
  · rw [encode, BitVec.or_assoc, fieldSym_matchOf_or, fieldSym, BitVec.extractLsb'_or, hw.1, BitVec.zero_or]
    exact fieldSym_zext32 sym
  · have hm : (matchOf .lutWord).extractLsb' 8 3 = 0#3 := by decide
    rw [encode, fieldWidx, BitVec.extractLsb'_or, BitVec.extractLsb'_or, hm, hs, hw.2, BitVec.zero_or, BitVec.or_zero]

/-- NODE_READ's fields (R82, R83). -/
theorem fields_nodeRead (node : NodeIdx) (fsel : FSel) :
    fieldNode (encode (.nodeRead node fsel)) = node ∧ fieldFsel (encode (.nodeRead node fsel)) = fsel.toBits := by
  have hf : (zext32 fsel.toBits <<< 12).extractLsb' 0 9 = 0#9
      ∧ (zext32 fsel.toBits <<< 12).extractLsb' 12 2 = fsel.toBits := by
    cases fsel <;> decide
  have hn : (zext32 node).extractLsb' 12 2 = 0#2 := by
    ext j hj
    simp [zext32, BitVec.getLsbD_of_ge node (12 + j) (by omega)]
  have hm : (matchOf .nodeRead).extractLsb' 0 9 = 0#9 ∧ (matchOf .nodeRead).extractLsb' 12 2 = 0#2 := by decide
  constructor
  · rw [encode, fieldNode, BitVec.extractLsb'_or, BitVec.extractLsb'_or, hm.1, hf.1, BitVec.zero_or, BitVec.zero_or]
    exact extractLsb'_zext32 node (by decide)
  · rw [encode, fieldFsel, BitVec.extractLsb'_or, BitVec.extractLsb'_or, hm.2, hf.2, hn, BitVec.zero_or,
      BitVec.or_zero]

/-- The operands read back are the command's. -/
theorem commandOf_encode (i : Instr) : commandOf i.mnemonic (encode i) = i := by
  cases i with
  | lutWord sym widx =>
    obtain ⟨hs, hw⟩ := fields_lutWord sym widx
    simp only [Instr.mnemonic, commandOf, hs, hw]
  | nodeRead node fsel =>
    obtain ⟨hn, hf⟩ := fields_nodeRead node fsel
    simp only [Instr.mnemonic, commandOf, hn, hf, FSel.ofBits_toBits]
  | ftAccum sym | ftLoad sym | ftRead sym | lutLen sym | encSym sym =>
    simp only [Instr.mnemonic, commandOf, encode, fieldSym_matchOf_or, fieldSym_zext32]
  | _ => rfl

/-- A command's word decodes to the command. -/
theorem decode_encode (i : Instr) : decode (encode i) = some i := by
  have hs := spells_encode i
  have ho : mnemonicOf (fieldOpc (encode i)) = some i.mnemonic := by
    rw [fieldOpc_of_spells hs, fieldOpc_matchOf, mnemonicOf_opcodeOf]
  simp only [decode, ho, hs, if_true, commandOf_encode]

end Sys2Proof
end

section
namespace Sys2Proof.Machine

section
variable {s t : State}

/-! Whose step it is. -/

/-- With nothing for the host to do the state is already as the engine finds it. -/
theorem step_of_nil (h : s.pending = []) : step s = engineStep s := by
  rw [step_of_engine (turnOf_nil h), ← h]

theorem step_of_wait_busy {rest : List HostEvent} (h : s.pending = .wait :: rest) (hb : s.busy = true) :
    step s = engineStep s := by
  rw [step_of_engine (turnOf_wait_busy h hb)]

theorem step_of_yield {rest : List HostEvent} (h : s.pending = .yield :: rest) :
    step s = engineStep { s with pending := rest } :=
  step_of_engine (turnOf_yield h)

/-- A host action but `yield` and `wait` is the step. -/
theorem step_of_action {e : HostEvent} {rest : List HostEvent} (h : s.pending = e :: rest) (hy : e ≠ .yield)
    (hw : e ≠ .wait) : step s = .next (applyHostEvent e { s with pending := rest }) :=
  step_of_host (turnOf_action h hy hw)

/-- Before any host action still to come a `yield` is put. -/
theorem giveEngineTurn_cons {e : HostEvent} {rest : List HostEvent} (h : s.pending = e :: rest) :
    giveEngineTurn s = { s with pending := .yield :: s.pending } := by
  simp only [giveEngineTurn, h]

/-- Given the engine, a step is the engine's whatever the host has still to do. -/
theorem step_giveEngineTurn (s : State) : step (giveEngineTurn s) = engineStep s := by
  cases hp : s.pending with
  | nil =>
    rw [show giveEngineTurn s = s by simp only [giveEngineTurn, hp], step_of_nil hp]
  | cons e rest =>
    rw [giveEngineTurn_cons hp]
    exact step_of_yield rfl

/-- Settles O7: in each of the three cases the step is the engine's turn. -/
theorem stepRunsTheCommandInFlight : Obligations.StepRunsTheCommandInFlight := by
  intro s i hr hb hd
  refine ⟨fun hp => ?_, fun rest hp => ?_, fun rest hp => ?_⟩
  · rw [step_of_nil hp, engineStep_run hr hb hd]
  · rw [step_of_yield hp]
    exact engineStep_run hr hb hd
  · rw [step_of_wait_busy hp hb, engineStep_run hr hb hd]

theorem tableWord_encode (i : Instr) : tableWord 32 (encode i).toNat = encode i := by
  refine BitVec.eq_of_toNat_eq ?_
  have := (encode i).isLt
  simp only [tableWord, BitVec.toNat_ofNat]
  omega

/-- Settles O8: the word decodes to its command, and the engine has the step. -/
theorem fetchedWordIsTheNextStep : Obligations.FetchedWordIsTheNextStep := by
  intro s i
  rw [State.withFetchWord, tableWord_encode, step_giveEngineTurn]
  exact engineStep_run rfl rfl (decode_encode i)

/-! Register accesses. -/

/-- Out of reset a write to CMD is R24's. -/
theorem writeReg_cmd (w : Word) (hr : s.rstN = true) : writeReg 0 w s = writeCmd w s := by
  simp [writeReg, hr, Config.idxCmd]

/-- Out of reset a write to DATA sets it. -/
theorem writeReg_data (v : Word) (hr : s.rstN = true) : writeReg 1 v s = { s with data := v } := by
  simp [writeReg, hr, Config.idxCmd, Config.idxData]

/-- A write to any other register has no effect (R23). -/
theorem writeReg_other {idx : BitVec 4} (v : Word) (h0 : idx ≠ 0) (h1 : idx ≠ 1) : writeReg idx v s = s := by
  have h0 : idx ≠ Config.idxCmd := h0
  have h1 : idx ≠ Config.idxData := h1
  simp only [writeReg, if_neg h0, if_neg h1, ite_self]

/-- CMD and the reserved indices read 0 (R23). -/
theorem readReg_zero {idx : BitVec 4} (h : idx = 0 ∨ 10 ≤ idx.toNat) : readReg s idx = 0#32 := by
  have hne : ∀ k : BitVec 4, k ≠ 0 → k.toNat < 10 → idx ≠ k := by
    rintro k h0 hk rfl
    exact h.elim h0 (by omega)
  simp only [readReg, if_neg (hne Config.idxData (by decide) (by decide)),
    if_neg (hne Config.idxResult (by decide) (by decide)), if_neg (hne Config.idxStatus (by decide) (by decide)),
    if_neg (hne Config.idxErrCmd (by decide) (by decide)), if_neg (hne Config.idxNsym (by decide) (by decide)),
    if_neg (hne Config.idxTotal (by decide) (by decide)), if_neg (hne Config.idxNodes (by decide) (by decide)),
    if_neg (hne Config.idxRoot (by decide) (by decide)), if_neg (hne Config.idxId (by decide) (by decide))]

/-- Settles O9: the three outcomes of a CMD write. -/
theorem commandWriteIsDroppedDiscardedOrAccepted : Obligations.CommandWriteIsDroppedDiscardedOrAccepted := by
  intro s w rest hr hp
  have hstep : step s = .next (writeCmd w { s with pending := rest }) := by
    rw [step_of_action hp (by simp) (by simp)]
    exact congrArg Host.Outcome.next (writeReg_cmd w hr)
  rw [hstep]
  refine ⟨fun hb => ?_, fun hb he hw => ?_, fun hb he => ?_, readReg_zero (.inl rfl)⟩
  · simp [writeCmd, hb]
  · simp [writeCmd, hb, he, Config.errClearWord, hw]
  · have hacc : (s.err && decide (w ≠ Config.errClearWord)) = false := by
      rcases he with he | rfl <;> simp [*, Config.errClearWord]
    simp only [writeCmd, hb, hacc, Bool.false_eq_true, if_false]
    rfl

/-- Settles O10: by the register's index. -/
theorem registerAccessesHaveNoOtherEffect : Obligations.RegisterAccessesHaveNoOtherEffect := by
  intro s idx v rest
  refine ⟨fun hr hp => ?_, fun _ hp h0 h1 => ?_, fun hp => ?_, readReg_zero⟩
  · rw [step_of_action hp (by simp) (by simp)]
    exact congrArg Host.Outcome.next (writeReg_data v hr)
  · rw [step_of_action hp (by simp) (by simp)]
    exact congrArg Host.Outcome.next (writeReg_other v h0 h1)
  · rw [step_of_action hp (by simp) (by simp)]
    rfl

theorem zext32_toNat {n : Nat} (v : BitVec n) (hn : n ≤ 32) : (zext32 v).toNat = v.toNat := by
  rw [zext32, BitVec.toNat_setWidth,
    Nat.mod_eq_of_lt (lt_of_lt_of_le v.isLt (Nat.pow_le_pow_right (by decide) hn))]

/-- Settles O11: by the register's index; NSYM, NODES and ROOT are padded with zero bits. -/
theorem registerWindowReadsItsRegisters : Obligations.RegisterWindowReadsItsRegisters := by
  intro s
  exact ⟨rfl, rfl, rfl, rfl, zext32_toNat s.nsym (by decide), rfl, zext32_toNat s.nodes (by decide),
    zext32_toNat s.root (by decide), rfl⟩

/-! STATUS (R27). -/

/-- A flag in its place. -/
theorem getLsbD_bitWord_shiftLeft (b : Bool) {k j : Nat} (hj : j < 32) :
    (bitWord b <<< k).getLsbD j = (decide (j = k) && b) := by
  have hone : (1#32).getLsbD (j - k) = decide (j - k = 0) := by
    rw [BitVec.getLsbD_one]
    simp
  cases b with
  | false => simp [bitWord]
  | true =>
    simp only [bitWord, if_true, BitVec.getLsbD_shiftLeft, hj, decide_true, Bool.true_and, Bool.and_true, hone]
    rw [Bool.eq_iff_iff]
    simp only [Bool.and_eq_true, Bool.not_eq_true', decide_eq_false_iff_not, decide_eq_true_eq]
    omega

theorem getLsbD_bitWord (b : Bool) {j : Nat} (hj : j < 32) : (bitWord b).getLsbD j = (decide (j = 0) && b) := by
  simpa using getLsbD_bitWord_shiftLeft b (k := 0) hj

/-- A flag below bit 8 leaves nothing above. -/
theorem bitWord_shift (b : Bool) {k : Nat} (hk : k < 8) : bitWord b <<< k >>> 8 = 0#32 := by
  revert b k
  decide

/-- ERRCODE stands from bit 8 up. -/
theorem getLsbD_errCode (c : ErrCode) {j : Nat} (hj : j < 8) : (zext32 c.bits <<< 8).getLsbD j = false := by
  simp [BitVec.getLsbD_shiftLeft, hj]

/-- What lies above the flags is the code. -/
theorem statusWord_shift (s : State) : statusWord s >>> 8 = zext32 s.errCode.bits := by
  have hb : bitWord s.busy >>> 8 = 0#32 := by simpa using bitWord_shift s.busy (k := 0) (by decide)
  have hc : zext32 s.errCode.bits <<< 8 >>> 8 = zext32 s.errCode.bits := by cases s.errCode <;> decide
  simp only [statusWord, BitVec.ushiftRight_or_distrib, hb, hc, bitWord_shift _ (show 1 < 8 by decide),
    bitWord_shift _ (show 2 < 8 by decide), bitWord_shift _ (show 3 < 8 by decide),
    bitWord_shift _ (show 4 < 8 by decide), bitWord_shift _ (show 5 < 8 by decide),
    bitWord_shift _ (show 6 < 8 by decide), BitVec.zero_or]

/-- Settles O12: bit by bit, and the code as what is left after the flags. -/
theorem statusWordHasTheFieldsOfItsTable : Obligations.StatusWordHasTheFieldsOfItsTable := by
  intro s
  have hbit : ∀ j, j < 8 → (statusWord s).getLsbD j
      = ((decide (j = 0) && s.busy) || (decide (j = 1) && s.err) || (decide (j = 2) && s.treeValid)
        || (decide (j = 3) && s.lutValid) || (decide (j = 4) && holdIn s) || (decide (j = 5) && holdOut s)
        || (decide (j = 6) && s.ovr)) := by
    intro j hj
    have hj' : j < 32 := by omega
    simp only [statusWord, BitVec.getLsbD_or, getLsbD_bitWord _ hj', getLsbD_bitWord_shiftLeft _ hj',
      getLsbD_errCode _ hj, Bool.or_false]
  have hcode : (statusWord s).toNat / 2 ^ 8 = s.errCode.bits.toNat := by
    rw [← Nat.shiftRight_eq_div_pow, ← BitVec.toNat_ushiftRight, statusWord_shift, zext32_toNat _ (by decide)]
  refine ⟨(hbit 0 (by decide)).trans (by simp), (hbit 1 (by decide)).trans (by simp),
    (hbit 2 (by decide)).trans (by simp), (hbit 3 (by decide)).trans (by simp),
    (hbit 4 (by decide)).trans (by simp), (hbit 5 (by decide)).trans (by simp),
    (hbit 6 (by decide)).trans (by simp), (hbit 7 (by decide)).trans (by simp), ?_⟩
  rw [hcode]
  cases s.errCode <;> rfl

/-! The hold bits (R42). -/

theorem encoding_eq_some {sym : Sym} :
    s.encoding = some sym ↔ s.busy = true ∧ decode s.curCmd = some (.encSym sym) := by
  unfold State.encoding
  cases s.busy <;> cases hd : decode s.curCmd with
  | none => simp
  | some i => cases i <;> simp

/-- A bit is offered while the codeword in flight has bits left. -/
theorem obitValid_iff : obitValid s = true ↔ ∃ sym, s.encoding = some sym ∧ s.encPos < (s.lutOf sym).len := by
  unfold obitValid
  cases s.encoding <;> simp

/-- A bit is asked for while DEC_SYM stands at an internal node. -/
theorem ibitReady_iff : ibitReady s = true ↔ s.busy = true ∧ decode s.curCmd = some .decSym
    ∧ (s.nodeOf s.decNode.toNat).leaf = false := by
  simp [ibitReady, State.decoding, and_assoc]

theorem holdIn_iff : holdIn s = true ↔ s.busy = true ∧ decode s.curCmd = some .decSym
    ∧ (s.nodeOf s.decNode.toNat).leaf = false ∧ s.src = [] ∧ s.eos = false := by
  simp [holdIn, ibitReady_iff, and_assoc]

theorem holdOut_iff : holdOut s = true ↔ s.busy = true ∧ s.sinkMode.accepts = false
    ∧ ∃ sym, decode s.curCmd = some (.encSym sym) ∧ s.encPos.toNat < (s.lutOf sym).len.toNat := by
  simp only [holdOut, Bool.and_eq_true, obitValid_iff, encoding_eq_some, Bool.not_eq_true', BitVec.lt_def]
  tauto

/-- Settles O13: the bits' definitions, clause by clause. -/
theorem holdBitsAreLiveViewsOfTheEngine : Obligations.HoldBitsAreLiveViewsOfTheEngine :=
  fun _ => ⟨holdIn_iff, holdOut_iff⟩

/-! A step not taken (R41, log 2). -/

/-- A held command's step leaves the state. -/
theorem Held.exec_eq {i : Instr} (h : Held s i) : exec i s = .next s := by
  cases h with
  | out hp ha => rw [exec_encSym_running _ hp, encEmit_of_not_accepts _ ha]
  | input hp hs he => rw [exec_decSym_running hp, decBit_of_hold hs he]

/-- No other step of a busy block leaves it. -/
theorem CmdStep.held_of_same {i : Instr} (h : CmdStep s i t) (hb : s.busy = true) (he : t = s) : Held s i := by
  cases h with
  | held h => exact h
  | encStarts hp =>
    have := congrArg State.phase he
    simp [hp] at this
  | @encEmits sym =>
    have := congrArg State.sink he
    simp [emitted] at this
  | decMoves hm =>
    cases hm with
    | root hp =>
      have := congrArg State.phase he
      simp [hp] at this
    | bit b hp hs =>
      have := congrArg State.src he
      simp [hs] at this
  | _ =>
    have := congrArg State.busy he
    simp [hb] at this

/-- A command is held exactly when a hold bit is 1, the cursor standing where R161 and R171 let it. -/
theorem held_iff (h : EngineInv s) {i : Instr} (hb : s.busy = true) (hd : decode s.curCmd = some i) :
    Held s i ↔ holdIn s = true ∨ holdOut s = true := by
  constructor
  · intro hh
    cases hh with
    | @out sym hp ha =>
      rcases h.2 hb hp with ⟨sym', hd', -, -, hlt⟩ | ⟨hd', -⟩
      · exact .inr (holdOut_iff.2 ⟨hb, ha, sym', hd', hlt⟩)
      · simp [hd] at hd'
    | input hp hs he =>
      rcases h.2 hb hp with ⟨_, hd', -⟩ | ⟨-, -, -, hl⟩
      · simp [hd] at hd'
      · exact .inl (holdIn_iff.2 ⟨hb, hd, hl, hs, he⟩)
  · intro hh
    have hp : s.phase = .running := by
      cases hp : s.phase with
      | running => rfl
      | start => simp [holdIn, holdOut, h.obitValid_start hp, h.ibitReady_start hp] at hh
    rcases hh with hh | hh
    · obtain ⟨-, hd', -, hs, he⟩ := holdIn_iff.1 hh
      cases hd.symm.trans hd'
      exact .input hp hs he
    · obtain ⟨-, ha, sym, hd', -⟩ := holdOut_iff.1 hh
      cases hd.symm.trans hd'
      exact .out hp ha

/-- Settles O14: the step is the command's, which leaves the state exactly where a port holds it. -/
theorem engineStepIsNotTakenExactlyWhenHeld : Obligations.EngineStepIsNotTakenExactlyWhenHeld := by
  intro s h hr hb hp
  rw [step_of_nil hp]
  cases hd : decode s.curCmd with
  | none =>
    rw [engineStep_illegal hr hb hd]
    refine iff_of_false (fun he => ?_) ?_
    · have := congrArg State.busy (Host.Outcome.next.inj he)
      simp [hb] at this
    · simp [holdIn_iff, holdOut_iff, hd]
  | some i =>
    rw [engineStep_run hr hb hd, ← held_iff h hb hd]
    exact ⟨fun he => (cmdStep_of_exec he).held_of_same hb rfl, Held.exec_eq⟩

/-! The ports, from the host's side. -/

/-- Settles O60: one equation per action; an idle turn is the engine's. -/
theorem hostPortActionsChangeOnlyTheHostsSide : Obligations.HostPortActionsChangeOnlyTheHostsSide := by
  intro s rest
  refine ⟨fun bits hp => ?_, fun hp => ?_, fun level hp => ?_, fun mode hp => ?_, fun n hp hm => ?_,
    fun n room hp hm => ?_, fun hp hb => ?_, fun hp hi => ?_, fun hp hi => ?_⟩
  · exact step_of_action hp (by simp) (by simp)
  · exact step_of_action hp (by simp) (by simp)
  · exact step_of_action hp (by simp) (by simp)
  · exact step_of_action hp (by simp) (by simp)
  · rw [step_of_action hp (by simp) (by simp), applyHostEvent, hm, addRoom_always]
  · rw [step_of_action hp (by simp) (by simp), applyHostEvent, hm, addRoom_limited]
  · exact step_of_host (turnOf_wait_idle hp hb)
  · rw [step_of_yield hp]
    exact engineStep_idle hi
  · rw [step_of_nil hp, engineStep_idle hi]

end
end Sys2Proof.Machine
end

section
/-! PROOFS. Frames (10_state R24 to R29, R32, R44; 60_exceptions R205): which step writes which register or memory. -/

namespace Sys2Proof.Machine

section
variable {s t : State} {i : Instr}

/-! What one engine step of a command writes. -/

/-- RESULT is written only as a reading command or DEC_SYM completes (R26). -/
theorem CmdStep.result_cases (h : CmdStep s i t) : t.result = s.result ∨ (t.busy = false ∧ t.err = s.err
    ∧ ((∃ sym, i = .ftRead sym) ∨ (∃ node fsel, i = .nodeRead node fsel) ∨ (∃ sym, i = .lutLen sym)
      ∨ (∃ sym widx, i = .lutWord sym widx) ∨ i = .decSym)) := by
  cases h with
  | readOut h =>
    refine .inr ⟨rfl, rfl, ?_⟩
    cases h <;> simp
  | decEnds => exact .inr ⟨rfl, rfl, by simp⟩
  | _ => exact .inl rfl

/-- FREQ, NSYM and TOTAL are written only by the three commands that count, without error (R106). -/
theorem CmdStep.counts_cases (h : CmdStep s i t) : (t.freq = s.freq ∧ t.nsym = s.nsym ∧ t.total = s.total)
    ∨ (t.busy = false ∧ t.err = s.err ∧ ChangesFreq i) := by
  cases h with
  | ftClear => exact .inr ⟨rfl, rfl, .inl rfl⟩
  | ftAccum => exact .inr ⟨rfl, rfl, .inr ⟨_, .inl rfl⟩⟩
  | ftLoad => exact .inr ⟨rfl, rfl, .inr ⟨_, .inr rfl⟩⟩
  | _ => exact .inl ⟨rfl, rfl, rfl⟩

/-- One entry of FREQ is written only by FT_CLEAR and the commands on its symbol (R76). -/
theorem CmdStep.freqOf_cases (h : CmdStep s i t) (x : Sym) :
    t.freqOf x = s.freqOf x ∨ i = .ftClear ∨ i = .ftAccum x ∨ i = .ftLoad x := by
  cases h with
  | ftClear => exact .inr (.inl rfl)
  | @ftAccum sym =>
    by_cases hx : x = sym
    · exact .inr (.inr (.inl (hx ▸ rfl)))
    · exact .inl (setFreq_freqOf_other s _ hx)
  | @ftLoad sym =>
    by_cases hx : x = sym
    · exact .inr (.inr (.inr (hx ▸ rfl)))
    · exact .inl (setFreq_freqOf_other s _ hx)
  | _ => exact .inl rfl

/-- The arena is written only by TREE_BUILD of a table that is not empty (R121). -/
theorem CmdStep.arena_cases (h : CmdStep s i t) :
    t.arena = s.arena ∨ (i = .treeBuild ∧ s.nsym ≠ 0#9 ∧ t.busy = false) := by
  cases h with
  | treeBuilt hn => exact .inr ⟨rfl, hn, rfl⟩
  | _ => exact .inl rfl

/-- NODES and ROOT are written only by TREE_BUILD and the commands that invalidate the tree (R32, R106). -/
theorem CmdStep.nodes_cases (h : CmdStep s i t) : (t.nodes = s.nodes ∧ t.root = s.root)
    ∨ (t.busy = false ∧ t.err = s.err ∧ (i = .treeBuild ∨ ChangesFreq i)) := by
  cases h with
  | ftClear => exact .inr ⟨rfl, rfl, .inr (.inl rfl)⟩
  | ftAccum => exact .inr ⟨rfl, rfl, .inr (.inr ⟨_, .inl rfl⟩)⟩
  | ftLoad => exact .inr ⟨rfl, rfl, .inr (.inr ⟨_, .inr rfl⟩)⟩
  | treeEmpty | treeBuilt => exact .inr ⟨rfl, rfl, .inl rfl⟩
  | _ => exact .inl ⟨rfl, rfl⟩

/-- The LUT is written only by LUT_DERIVE with a tree (R140). -/
theorem CmdStep.lut_cases (h : CmdStep s i t) :
    t.lut = s.lut ∨ (i = .lutDerive ∧ s.treeValid = true ∧ t.busy = false) := by
  cases h with
  | lutDerived ht => exact .inr ⟨rfl, ht, rfl⟩
  | _ => exact .inl rfl

/-- Only ENC_SYM and DEC_SYM move bits (R64, R65). -/
theorem CmdStep.ports_eq (h : CmdStep s i t) (he : ∀ sym, i ≠ .encSym sym) (hd : i ≠ .decSym) :
    t.sink = s.sink ∧ t.src = s.src ∧ t.sinkMode = s.sinkMode := by
  cases h with
  | encEmits | encEnds => exact absurd rfl (he _)
  | decMoves | decEnds => exact absurd rfl hd
  | _ => exact ⟨rfl, rfl, rfl⟩

/-- No command writes DATA, CUR_CMD or CUR_DATA (R25, R40). -/
theorem CmdStep.words_eq (h : CmdStep s i t) :
    t.data = s.data ∧ t.curCmd = s.curCmd ∧ t.curData = s.curData := by
  cases h <;> exact ⟨rfl, rfl, rfl⟩

/-- Settles O48: the steps that leave BUSY at 1. -/
theorem updatesShowOnlyAsBusyFalls : Obligations.UpdatesShowOnlyAsBusyFalls := by
  intro i s t _ h hb
  obtain ⟨-, ht⟩ := (cmdStep_of_exec h).goesOn hb
  exact ht

/-- Settles O49: a command still busy would be ENC_SYM or DEC_SYM. -/
theorem otherCommandsEndInOneStep : Obligations.OtherCommandsEndInOneStep := by
  intro i s he hd
  obtain ⟨t, h⟩ := exec_answers i s
  have hk := cmdStep_of_exec h
  refine ⟨t, h, ?_, hk.ports_eq he hd⟩
  by_contra hb
  obtain ⟨⟨sym, hi⟩ | hi, -⟩ := hk.goesOn (by simpa using hb)
  · exact he sym hi
  · exact hd hi

/-! What one step writes. -/

/-- Tables that are not as they were have been written by a command, or by reset. -/
theorem StepKind.command_of_tables (h : StepKind s t) (hr : ¬ hostDoes s (.setRstN false)) (hne : ¬ SameTables s t) :
    ∃ i rest, engineRuns s i ∧ CmdStep { s with pending := rest } i t := by
  rcases h.tables_cases with h | ⟨h, -⟩ | h
  · exact absurd h hne
  · exact absurd h hr
  · exact h

/-- The commands that count, as the steps of the engine they are. -/
theorem ChangesFreq.runs (h : ChangesFreq i) (he : engineRuns s i) :
    engineRuns s .ftClear ∨ ∃ sym, engineRuns s (.ftAccum sym) ∨ engineRuns s (.ftLoad sym) := by
  rcases h with rfl | ⟨sym, rfl | rfl⟩
  · exact .inl he
  · exact .inr ⟨sym, .inl he⟩
  · exact .inr ⟨sym, .inr he⟩

/-- The error record is cleared by ERR_CLEAR or written by an engine step that raises an error (R29, R205). -/
theorem StepKind.errors_cases (h : StepKind s t) (hr : ¬ hostDoes s (.setRstN false)) :
    SameErrors s t ∨ (t.busy = false
      ∧ ((engineRuns s .errClear ∧ t.err = false ∧ t.errCode = .none ∧ t.errCmd = 0#32)
        ∨ ((∃ rest, turnOf s = .engine rest) ∧ s.rstN = true ∧ s.busy = true ∧ t.err = true ∧ t.errCode ≠ .none
          ∧ t.errCmd = s.curCmd))) := by
  cases h with
  | host e rest he h =>
    obtain ⟨h1, h2, h3⟩ := h.sameErrors fun e' => hr ⟨rest, e' ▸ he⟩
    exact .inl ⟨h1, h2, h3⟩
  | idle rest he hi h => subst h; exact .inl ⟨rfl, rfl, rfl⟩
  | illegal rest he hrst hb hd h =>
    subst h
    exact .inr ⟨rfl, .inr ⟨⟨rest, he⟩, hrst, hb, rfl, by simp, rfl⟩⟩
  | command i rest he h =>
    rcases h.errors_cases with h | ⟨rfl, rfl⟩ | ⟨code, hc, rfl⟩
    · exact .inl ⟨h.err, h.errCode, h.errCmd⟩
    · exact .inr ⟨rfl, .inl ⟨he, rfl, rfl, rfl⟩⟩
    · obtain ⟨ht, hrst, hb, -⟩ := he
      exact .inr ⟨rfl, .inr ⟨ht, hrst, hb, rfl, hc, rfl⟩⟩

/-- Settles O46: what has changed was written by a command, and each command's writes are known. -/
theorem registersAndMemoriesAreWrittenOnlyByTheirCommands :
    Obligations.RegistersAndMemoriesAreWrittenOnlyByTheirCommands := by
  intro s t h hr
  have hk := stepKind_of_step h
  refine ⟨fun hne => ?_, fun hne => ?_, fun x _ hne => ?_, fun hne => ?_, fun hne => ?_, fun hne => ?_, fun hne => ?_⟩
  · obtain ⟨i, rest, he, h⟩ := hk.command_of_tables hr fun hs => hne hs.result
    obtain ⟨hb, herr, hi⟩ := h.result_cases.resolve_left hne
    exact ⟨i, he, hb, herr, hi⟩
  · obtain ⟨i, rest, he, h⟩ := hk.command_of_tables hr fun hs => by simp [hs.freq, hs.nsym, hs.total] at hne
    obtain ⟨hb, herr, hi⟩ := h.counts_cases.resolve_left fun ⟨h1, h2, h3⟩ => by simp [h1, h2, h3] at hne
    exact ⟨hb, herr, hi.runs he⟩
  · obtain ⟨i, rest, he, h⟩ := hk.command_of_tables hr fun hs => hne (by rw [State.freqOf, hs.freq, State.freqOf])
    rcases (h.freqOf_cases x).resolve_left hne with rfl | rfl | rfl
    · exact .inl he
    · exact .inr (.inl he)
    · exact .inr (.inr he)
  · obtain ⟨i, rest, he, h⟩ := hk.command_of_tables hr fun hs => hne hs.arena
    obtain ⟨rfl, hn, hb⟩ := h.arena_cases.resolve_left hne
    exact ⟨he, hn, hb⟩
  · obtain ⟨i, rest, he, h⟩ := hk.command_of_tables hr fun hs => by simp [hs.nodes, hs.root] at hne
    obtain ⟨hb, herr, hi⟩ := h.nodes_cases.resolve_left fun ⟨h1, h2⟩ => by simp [h1, h2] at hne
    refine ⟨hb, herr, ?_⟩
    rcases hi with rfl | hi
    · exact .inl he
    · exact .inr (hi.runs he)
  · obtain ⟨i, rest, he, h⟩ := hk.command_of_tables hr fun hs => hne hs.lut
    obtain ⟨rfl, ht, hb⟩ := h.lut_cases.resolve_left hne
    exact ⟨he, ht, hb⟩
  · exact (hk.errors_cases hr).resolve_left fun hs => by simp [hs.err, hs.errCode, hs.errCmd] at hne

/-! DATA and the words in flight. -/

/-- A host action changes DATA only as R25 says, raises BUSY only as R24 (c) says, and leaves the words in flight. -/
theorem HostStep.words {e : HostEvent} (h : HostStep s e t) :
    (t.data = s.data ∨ e = .writeReg 1 t.data ∨ e = .setRstN false)
      ∧ (s.busy = false → t.busy = true → e = .writeReg 0 t.curCmd ∧ t.curData = s.data ∧ t.data = s.data)
      ∧ (s.busy = true → t.busy = true → t.curCmd = s.curCmd ∧ t.curData = s.curData) := by
  cases h with
  | data => exact ⟨.inr (.inl rfl), fun h h' => by simp [h] at h', fun _ _ => ⟨rfl, rfl⟩⟩
  | overrun => exact ⟨.inl rfl, fun h h' => by simp [h] at h', fun _ _ => ⟨rfl, rfl⟩⟩
  | accepted hr hb => exact ⟨.inl rfl, fun _ _ => ⟨rfl, rfl, rfl⟩, fun h => by simp [hb] at h⟩
  | reset => exact ⟨.inr (.inr rfl), fun _ h => by simp [State.reset] at h, fun _ h => by simp [State.reset] at h⟩
  | side _ _ ht =>
    rw [ht]
    exact ⟨.inl rfl, fun h h' => by simp [h] at h', fun _ _ => ⟨rfl, rfl⟩⟩

/-- Settles O47: DATA and the words in flight move only in a host action; the engine leaves them. -/
theorem dataIsLatchedAtAcceptance : Obligations.DataIsLatchedAtAcceptance := by
  intro s t h
  cases stepKind_of_step h with
  | host e rest he h =>
    obtain ⟨hdata, hacc, hkeep⟩ := h.words
    refine ⟨fun hne => ?_, fun hb hb' => ?_, hkeep⟩
    · rcases hdata.resolve_left hne with rfl | rfl
      · exact .inl ⟨rest, he⟩
      · exact .inr ⟨rest, he⟩
    · obtain ⟨rfl, hc, hd⟩ := hacc hb hb'
      exact ⟨⟨rest, he⟩, hc, hd⟩
  | idle rest he hi h =>
    subst h
    exact ⟨fun hne => absurd rfl hne, fun hb hb' => by simp [hb] at hb', fun _ _ => ⟨rfl, rfl⟩⟩
  | illegal rest he hr hb hd h =>
    subst h
    exact ⟨fun hne => absurd rfl hne, fun _ hb' => by simp at hb', fun _ hb' => by simp at hb'⟩
  | command i rest he h =>
    obtain ⟨-, -, hb, -⟩ := he
    obtain ⟨hd, hc, hcd⟩ := h.words_eq
    exact ⟨fun hne => absurd hd hne, fun hb' => by simp [hb] at hb', fun _ _ => ⟨hc, hcd⟩⟩

/-! The valid bits. -/

/-- Settles O50: by what a command does to the two bits; reset clears both, and nothing else touches them. -/
theorem validBitsChangeOnlyAsTheirRulesSay : Obligations.ValidBitsChangeOnlyAsTheirRulesSay := by
  intro s t h
  rcases (stepKind_of_step h).tables_cases with h | ⟨hr, rest, rfl⟩ | ⟨i, rest, he, h⟩
  · have ht := h.treeValid
    have hl := h.lutValid
    refine ⟨?_, ?_, ?_, ?_⟩ <;> intro h1 h2 <;> simp [ht, hl, h1] at h2
  · exact ⟨fun _ h => by simp [State.reset] at h, fun _ _ => .inl hr, fun _ h => by simp [State.reset] at h,
      fun _ _ => .inl hr⟩
  · rcases h.validBits_cases with ⟨ht, hl⟩ | ⟨ht, hl, herr, hi⟩ | ⟨ht, hl, rfl, hn⟩ | ⟨ht, hl, rfl, hv⟩
    · refine ⟨?_, ?_, ?_, ?_⟩ <;> intro h1 h2 <;> simp [ht, hl, h1] at h2
    · have hcase : engineRuns s .ftClear ∨ (engineRuns s .treeBuild ∧ s.nsym = 0#9)
          ∨ (t.err = s.err ∧ ∃ sym, engineRuns s (.ftAccum sym) ∨ engineRuns s (.ftLoad sym)) := by
        rcases hi with hi | ⟨rfl, hn⟩
        · exact (hi.runs he).imp_right fun h => .inr ⟨herr, h⟩
        · exact .inr (.inl ⟨he, hn⟩)
      exact ⟨fun _ h => by simp [ht] at h, fun _ _ => .inr hcase, fun _ h => by simp [hl] at h,
        fun _ _ => .inr (hcase.imp_right (Or.imp_left And.left))⟩
    · exact ⟨fun _ _ => ⟨he, hn⟩, fun _ h => by simp [ht] at h, fun _ h => by simp [hl] at h,
        fun _ _ => .inr (.inr (.inl he))⟩
    · exact ⟨fun h1 h2 => by simp [ht, h1] at h2, fun h1 h2 => by simp [ht, h1] at h2, fun _ _ => ⟨he, hv⟩,
        fun _ h => by simp [hl] at h⟩

end
end Sys2Proof.Machine
end

section
/-! PROOFS. The bit ports (20_memory R61, R64, R65): which step moves a bit, and what its port shows as it does. -/

namespace Sys2Proof.Machine

section
variable {s t : State} {i : Instr}

/-! The host. -/

/-- A register write moves no bit. -/
theorem writeReg_src (idx : BitVec 4) (v : Word) (s : State) : (writeReg idx v s).src = s.src := by
  unfold writeReg
  split
  · rfl
  split
  · rcases writeCmd_cases v s with ⟨-, he⟩ | ⟨-, -, -, he⟩ | ⟨-, -, he⟩ <;> exact (congrArg State.src he :)
  split <;> rfl

/-- No host action writes what the sink has accepted (R64). -/
theorem HostStep.sink_eq {e : HostEvent} (h : HostStep s e t) : t.sink = s.sink := by
  cases h with
  | side _ _ ht => rw [ht]
  | _ => rfl

/-- The host changes the bits offered only by offering more and by withdrawing them (R65, R245). -/
theorem applyHostEvent_src_cases (e : HostEvent) (s : State) :
    (applyHostEvent e s).src = s.src
      ∨ (∃ bits, e = .offer bits ∧ (applyHostEvent e s).src = s.src ++ bits)
      ∨ (e = .withdraw ∧ (applyHostEvent e s).src = []) := by
  cases e with
  | writeReg idx v => exact .inl (writeReg_src idx v s)
  | setRstN level => cases level <;> exact .inl rfl
  | offer bits => exact .inr (.inl ⟨bits, rfl, rfl⟩)
  | withdraw => exact .inr (.inr ⟨rfl, rfl⟩)
  | _ => exact .inl rfl

/-! One engine step of a command. -/

/-- Only an emit step of ENC_SYM adds to the sink: the codeword bit at ENC_POS, which the sink accepts (R161). -/
theorem CmdStep.sink_cases (h : CmdStep s i t) :
    t.sink = s.sink ∨ ∃ sym, i = .encSym sym ∧ s.phase = .running ∧ s.sinkMode.accepts = true
      ∧ t.sink = s.sink ++ [(s.lutOf sym).code.getD s.encPos.toNat false] := by
  cases h with
  | encEmits hp ha | encEnds hp ha => exact .inr ⟨_, rfl, hp, ha, rfl⟩
  | _ => exact .inl rfl

/-- Only a bit step of DEC_SYM takes from the source: the next bit offered (R171). -/
theorem CmdStep.src_cases (h : CmdStep s i t) :
    t.src = s.src ∨ (i = .decSym ∧ s.phase = .running ∧ ∃ b, s.src = b :: t.src) := by
  cases h with
  | decMoves hm | decEnds hm =>
    cases hm with
    | root _ _ _ hs => exact .inl hs
    | bit b hp hs => exact .inr ⟨rfl, hp, b, hs⟩
  | _ => exact .inl rfl

/-! What a port shows once the command has started. -/

/-- Past its start step ENC_SYM shows the codeword bit at ENC_POS (R64, R161). -/
theorem EngineInv.obit_running (h : EngineInv s) (hb : s.busy = true) (hp : s.phase = .running) {sym : Sym}
    (hd : decode s.curCmd = some (.encSym sym)) :
    obitValid s = true ∧ obitData s = (s.lutOf sym).code.getD s.encPos.toNat false := by
  have henc : s.encoding = some sym := encoding_eq_some.2 ⟨hb, hd⟩
  obtain ⟨sym', hd', -, -, hlt⟩ | ⟨hd', -⟩ := h.2 hb hp
  · cases hd.symm.trans hd'
    exact ⟨obitValid_iff.2 ⟨sym, henc, hlt⟩, by simp only [obitData, henc]⟩
  · cases hd.symm.trans hd'

/-- Past its start step DEC_SYM asks for a bit (R65, R171). -/
theorem EngineInv.ibitReady_running (h : EngineInv s) (hb : s.busy = true) (hp : s.phase = .running)
    (hd : decode s.curCmd = some .decSym) : ibitReady s = true := by
  obtain ⟨_, hd', -⟩ | ⟨-, -, -, hl⟩ := h.2 hb hp
  · cases hd.symm.trans hd'
  · exact ibitReady_iff.2 ⟨hb, hd, hl⟩

/-- Settles O51: the host's actions leave the sink and do to the source what they say; a command moves a bit only past
its start step, where its port shows that bit. -/
theorem bitsMoveOnlyByTheHandshake : Obligations.BitsMoveOnlyByTheHandshake := by
  intro s t hinv h
  rcases step_cases h with ⟨e, rest, he, rfl⟩ | ⟨rest, -, ht⟩
  · refine ⟨.inl (hostStep_applyHostEvent e _).sink_eq, ?_⟩
    rcases applyHostEvent_src_cases e { s with pending := rest } with hs | ⟨bits, rfl, hs⟩ | ⟨rfl, hs⟩
    · exact .inl hs
    · exact .inr (.inr (.inl ⟨bits, ⟨rest, he⟩, hs⟩))
    · exact .inr (.inr (.inr ⟨⟨rest, he⟩, hs⟩))
  · rcases engineStep_cases ht with ⟨-, rfl⟩ | ⟨-, -, -, rfl⟩ | ⟨-, hb, i, hd, hx⟩
    · exact ⟨.inl rfl, .inl rfl⟩
    · exact ⟨.inl rfl, .inl rfl⟩
    · have hk := cmdStep_of_exec hx
      constructor
      · refine hk.sink_cases.imp_right fun ⟨sym, hi, hp, ha, hs⟩ => ?_
        obtain ⟨hv, hbit⟩ := hinv.obit_running hb hp (hi ▸ hd)
        exact ⟨hv, ha, hbit ▸ hs⟩
      · refine hk.src_cases.imp_right fun ⟨hi, hp, hs⟩ => ?_
        exact .inl ⟨hinv.ibitReady_running hb hp (hi ▸ hd), hs⟩

end
end Sys2Proof.Machine
end

section
/-! PROOFS. Encoding (30_encoding R81 to R86, R95): the opcode and the must-be-zero bits decide which row a word spells, the
fields carry the rest of it, and the assembler's lines are the commands' lines. -/

namespace Sys2Proof

/-! The fields of a word (R81, R82). -/

/-- A field kept in its place is the word under the field's mask. -/
theorem zext32_extractLsb'_shiftLeft (w : Word) (k n : Nat) :
    zext32 (w.extractLsb' k n) <<< k = w &&& zext32 (BitVec.allOnes n) <<< k := by
  ext j hj
  by_cases hkj : j < k
  · simp [hkj]
  · by_cases hjn : j - k < n
    · have hsum : k + (j - k) = j := by omega
      simp [zext32, hkj, hjn, hsum, BitVec.getLsbD_eq_getElem hj]
    · simp [zext32, hjn]

theorem spells_iff {w : Word} {m : Mnemonic} : spells w m = true ↔ w &&& maskOf m = matchOf m := by
  simp [spells]

/-- Where the mask has all bits set, a word that spells a mnemonic agrees with its match word. -/
theorem extractLsb'_of_spells {w : Word} {m : Mnemonic} (h : spells w m = true) {k n : Nat}
    (hmask : (maskOf m).extractLsb' k n = BitVec.allOnes n) : w.extractLsb' k n = (matchOf m).extractLsb' k n := by
  rw [← spells_iff.mp h, BitVec.extractLsb'_and, hmask, BitVec.and_allOnes]

/-! Decoding through the row a word spells (R84, R85). -/

/-- An opcode found in the table is its mnemonic's. -/
theorem toNat_of_mnemonicOf {opc : BitVec 8} {m : Mnemonic} (h : mnemonicOf opc = some m) : opc.toNat = opcodeOf m := by
  revert m opc
  decide

/-- The opcodes of the table are those up to 0x0C (R84, R86). -/
theorem mnemonicOf_eq_none_iff (opc : BitVec 8) : mnemonicOf opc = none ↔ 0x0C < opc.toNat := by
  revert opc
  decide

/-- The decoder finds the row a word spells by the word's opcode. -/
theorem mnemonicOf_of_spells {w : Word} {m : Mnemonic} (h : spells w m = true) :
    mnemonicOf (fieldOpc w) = some m := by
  rw [fieldOpc_of_spells h, fieldOpc_matchOf, mnemonicOf_opcodeOf]

/-- No word spells two mnemonics. -/
theorem mnemonic_eq_of_spells {w : Word} {m m' : Mnemonic} (h : spells w m = true) (h' : spells w m' = true) :
    m = m' :=
  Option.some.inj ((mnemonicOf_of_spells h).symm.trans (mnemonicOf_of_spells h'))

theorem decode_of_spells {w : Word} {m : Mnemonic} (h : spells w m = true) : decode w = some (commandOf m w) := by
  simp [decode, mnemonicOf_of_spells h, h]

@[simp] theorem mnemonic_commandOf (m : Mnemonic) (w : Word) : (commandOf m w).mnemonic = m := by
  cases m <;> rfl

/-- A word decodes to a command exactly when it spells the command's mnemonic and has its operands. -/
theorem decode_eq_some_iff {w : Word} {i : Instr} :
    decode w = some i ↔ spells w i.mnemonic = true ∧ commandOf i.mnemonic w = i := by
  constructor
  · intro h
    cases hm : mnemonicOf (fieldOpc w) with
    | none => simp [decode, hm] at h
    | some m =>
      by_cases hs : spells w m = true
      · have hi : commandOf m w = i := Option.some.inj ((decode_of_spells hs).symm.trans h)
        subst hi
        simp [hs]
      · simp [decode, hm, hs] at h
  · rintro ⟨hs, hi⟩
    rw [decode_of_spells hs, hi]

/-- A decoded command's operands are the ones read from the word. -/
theorem commandOf_of_decode {w : Word} {i : Instr} (h : decode w = some i) : commandOf i.mnemonic w = i :=
  (decode_eq_some_iff.mp h).2

/-- A word spells a mnemonic exactly when it decodes to one of the mnemonic's commands. -/
theorem exists_decode_iff_spells (w : Word) (m : Mnemonic) :
    (∃ i, decode w = some i ∧ i.mnemonic = m) ↔ spells w m = true := by
  constructor
  · rintro ⟨i, hd, rfl⟩
    exact (decode_eq_some_iff.mp hd).1
  · exact fun h => ⟨commandOf m w, decode_of_spells h, mnemonic_commandOf m w⟩

/-! A word is its match word and its fields (R81, R82). -/

/-- The bits a row's mask leaves out are all that a word adds to the row's match word. -/
theorem eq_matchOf_or {w : Word} {m : Mnemonic} (h : spells w m = true) :
    w = matchOf m ||| (w &&& ~~~maskOf m) := by
  rw [← spells_iff.mp h]
  ext j hj
  simp only [BitVec.getElem_or, BitVec.getElem_and, BitVec.getElem_not]
  cases w[j] <;> cases (maskOf m)[j] <;> rfl

/-- What a format S mask leaves out is the symbol. -/
theorem operandBits_s {m : Mnemonic} (hm : m.format = .s) (w : Word) : w &&& ~~~maskOf m = zext32 (fieldSym w) := by
  have hmask : ~~~maskOf m = zext32 (BitVec.allOnes 8) <<< 0 := by simp only [maskOf, hm]; decide
  rw [hmask, ← zext32_extractLsb'_shiftLeft, BitVec.shiftLeft_zero, fieldSym]

/-- What the LUT_WORD mask leaves out is WIDX and the symbol. -/
theorem operandBits_lutWord (w : Word) :
    w &&& ~~~maskOf .lutWord = zext32 (fieldWidx w) <<< 8 ||| zext32 (fieldSym w) := by
  have hmask : ~~~maskOf .lutWord = zext32 (BitVec.allOnes 3) <<< 8 ||| zext32 (BitVec.allOnes 8) <<< 0 := by decide
  rw [hmask, BitVec.and_or_distrib_left, ← zext32_extractLsb'_shiftLeft,
    ← zext32_extractLsb'_shiftLeft, BitVec.shiftLeft_zero, fieldWidx, fieldSym]

/-- What the NODE_READ mask leaves out is FSEL and the node. -/
theorem operandBits_nodeRead (w : Word) :
    w &&& ~~~maskOf .nodeRead = zext32 (fieldFsel w) <<< 12 ||| zext32 (fieldNode w) := by
  have hmask : ~~~maskOf .nodeRead = zext32 (BitVec.allOnes 2) <<< 12 ||| zext32 (BitVec.allOnes 9) <<< 0 := by decide
  rw [hmask, BitVec.and_or_distrib_left, ← zext32_extractLsb'_shiftLeft,
    ← zext32_extractLsb'_shiftLeft, BitVec.shiftLeft_zero, fieldFsel, fieldNode]

/-- A command's word is its match word and the operand bits of any word it was read from. -/
theorem encode_commandOf_eq (m : Mnemonic) (w : Word) :
    encode (commandOf m w) = matchOf m ||| (w &&& ~~~maskOf m) := by
  cases m with
  | ftAccum | ftLoad | ftRead | lutLen | encSym => rw [operandBits_s rfl]; rfl
  | lutWord => rw [operandBits_lutWord, ← BitVec.or_assoc]; rfl
  | nodeRead => rw [operandBits_nodeRead, ← BitVec.or_assoc, commandOf, encode, FSel.toBits_ofBits]
  | nop | ftClear | treeBuild | lutDerive | decSym | errClear => simp [maskOf, Mnemonic.format, commandOf, encode]

/-- No bit of a word that spells a mnemonic is lost by reading its operands. -/
theorem encode_commandOf {w : Word} {m : Mnemonic} (h : spells w m = true) : encode (commandOf m w) = w := by
  rw [encode_commandOf_eq, ← eq_matchOf_or h]

/-- Decoding inverts encoding, and the other way round (R85). -/
theorem decode_eq_some_iff_encode {w : Word} {i : Instr} : decode w = some i ↔ encode i = w := by
  constructor
  · intro h
    obtain ⟨hs, hi⟩ := decode_eq_some_iff.mp h
    rw [← hi, encode_commandOf hs]
  · rintro rfl
    exact decode_encode i

/-- Every command is well formed: its operands have their fields' widths. -/
theorem instr_wellFormed (i : Instr) : i.wellFormed = true := by
  cases i with
  | nop => exact Laws.WellFormed.nop
  | ftClear => exact Laws.WellFormed.ftClear
  | ftAccum sym => exact Laws.WellFormed.ftAccum sym
  | ftLoad sym => exact Laws.WellFormed.ftLoad sym
  | ftRead sym => exact Laws.WellFormed.ftRead sym
  | treeBuild => exact Laws.WellFormed.treeBuild
  | nodeRead node fsel => exact Laws.WellFormed.nodeRead node fsel
  | lutDerive => exact Laws.WellFormed.lutDerive
  | lutLen sym => exact Laws.WellFormed.lutLen sym
  | lutWord sym widx => exact Laws.WellFormed.lutWord sym widx
  | encSym sym => exact Laws.WellFormed.encSym sym
  | decSym => exact Laws.WellFormed.decSym
  | errClear => exact Laws.WellFormed.errClear

/-- Settles O1: a word is its row's match word and its operand bits, so encoding what was decoded gives the word back. -/
theorem decodeAndEncodeAreInverse : Obligations.DecodeAndEncodeAreInverse :=
  fun i _ => ⟨instr_wellFormed i, decode_eq_some_iff_encode⟩

/-! The table (R84). -/

/-- A mnemonic's row: the mnemonic, its match word and its mask. -/
def rowOf (m : Mnemonic) : Mnemonic × Word × Word := (m, matchOf m, maskOf m)

/-- The 13 rows, in the order of the opcodes. -/
def tableRows : List (Mnemonic × Word × Word) :=
  [.nop, .ftClear, .ftAccum, .ftLoad, .ftRead, .treeBuild, .nodeRead, .lutDerive, .lutLen, .lutWord, .encSym, .decSym,
    .errClear].map rowOf

theorem eq_rowOf_of_mem {row : Mnemonic × Word × Word} (h : row ∈ tableRows) : ∃ m, row = rowOf m := by
  obtain ⟨m, -, hm⟩ := List.mem_map.mp h
  exact ⟨m, hm.symm⟩

/-- Settles O2: a row's match is `spells`, and the opcode names at most one row. -/
theorem wordSpellsACommandExactlyWhenItMatchesItsRow : Obligations.WordSpellsACommandExactlyWhenItMatchesItsRow := by
  refine ⟨tableRows, rfl, fun row hrow w => ?_, fun row hrow row' hrow' w h h' => ?_⟩
  · obtain ⟨m, rfl⟩ := eq_rowOf_of_mem hrow
    exact (exists_decode_iff_spells w m).trans spells_iff
  · obtain ⟨m, rfl⟩ := eq_rowOf_of_mem hrow
    obtain ⟨m', rfl⟩ := eq_rowOf_of_mem hrow'
    rw [mnemonic_eq_of_spells (spells_iff.mpr h) (spells_iff.mpr h')]

/-! The illegal words (R86). -/

/-- The must-be-zero bits of a format are 0 in the word. -/
def ReservedZero (w : Word) : Format → Prop
  | .n => w.extractLsb' 0 24 = 0#24
  | .s => w.extractLsb' 8 16 = 0#16
  | .sw => w.extractLsb' 11 13 = 0#13
  | .nf => w.extractLsb' 14 10 = 0#10 ∧ w.extractLsb' 9 3 = 0#3

/-- The must-be-zero bits are 0 in a word that spells a mnemonic of the format. -/
theorem reservedZero_of_spells {w : Word} {m : Mnemonic} (h : spells w m = true) : ReservedZero w m.format := by
  cases m with
  | nodeRead => exact ⟨extractLsb'_of_spells h (by decide), extractLsb'_of_spells h (by decide)⟩
  | _ => exact extractLsb'_of_spells h (by decide)

/-- A row's match word is its opcode in bits 31:24 (R81), the opcode's part of the assembler's formula (R95). -/
theorem ofNat_opcodeOf_shiftLeft (m : Mnemonic) : BitVec.ofNat 32 (opcodeOf m) <<< 24 = matchOf m := by
  cases m <;> decide

/-- The must-be-zero bits of a format as a mask. -/
def reservedMask : Format → Word
  | .n => 0x00FFFFFF#32
  | .s => 0x00FFFF00#32
  | .sw => 0x00FFF800#32
  | .nf => 0x00FFCE00#32

/-- A row's mask is the opcode's bits and the must-be-zero bits. -/
theorem maskOf_eq (m : Mnemonic) : maskOf m = zext32 (BitVec.allOnes 8) <<< 24 ||| reservedMask m.format := by
  cases m <;> decide

/-- A field that is 0 leaves nothing under its mask. -/
theorem and_fieldMask_eq_zero {w : Word} {k n : Nat} (h : w.extractLsb' k n = 0#n) :
    w &&& zext32 (BitVec.allOnes n) <<< k = 0#32 := by
  rw [← zext32_extractLsb'_shiftLeft, h]
  simp [zext32]

theorem and_reservedMask_eq_zero {w : Word} {f : Format} (h : ReservedZero w f) : w &&& reservedMask f = 0#32 := by
  cases f with
  | n => exact and_fieldMask_eq_zero (k := 0) (n := 24) h
  | s => exact and_fieldMask_eq_zero (k := 8) (n := 16) h
  | sw => exact and_fieldMask_eq_zero (k := 11) (n := 13) h
  | nf =>
    obtain ⟨hhigh, hlow⟩ := h
    have hmask : reservedMask .nf
        = zext32 (BitVec.allOnes 10) <<< 14 ||| zext32 (BitVec.allOnes 3) <<< 9 := by decide
    rw [hmask, BitVec.and_or_distrib_left, and_fieldMask_eq_zero hhigh,
      and_fieldMask_eq_zero hlow, BitVec.or_zero]

/-- A word with a mnemonic's opcode spells it exactly when the must-be-zero bits of its format are 0 (R86). -/
theorem spells_iff_reservedZero {w : Word} {m : Mnemonic} (hopc : (fieldOpc w).toNat = opcodeOf m) :
    spells w m = true ↔ ReservedZero w m.format := by
  refine ⟨reservedZero_of_spells, fun h => spells_iff.mpr ?_⟩
  calc w &&& maskOf m
      = zext32 (fieldOpc w) <<< 24 ||| (w &&& reservedMask m.format) := by
        rw [maskOf_eq, BitVec.and_or_distrib_left, ← zext32_extractLsb'_shiftLeft, fieldOpc]
    _ = matchOf m := by
        rw [and_reservedMask_eq_zero h, BitVec.or_zero, ← ofNat_opcodeOf_shiftLeft, ← hopc, BitVec.ofNat_toNat,
          zext32]

/-- A word with an opcode of the table is illegal exactly when a must-be-zero bit of its format is set. -/
theorem decode_eq_none_iff_of_mnemonicOf {w : Word} {m : Mnemonic} (hm : mnemonicOf (fieldOpc w) = some m) :
    decode w = none ↔ ¬ ReservedZero w m.format := by
  rw [← spells_iff_reservedZero (toNat_of_mnemonicOf hm)]
  simp [decode, hm]

/-- R86's list of the illegal words. -/
theorem decode_eq_none_iff (w : Word) : decode w = none ↔
    (0x0C < (fieldOpc w).toNat
      ∨ ((fieldOpc w).toNat ∈ [0x00, 0x01, 0x05, 0x07, 0x0B, 0x0C] ∧ w.extractLsb' 0 24 ≠ 0#24)
      ∨ ((fieldOpc w).toNat ∈ [0x02, 0x03, 0x04, 0x08, 0x0A] ∧ w.extractLsb' 8 16 ≠ 0#16)
      ∨ ((fieldOpc w).toNat = 0x09 ∧ w.extractLsb' 11 13 ≠ 0#13)
      ∨ ((fieldOpc w).toNat = 0x06 ∧ (w.extractLsb' 14 10 ≠ 0#10 ∨ w.extractLsb' 9 3 ≠ 0#3))) := by
  cases hm : mnemonicOf (fieldOpc w) with
  | none =>
    have hopc := (mnemonicOf_eq_none_iff _).mp hm
    simp [decode, hm, hopc]
  | some m =>
    rw [decode_eq_none_iff_of_mnemonicOf hm, toNat_of_mnemonicOf hm]
    -- the opcode picks the one clause of its mnemonic's format
    cases m <;> simp [opcodeOf, Mnemonic.format, ReservedZero, imp_iff_not_or]

/-- Settles O3: the illegal words by their opcode's format, and the engine's turn raises ILLEGAL in each of the three
cases. -/
theorem illegalWordsAreTheReservedOnesAndRaiseIllegal :
    Obligations.IllegalWordsAreTheReservedOnesAndRaiseIllegal := by
  refine ⟨decode_eq_none_iff, fun s rest hr hb hd => ⟨fun hp => ?_, fun hp => ?_⟩⟩
  · have hturn : Machine.step s = Machine.engineStep s :=
      hp.elim Machine.step_of_nil fun hw => Machine.step_of_wait_busy hw hb
    rw [hturn, Machine.engineStep_illegal hr hb hd, Machine.raiseError]
  · rw [Machine.step_of_yield hp]
    exact Machine.engineStep_illegal hr hb hd

/-! The operands (R82, R83, R85). -/

theorem fieldSym_toNat (w : Word) : (fieldSym w).toNat = w.toNat % 2 ^ 8 := by
  rw [fieldSym, BitVec.extractLsb'_toNat, Nat.shiftRight_zero]

theorem fieldWidx_toNat (w : Word) : (fieldWidx w).toNat = w.toNat / 2 ^ 8 % 2 ^ 3 := by
  rw [fieldWidx, BitVec.extractLsb'_toNat, Nat.shiftRight_eq_div_pow]

theorem fieldNode_toNat (w : Word) : (fieldNode w).toNat = w.toNat % 2 ^ 9 := by
  rw [fieldNode, BitVec.extractLsb'_toNat, Nat.shiftRight_zero]

/-- The number of an FSEL is its bits' number (R83). -/
theorem FSel.toNat_ofBits (b : BitVec 2) : (FSel.ofBits b).toNat = b.toNat := by
  revert b
  decide

theorem fieldFsel_toNat (w : Word) : (FSel.ofBits (fieldFsel w)).toNat = w.toNat / 2 ^ 12 % 2 ^ 2 := by
  rw [FSel.toNat_ofBits, fieldFsel, BitVec.extractLsb'_toNat, Nat.shiftRight_eq_div_pow]

/-- Settles O4: a decoded command's operands are read by `commandOf` from the word's fields. -/
theorem decodedOperandsAreTheFieldsOfTheWord : Obligations.DecodedOperandsAreTheFieldsOfTheWord := by
  intro w
  refine ⟨fun sym h => ?_, fun sym widx h => ?_, fun node fsel h => ?_⟩
  · have hsym : fieldSym w = sym := by
      rcases h with h | h | h | h | h
      · exact Instr.ftAccum.inj (commandOf_of_decode h)
      · exact Instr.ftLoad.inj (commandOf_of_decode h)
      · exact Instr.ftRead.inj (commandOf_of_decode h)
      · exact Instr.lutLen.inj (commandOf_of_decode h)
      · exact Instr.encSym.inj (commandOf_of_decode h)
    rw [← hsym, fieldSym_toNat]
  · obtain ⟨hsym, hwidx⟩ := Instr.lutWord.inj (commandOf_of_decode h)
    rw [← hsym, ← hwidx]
    exact ⟨fieldSym_toNat w, fieldWidx_toNat w⟩
  · obtain ⟨hnode, hfsel⟩ := Instr.nodeRead.inj (commandOf_of_decode h)
    rw [← hnode, ← hfsel]
    exact ⟨fieldNode_toNat w, fieldFsel_toNat w⟩

/-! The assembler (R95). -/

/-- Every number of FSEL's range names a field (R83 "All four are defined"). -/
theorem FSel.exists_toNat_eq {n : Nat} (hn : n < 4) : ∃ f : FSel, f.toNat = n :=
  ⟨FSel.ofBits (BitVec.ofNatLT n hn), FSel.toNat_ofBits _⟩

/-- FSEL's part of the assembler's formula. -/
theorem ofNat_fsel_eq_zext32 (f : FSel) : BitVec.ofNat 32 f.toNat = zext32 f.toBits := by
  cases f <;> decide

/-- The assembler's formula gives a command's line the command's word. -/
theorem assemble_toAsm (i : Instr) : assemble i.toAsm = some (encode i) := by
  have hwf : i.toAsm.wellFormed = true := instr_wellFormed i
  rw [assemble, if_pos hwf, ofNat_opcodeOf_shiftLeft, Option.some_inj]
  cases i <;>
    simp [encode, operandOf, Instr.toAsm, Instr.mnemonic, Mnemonic.format, Format.operandFields,
      ofNat_fsel_eq_zext32, zext32]

/-- The assembler refuses a line exactly when it is an assembly error. -/
theorem assemble_eq_none_iff (l : AsmLine) : assemble l = none ↔ l.wellFormed = false := by
  simp [assemble]

/-- A format N command has no operand to write. -/
theorem toAsm_commandOf_n {m : Mnemonic} (hf : m.format = .n) (w : Word) :
    (commandOf m w).toAsm = { mnemonic := m, operands := [] } := by
  cases m with
  | nop | ftClear | treeBuild | lutDerive | decSym | errClear => rfl
  | _ => cases hf

/-- A format S command writes its symbol. -/
theorem toAsm_commandOf_s {m : Mnemonic} (hf : m.format = .s) (w : Word) :
    (commandOf m w).toAsm = { mnemonic := m, operands := [(fieldSym w).toNat] } := by
  cases m with
  | ftAccum | ftLoad | ftRead | lutLen | encSym => rfl
  | _ => cases hf

/-- LUT_WORD is the only command of its format. -/
theorem eq_lutWord_of_format {m : Mnemonic} (hf : m.format = .sw) : m = .lutWord := by
  cases m with
  | lutWord => rfl
  | _ => cases hf

/-- NODE_READ is the only command of its format. -/
theorem eq_nodeRead_of_format {m : Mnemonic} (hf : m.format = .nf) : m = .nodeRead := by
  cases m with
  | nodeRead => rfl
  | _ => cases hf

/-- A well-formed line's operands stand one for one in the ranges of its format's fields. -/
theorem forall₂_of_wellFormed {l : AsmLine} (h : l.wellFormed = true) :
    List.Forall₂ (fun a f => a < f.size) l.operands l.mnemonic.format.operandFields := by
  obtain ⟨harity, hranges⟩ : l.arityOk = true ∧ l.rangesOk = true := by simpa [AsmLine.wellFormed] using h
  refine List.forall₂_iff_zip.mpr ⟨by simpa [AsmLine.arityOk] using harity, fun {a f} hmem => ?_⟩
  exact of_decide_eq_true (List.all_eq_true.mp hranges (a, f) hmem)

section
variable {m : Mnemonic} {ops : List Nat} (h : AsmLine.wellFormed { mnemonic := m, operands := ops } = true)
include h

theorem operands_of_format_n (hf : m.format = .n) : ops = [] := by
  have hops := forall₂_of_wellFormed h
  rw [hf] at hops
  exact List.forall₂_nil_right_iff.mp hops

theorem operands_of_format_s (hf : m.format = .s) : ∃ sym : Sym, ops = [sym.toNat] := by
  have hops := forall₂_of_wellFormed h
  rw [hf] at hops
  obtain - | ⟨hsym, - | -⟩ := hops
  exact ⟨BitVec.ofNatLT _ hsym, rfl⟩

theorem operands_of_format_sw (hf : m.format = .sw) :
    ∃ (sym : Sym) (widx : BitVec 3), ops = [sym.toNat, widx.toNat] := by
  have hops := forall₂_of_wellFormed h
  rw [hf] at hops
  obtain - | ⟨hsym, - | ⟨hwidx, - | -⟩⟩ := hops
  exact ⟨BitVec.ofNatLT _ hsym, BitVec.ofNatLT _ hwidx, rfl⟩

theorem operands_of_format_nf (hf : m.format = .nf) :
    ∃ (node : NodeIdx) (fsel : FSel), ops = [node.toNat, fsel.toNat] := by
  have hops := forall₂_of_wellFormed h
  rw [hf] at hops
  obtain - | ⟨hnode, - | ⟨hfsel, - | -⟩⟩ := hops
  obtain ⟨fsel, rfl⟩ := FSel.exists_toNat_eq hfsel
  exact ⟨BitVec.ofNatLT _ hnode, fsel, rfl⟩

end

/-- Every well-formed line is a command's line. -/
theorem exists_toAsm_of_wellFormed {l : AsmLine} (h : l.wellFormed = true) : ∃ i : Instr, i.toAsm = l := by
  obtain ⟨m, ops⟩ := l
  cases hf : m.format with
  | n =>
    obtain rfl := operands_of_format_n h hf
    exact ⟨commandOf m 0#32, toAsm_commandOf_n hf 0#32⟩
  | s =>
    obtain ⟨sym, rfl⟩ := operands_of_format_s h hf
    exact ⟨commandOf m (zext32 sym), by rw [toAsm_commandOf_s hf, fieldSym_zext32]⟩
  | sw =>
    obtain ⟨sym, widx, rfl⟩ := operands_of_format_sw h hf
    obtain rfl := eq_lutWord_of_format hf
    exact ⟨.lutWord sym widx, rfl⟩
  | nf =>
    obtain ⟨node, fsel, rfl⟩ := operands_of_format_nf h hf
    obtain rfl := eq_nodeRead_of_format hf
    exact ⟨.nodeRead node fsel, rfl⟩

/-- Settles O5: a line the assembler takes is a command's line, so its word is the command's. -/
theorem assemblerAndDecoderAgree : Obligations.AssemblerAndDecoderAgree := by
  refine ⟨assemble_toAsm, assemble_eq_none_iff, fun l w hw => ?_⟩
  have hwf : l.wellFormed = true := by
    rw [← Bool.not_eq_false, ← assemble_eq_none_iff, hw]
    exact Option.some_ne_none w
  obtain ⟨i, rfl⟩ := exists_toAsm_of_wellFormed hwf
  have hword : encode i = w := Option.some.inj ((assemble_toAsm i).symm.trans hw)
  exact ⟨i, decode_eq_some_iff_encode.mpr hword, rfl⟩

/-- Settles O6: each word's row and fields, evaluated. -/
theorem wordsTheSpecWritesOutDecode : Obligations.WordsTheSpecWritesOutDecode := by
  unfold Obligations.WordsTheSpecWritesOutDecode
  decide

end Sys2Proof
end

section
/-! PROOFS. `DO c` of the host (30_encoding R96): the run in which it issues a command and waits for its end. -/

namespace Sys2Proof.Machine

/-- The machine comes from one state to another by steps. -/
def Reaches : State → State → Prop := Relation.ReflTransGen fun s t => step s = .next t

/-- The block takes whatever command is written to CMD (R24 (c)). -/
structure Accepting (s : State) : Prop where
  rstN : s.rstN = true
  busy : s.busy = false
  err : s.err = false

section
variable {s t : State} {i : Instr} {rest : List HostEvent}

/-- A run begins with a step. -/
theorem run_succ_of_step (h : step s = .next t) (n : Nat) :
    Host.Core.run Sys2Proof.core (n + 1) s = Host.Core.run Sys2Proof.core n t := by
  have h : Sys2Proof.core.step s = .next t := h
  simp only [Host.Core.run, h]

/-- What is reached by steps is reached by a run of some length. -/
theorem exists_run_of_reaches (h : Reaches s t) : ∃ n, Host.Core.run Sys2Proof.core n s = .next t := by
  induction h using Relation.ReflTransGen.head_induction_on with
  | refl => exact ⟨0, rfl⟩
  | head hstep _ ih =>
    obtain ⟨n, hn⟩ := ih
    exact ⟨n + 1, (run_succ_of_step hstep n).trans hn⟩

/-- No command writes the list of host actions (log 1). -/
theorem CmdStep.pending_eq (h : CmdStep s i t) : t.pending = s.pending := by
  cases h <;> rfl

/-- The issue of a command to a block that takes it (O9). -/
theorem step_issue (h : Accepting s) (hp : s.pending = issue i ++ rest) :
    step s = .next (acceptCommand (encode i) { s with pending := rest }) := by
  obtain ⟨-, -, haccept, -⟩ := commandWriteIsDroppedDiscardedOrAccepted s (encode i) rest h.rstN hp
  exact haccept h.busy (.inl h.err)

/-- `DO c` of a command that ends in its first engine step: the issue, that step, and the end of the wait. -/
theorem reaches_doCommand (h : Accepting s) (hp : s.pending = doCommand i ++ rest)
    (hx : exec i (acceptCommand (encode i) { s with pending := .wait :: rest }) = .next t) (hb : t.busy = false) :
    Reaches s { t with pending := rest } := by
  have hengine : step (acceptCommand (encode i) { s with pending := .wait :: rest }) = .next t := by
    rw [step_of_wait_busy rfl rfl, ← hx]
    exact engineStep_run h.rstN rfl (decode_encode i)
  have hwait : t.pending = .wait :: rest := (cmdStep_of_exec hx).pending_eq
  exact .head (step_issue h hp) (.head hengine (.single (step_of_host (turnOf_wait_idle hwait hb))))

end
end Sys2Proof.Machine
end

section
/-! PROOFS. The frequency table's commands (40_frequency_table R100 to R107): what each leaves, and the histogram that
counting an input leaves (R105). -/

namespace Sys2Proof.Machine

section
variable {s t : State} {sym : Sym} {bytes : List Sym}

/-! The states the commands leave. -/

/-- The state FT_CLEAR leaves (R100). -/
def cleared (s : State) : State := complete (invalidate { s with freq := [], nsym := 0#9, total := 0#32 })

/-- The state FT_ACCUM leaves where it raises no error (R102). -/
def accumulated (sym : Sym) (s : State) : State := complete (invalidate
  { s.setFreq sym (s.freqOf sym + 1#32) with
    nsym := if s.freqOf sym = 0#32 then s.nsym + 1#9 else s.nsym
    total := s.total + 1#32 })

/-- The state FT_LOAD leaves where it raises no error (R103). -/
def loaded (sym : Sym) (s : State) : State := complete (invalidate
  { s.setFreq sym s.curData with
    nsym := s.nsym - presence (s.freqOf sym) + presence s.curData
    total := BitVec.ofInt 32 (loadTotal s sym) })

theorem exec_ftClear (s : State) : exec .ftClear s = .next (cleared s) := rfl

theorem exec_ftAccum_overflow (h : s.total = 0xFFFFFFFF#32) :
    exec (.ftAccum sym) s = .next (raiseError .overflow s) := if_pos h

theorem exec_ftAccum (h : s.total ≠ 0xFFFFFFFF#32) : exec (.ftAccum sym) s = .next (accumulated sym s) := if_neg h

theorem exec_ftLoad_overflow (h : loadTotal s sym > 0xFFFFFFFF) :
    exec (.ftLoad sym) s = .next (raiseError .overflow s) := if_pos h

theorem exec_ftLoad (h : loadTotal s sym ≤ 0xFFFFFFFF) : exec (.ftLoad sym) s = .next (loaded sym s) :=
  if_neg (not_lt.2 h)

/-! One command. -/

/-- Settles O18: the empty table reads 0 everywhere. -/
theorem ftClearEmptiesTheTable : Obligations.FtClearEmptiesTheTable :=
  ⟨decode_encode .ftClear, fun s => ⟨[], exec_ftClear s, fun _ => rfl⟩⟩

/-- Settles O21: FT_READ only hands the count to RESULT. -/
theorem ftReadReturnsTheCount : Obligations.FtReadReturnsTheCount :=
  fun _ sym => ⟨decode_encode (.ftRead sym), rfl⟩

/-- Settles O19: only the symbol's entry is written. -/
theorem ftAccumCountsOneOccurrence : Obligations.FtAccumCountsOneOccurrence := by
  intro s sym
  refine ⟨decode_encode (.ftAccum sym), exec_ftAccum_overflow, fun hw ht => ?_⟩
  obtain ⟨hf, -, -⟩ := (memoriesWf_iff s).1 hw
  exact ⟨_, exec_ftAccum ht, setFreq_freqOf_same sym _ hf, fun _ hx => setFreq_freqOf_other s _ hx⟩

/-- FT_LOAD's total is not negative, so below 2^32 its register holds it (R107 (b)). -/
theorem loaded_total (hc : CountInv s) (h : loadTotal s sym ≤ 0xFFFFFFFF) :
    ((loaded sym s).total.toNat : Int) = loadTotal s sym := by
  have hle := hc.freqOf_le_total sym
  have hpos : 0 ≤ loadTotal s sym := by
    unfold loadTotal
    omega
  change ((BitVec.ofInt 32 (loadTotal s sym)).toNat : Int) = _
  rw [BitVec.toNat_ofInt]
  omega

/-- FT_LOAD's change of NSYM does not wrap: a present symbol is among those counted, and there are 256 at most (R30). -/
theorem loaded_nsym (hc : CountInv s) :
    (loaded sym s).nsym.toNat + present (s.freqOf sym) = s.nsym.toNat + present s.curData := by
  have hle := hc.nsym_le
  have hpos := hc.present_le_nsym sym
  have hold := presence_toNat (s.freqOf sym)
  have hnew := presence_toNat s.curData
  have := present_le s.curData
  change (s.nsym - presence (s.freqOf sym) + presence s.curData).toNat + _ = _
  bv_omega

/-- Settles O20: the sums fit their registers where they agree with FREQ. -/
theorem ftLoadSetsTheCount : Obligations.FtLoadSetsTheCount := by
  intro s sym
  refine ⟨decode_encode (.ftLoad sym), exec_ftLoad_overflow, fun hw hc ht => ?_⟩
  obtain ⟨hf, -, -⟩ := (memoriesWf_iff s).1 hw
  refine ⟨_, _, _, exec_ftLoad ht, setFreq_freqOf_same sym _ hf, fun _ hx => setFreq_freqOf_other s _ hx,
    loaded_total hc ht, ?_⟩
  have := loaded_nsym (sym := sym) hc
  unfold present at this
  change ((loaded sym s).nsym.toNat : Int) = _
  split_ifs at this ⊢ <;> omega

/-! Counting an input. -/

/-- FREQ is the histogram of an input, and NSYM and TOTAL agree with it (R30, R31). -/
structure Histogram (bytes : List Sym) (s : State) : Prop where
  memories : s.memoriesWf = true
  count : CountInv s
  freq : ∀ x, (s.freqOf x).toNat = bytes.count x

/-- The numbers of occurrences of all symbols add up to the length. -/
theorem sum_count_allSyms (bytes : List Sym) : (allSyms.map fun x => bytes.count x).sum = bytes.length := by
  have hmem : ∀ x ∈ (bytes : Multiset Sym), x ∈ allSyms.toFinset := fun x _ => List.mem_toFinset.2 (mem_allSyms x)
  rw [← List.sum_toFinset (fun x => bytes.count x) allSyms_nodup]
  simpa only [Multiset.coe_count, Multiset.coe_card] using Multiset.sum_count_eq_card hmem

/-- TOTAL is the input's length. -/
theorem Histogram.total (h : Histogram bytes s) : s.total.toNat = bytes.length := by
  rw [h.count.total, ← sum_count_allSyms bytes]
  exact congrArg List.sum (List.map_congr_left fun x _ => h.freq x)

/-- NSYM is the number of different bytes: those are the present symbols. -/
theorem Histogram.nsym (h : Histogram bytes s) : s.nsym.toNat = bytes.dedup.length := by
  have hmem : ∀ x, x ∈ presentSyms s.freq ↔ x ∈ bytes.dedup := by
    intro x
    rw [mem_presentSyms, List.mem_dedup, ← List.count_pos_iff, ← h.freq x, Nat.pos_iff_ne_zero, ne_eq, ne_eq,
      ← BitVec.toNat_inj]
    rfl
  rw [h.count.nsym]
  exact ((List.perm_ext_iff_of_nodup (presentSyms_nodup _) bytes.nodup_dedup).2 hmem).length_eq

/-- FT_CLEAR leaves the histogram of the empty input. -/
theorem histogram_cleared (hw : s.memoriesWf = true) : Histogram [] (cleared s) :=
  ⟨(cmdStep_of_exec (exec_ftClear s)).memoriesWf hw, countInv_empty rfl rfl rfl, fun _ => rfl⟩

/-- A shorter input than 2^32 - 1 bytes leaves room for one more. -/
theorem Histogram.total_ne_max (h : Histogram bytes s) (hl : bytes.length < 0xFFFFFFFF) :
    s.total ≠ 0xFFFFFFFF#32 :=
  fun he => hl.ne (h.total.symm.trans (congrArg BitVec.toNat he))

/-- FT_ACCUM adds its symbol to the input counted. -/
theorem Histogram.ftAccum (h : Histogram bytes s) (b : Sym) (hl : bytes.length < 0xFFFFFFFF) :
    Histogram (bytes ++ [b]) (accumulated b s) := by
  have hstep := cmdStep_of_exec (exec_ftAccum (sym := b) (h.total_ne_max hl))
  obtain ⟨hf, -, -⟩ := (memoriesWf_iff s).1 h.memories
  refine ⟨hstep.memoriesWf h.memories, hstep.countInv h.memories h.count, fun x => ?_⟩
  have hcount := h.freq x
  rw [List.count_append, List.count_singleton]
  by_cases hx : x = b
  · subst hx
    have hsame : (accumulated x s).freqOf x = s.freqOf x + 1#32 := setFreq_freqOf_same x _ hf
    have hle : bytes.count x ≤ bytes.length := List.count_le_length
    rw [hsame, beq_self_eq_true, if_pos rfl]
    bv_omega
  · have hother : (accumulated b s).freqOf x = s.freqOf x := setFreq_freqOf_other s _ hx
    rw [hother, hcount, if_neg (by simpa using Ne.symm hx), Nat.add_zero]

/-- The histogram speaks of the tables only. -/
theorem Histogram.congr (h : Histogram bytes s) (ht : SameTables s t) : Histogram bytes t :=
  ⟨ht.memoriesWf h.memories, ht.countInv h.count, fun x => by rw [State.freqOf, ht.freq]; exact h.freq x⟩

/-- The acceptance of a command touches no table. -/
theorem sameTables_accepted (s : State) (w : Word) (rest : List HostEvent) :
    SameTables s (acceptCommand w { s with pending := rest }) := by
  constructor <;> rfl

/-- Nor do the host's actions still to come. -/
theorem sameTables_setPending (s : State) (rest : List HostEvent) : SameTables s { s with pending := rest } := by
  constructor <;> rfl

/-- `DO c` of a command that ends without error leaves the histogram its step leaves, and the block takes the next. -/
theorem reaches_histogram {i : Instr} {rest : List HostEvent} (ha : Accepting s) (hp : s.pending = doCommand i ++ rest)
    (hx : exec i (acceptCommand (encode i) { s with pending := .wait :: rest }) = .next t) (hb : t.busy = false)
    (he : t.err = false) (h : Histogram bytes t) :
    ∃ u, Reaches s u ∧ u.pending = rest ∧ Accepting u ∧ Histogram bytes u :=
  ⟨_, reaches_doCommand ha hp hx hb, rfl, ⟨(cmdStep_of_exec hx).rstN_eq.trans ha.rstN, hb, he⟩,
    h.congr (sameTables_setPending t rest)⟩

/-- `COUNT` of a further input: one FT_ACCUM a byte. -/
theorem reaches_countCommands (more : List Sym) {seen : List Sym} (ha : Accepting s) (h : Histogram seen s)
    (hp : s.pending = countCommands more) (hl : (seen ++ more).length ≤ 0xFFFFFFFF) :
    ∃ t, Reaches s t ∧ t.pending = [] ∧ Accepting t ∧ Histogram (seen ++ more) t := by
  induction more generalizing s seen with
  | nil => exact ⟨s, .refl, hp, ha, by rwa [List.append_nil]⟩
  | cons b more ih =>
    have hlt : seen.length < 0xFFFFFFFF := by
      rw [List.length_append, List.length_cons] at hl
      omega
    have haccepted := h.congr (sameTables_accepted s (encode (.ftAccum b)) (.wait :: countCommands more))
    obtain ⟨u, hu, hup, hua, hcount⟩ := reaches_histogram ha hp (exec_ftAccum (haccepted.total_ne_max hlt)) rfl ha.err
      (haccepted.ftAccum b hlt)
    obtain ⟨t, ht, hdone⟩ := ih hua hcount hup (by rwa [List.append_assoc])
    rw [List.append_assoc] at hdone
    exact ⟨t, hu.trans ht, hdone⟩

/-- Settles O34: FT_CLEAR leaves the histogram of the empty input, and each FT_ACCUM adds its byte. -/
theorem countingGivesTheHistogram : Obligations.CountingGivesTheHistogram := by
  intro s bytes hw hr hb he hl
  have hmemories := (sameTables_accepted s (encode .ftClear) (.wait :: countCommands bytes)).memoriesWf hw
  obtain ⟨u, hu, hup, hua, hclear⟩ :=
    reaches_histogram (s := { s with pending := doCommand .ftClear ++ countCommands bytes }) ⟨hr, hb, he⟩ rfl
      (exec_ftClear _) rfl he (histogram_cleared hmemories)
  obtain ⟨t, ht, hp, ha, h⟩ := reaches_countCommands bytes hua hclear hup hl
  obtain ⟨n, hn⟩ := exists_run_of_reaches (hu.trans ht)
  exact ⟨n, t, hn, hp, ha.busy, ha.err, h.freq, h.total, h.nsym⟩

end
end Sys2Proof.Machine
end

section
/-! PROOFS. The merge loop of BuildTree (41_tree_builder R120, R122): at every turn the queue holds the nodes no join has
taken, and the turn joins the two least of them. -/

namespace Sys2Proof.Machine

/-! The queue order (R120). -/

section
variable {a b c : Key}

theorem Key.before_iff : a.before b = true ↔ a.w < b.w ∨ (a.w = b.w ∧ a.idx < b.idx) := by
  simp [Key.before]

theorem Key.before_trans (hab : a.before b = true) (hbc : b.before c = true) : a.before c = true := by
  rw [Key.before_iff] at *
  bv_omega

theorem Key.before_of_ne (hne : a ≠ b) (h : ¬ b.before a = true) : a.before b = true := by
  obtain ⟨w, i⟩ := a
  obtain ⟨w', i'⟩ := b
  simp only [Key.before_iff, ne_eq, Key.mk.injEq] at *
  bv_omega

/-- Nothing in the queue comes before its least key. -/
theorem not_before_leastKey {k : Key} {ks : List Key} : ∀ x ∈ k :: ks, ¬ x.before (leastKey k ks) = true := by
  induction ks generalizing k with
  | nil => simp [leastKey, Key.before]
  | cons k' rest ih =>
    rw [leastKey]
    split
    · next hlt =>
      have ih := ih (k := k')
      simp only [List.mem_cons, forall_eq_or_imp] at ih ⊢
      exact ⟨fun h => ih.1 (Key.before_trans hlt h), ih⟩
    · next hge =>
      have ih := ih (k := k)
      simp only [List.mem_cons, forall_eq_or_imp] at ih ⊢
      refine ⟨ih.1, fun h => ?_, ih.2⟩
      by_cases hk : k = k'
      · exact ih.1 (hk ▸ h)
      · exact ih.1 (Key.before_trans (Key.before_of_ne hk hge) h)

/-- What is taken comes before all that is left. -/
theorem takeLeast_before {q rest : List Key} (hn : q.Nodup) (h : takeLeast q = some (a, rest)) :
    ∀ k ∈ rest, a.before k = true := by
  intro k hk
  have hperm := takeLeast_perm h
  have hne : a ≠ k := fun e => (List.nodup_cons.1 (hperm.nodup_iff.1 hn)).1 (e ▸ hk)
  refine Key.before_of_ne hne ?_
  cases q with
  | nil => simp [takeLeast] at h
  | cons k0 ks =>
    have hmem : k ∈ k0 :: ks := hperm.mem_iff.2 (List.mem_cons_of_mem _ hk)
    simp only [takeLeast, Option.some.injEq, Prod.mk.injEq] at h
    exact h.1 ▸ not_before_leastKey k hmem

/-- `first` and `second` are the two least keys of the queue `q`, and `rest` is what they leave of it. -/
structure TakesTwoLeast (q : List Key) (first second : Key) (rest : List Key) : Prop where
  mem_first : first ∈ q
  mem_second : second ∈ q
  ne : first ≠ second
  least : ∀ k ∈ q, k ≠ first → first.before k = true
  nextLeast : ∀ k ∈ q, k ≠ first → k ≠ second → second.before k = true
  nodup : rest.Nodup
  mem_rest : ∀ k, k ∈ rest ↔ k ∈ q ∧ k ≠ first ∧ k ≠ second

/-- Taking the least key twice from a queue without duplicates. -/
theorem takesTwoLeast_of_takeLeast {q q1 rest : List Key} (hn : q.Nodup) (h1 : takeLeast q = some (a, q1))
    (h2 : takeLeast q1 = some (b, rest)) : TakesTwoLeast q a b rest := by
  have hp1 := takeLeast_perm h1
  have hp2 := takeLeast_perm h2
  obtain ⟨ha, hn1⟩ := List.nodup_cons.1 (hp1.nodup_iff.1 hn)
  obtain ⟨hb, hn2⟩ := List.nodup_cons.1 (hp2.nodup_iff.1 hn1)
  have hmem1 : ∀ k, k ∈ q1 ↔ k ∈ q ∧ k ≠ a := fun k => by
    rw [hp1.mem_iff, List.mem_cons]
    exact ⟨fun hk => ⟨.inr hk, fun e => ha (e ▸ hk)⟩, fun ⟨hk, hka⟩ => hk.resolve_left hka⟩
  have hmem2 : ∀ k, k ∈ rest ↔ k ∈ q1 ∧ k ≠ b := fun k => by
    rw [hp2.mem_iff, List.mem_cons]
    exact ⟨fun hk => ⟨.inr hk, fun e => hb (e ▸ hk)⟩, fun ⟨hk, hkb⟩ => hk.resolve_left hkb⟩
  obtain ⟨hbq, hba⟩ := (hmem1 b).1 (hp2.mem_iff.2 List.mem_cons_self)
  exact
    { mem_first := hp1.mem_iff.2 List.mem_cons_self
      mem_second := hbq
      ne := hba.symm
      least := fun k hk hka => takeLeast_before hn h1 k ((hmem1 k).2 ⟨hk, hka⟩)
      nextLeast := fun k hk hka hkb => takeLeast_before hn1 h2 k ((hmem2 k).2 ⟨(hmem1 k).2 ⟨hk, hka⟩, hkb⟩)
      nodup := hn2
      mem_rest := fun k => by rw [hmem2, hmem1, and_assoc] }

end

/-! The nodes left at a turn, and the join of the two least. -/

/-- The key of node `i` (R120). -/
def keyOf (node : Nat → Node) (i : Nat) : Key := { w := (node i).w, idx := i }

/-- The nodes that stand before node `n + k` and are no child of a join among them, `n` being the first join. -/
def leftAt (node : Nat → Node) (n k : Nat) : Finset Nat :=
  (Finset.range (n + k)).filter fun i => ∀ j ∈ Finset.Ico n (n + k), (node j).c0.toNat ≠ i ∧ (node j).c1.toNat ≠ i

/-- Node `n + k` joins `a` and `b`, the least and the next least of the nodes left (R122 step 2). -/
structure JoinsTwoLeast (node : Nat → Node) (n k a b : Nat) : Prop where
  mem_first : a ∈ leftAt node n k
  mem_second : b ∈ leftAt node n k
  ne : a ≠ b
  least : ∀ i ∈ leftAt node n k, i ≠ a → (keyOf node a).before (keyOf node i) = true
  nextLeast : ∀ i ∈ leftAt node n k, i ≠ a → i ≠ b → (keyOf node b).before (keyOf node i) = true
  join : node (n + k) = joinNode (keyOf node a) (keyOf node b)

section
variable {node : Nat → Node} {n k a b : Nat}

theorem mem_leftAt {i : Nat} : i ∈ leftAt node n k ↔
    i < n + k ∧ ∀ j, n ≤ j → j < n + k → (node j).c0.toNat ≠ i ∧ (node j).c1.toNat ≠ i := by
  simp [leftAt]

theorem leftAt_zero (node : Nat → Node) (n : Nat) : leftAt node n 0 = Finset.range n := by
  simp [leftAt]

/-- The children's indices are those joined: they fit a node index. -/
theorem JoinsTwoLeast.children (h : JoinsTwoLeast node n k a b) (hk : n + k ≤ 512) :
    (node (n + k)).c0.toNat = a ∧ (node (n + k)).c1.toNat = b := by
  have ha := (mem_leftAt.1 h.mem_first).1
  have hb := (mem_leftAt.1 h.mem_second).1
  simp only [h.join, joinNode, keyOf, BitVec.toNat_ofNat]
  omega

/-- The joins among the nodes before node `m` are over nodes before them (R124 (d)). -/
def ChildrenBelow (node : Nat → Node) (n m : Nat) : Prop :=
  ∀ j, n ≤ j → j < m → (node j).c0.toNat < j ∧ (node j).c1.toNat < j

theorem childrenBelow_zero (node : Nat → Node) (n : Nat) : ChildrenBelow node n (n + 0) :=
  fun _ hj hjn => absurd hj (Nat.not_le.2 hjn)

theorem JoinsTwoLeast.childrenBelow (h : JoinsTwoLeast node n k a b) (hk : n + k ≤ 512)
    (hlow : ChildrenBelow node n (n + k)) : ChildrenBelow node n (n + (k + 1)) := by
  obtain ⟨h0, h1⟩ := h.children hk
  have ha := (mem_leftAt.1 h.mem_first).1
  have hb := (mem_leftAt.1 h.mem_second).1
  intro j hj hjk
  obtain hlt | rfl : j < n + k ∨ j = n + k := by omega
  · exact hlow j hj hlt
  · omega

/-- A join takes its children from the nodes left and is left itself. -/
theorem JoinsTwoLeast.leftAt_succ (h : JoinsTwoLeast node n k a b) (hk : n + k ≤ 512)
    (hlow : ChildrenBelow node n (n + k)) :
    leftAt node n (k + 1) = insert (n + k) (((leftAt node n k).erase a).erase b) := by
  obtain ⟨h0, h1⟩ := h.children hk
  have ha := (mem_leftAt.1 h.mem_first).1
  have hb := (mem_leftAt.1 h.mem_second).1
  ext i
  simp only [Finset.mem_insert, Finset.mem_erase, mem_leftAt]
  constructor
  · rintro ⟨hi, hfree⟩
    by_cases hnew : i = n + k
    · exact .inl hnew
    · have hlast := hfree (n + k) (by omega) (by omega)
      exact .inr ⟨by omega, by omega, by omega, fun j hj hjk => hfree j hj (by omega)⟩
  · rintro (rfl | ⟨hib, hia, hi, hfree⟩)
    · refine ⟨by omega, fun j hj hjk => ?_⟩
      have := h.childrenBelow hk hlow j hj hjk
      omega
    · refine ⟨by omega, fun j hj hjk => ?_⟩
      obtain hlt | rfl : j < n + k ∨ j = n + k := by omega
      · exact hfree j hj hlt
      · omega

end

/-! One turn of the loop. -/

/-- The list's nodes as a function of the index. -/
def ReadsNodes (node : Nat → Node) (ns : List Node) : Prop := ∀ i m, ns[i]? = some m → node i = m

theorem ReadsNodes.of_append {node : Nat → Node} {ns more : List Node} (h : ReadsNodes node (ns ++ more)) :
    ReadsNodes node ns :=
  fun i m hm => h i m (by rwa [List.getElem?_append_left (List.getElem?_eq_some_iff.1 hm).1])

/-- BuildTree in progress after `k` turns from `n` leaves: `n + k` nodes, and in the queue the keys of those left. -/
structure Build.AtTurn (node : Nat → Node) (n k : Nat) (b : Build) : Prop where
  nodes : b.nodes.length = n + k
  nodup : b.queue.Nodup
  queue : ∀ key, key ∈ b.queue ↔ key.idx ∈ leftAt node n k ∧ key = keyOf node key.idx
  childrenBelow : ChildrenBelow node n (n + k)

section
variable {node : Nat → Node} {n k : Nat} {b : Build} {freq : Memory Word}

section
variable (h : b.AtTurn node n k)
include h

theorem Build.AtTurn.mem_keyOf {i : Nat} (hi : i ∈ leftAt node n k) : keyOf node i ∈ b.queue :=
  (h.queue _).2 ⟨hi, rfl⟩

theorem Build.AtTurn.mem_left {key : Key} (hk : key ∈ b.queue) : key.idx ∈ leftAt node n k :=
  ((h.queue key).1 hk).1

theorem Build.AtTurn.keyOf_idx {key : Key} (hk : key ∈ b.queue) : keyOf node key.idx = key :=
  ((h.queue key).1 hk).2.symm

theorem Build.AtTurn.idx_ne {key key' : Key} (hk : key ∈ b.queue) (hk' : key' ∈ b.queue) (hne : key ≠ key') :
    key.idx ≠ key'.idx :=
  fun e => hne (by rw [← h.keyOf_idx hk, ← h.keyOf_idx hk', e])

theorem Build.AtTurn.node_appended {m : Node} (hr : ReadsNodes node (b.nodes ++ [m])) : node (n + k) = m :=
  h.nodes ▸ hr _ _ List.getElem?_concat_length

variable {first second : Key} {rest : List Key} (ht : TakesTwoLeast b.queue first second rest)
include ht

theorem Build.AtTurn.mem_rest {key : Key} : key ∈ rest ↔
    key.idx ∈ ((leftAt node n k).erase first.idx).erase second.idx ∧ key = keyOf node key.idx := by
  rw [ht.mem_rest, Finset.mem_erase, Finset.mem_erase]
  constructor
  · rintro ⟨hk, hkf, hks⟩
    exact ⟨⟨h.idx_ne hk ht.mem_second hks, h.idx_ne hk ht.mem_first hkf, h.mem_left hk⟩, (h.keyOf_idx hk).symm⟩
  · rintro ⟨⟨hks, hkf, hk⟩, he⟩
    exact ⟨(h.queue key).2 ⟨hk, he⟩, fun e => hkf (congrArg Key.idx e), fun e => hks (congrArg Key.idx e)⟩

variable (hr : ReadsNodes node (b.nodes ++ [joinNode first second]))
include hr

/-- The two keys a turn takes are those of the two least nodes left, and the node it appends is their join. -/
theorem Build.AtTurn.joinsTwoLeast : JoinsTwoLeast node n k first.idx second.idx := by
  have hf := h.keyOf_idx ht.mem_first
  have hs := h.keyOf_idx ht.mem_second
  exact
    { mem_first := h.mem_left ht.mem_first
      mem_second := h.mem_left ht.mem_second
      ne := h.idx_ne ht.mem_first ht.mem_second ht.ne
      least := fun i hi hif => by
        rw [hf]
        exact ht.least _ (h.mem_keyOf hi) fun e => hif (congrArg Key.idx e)
      nextLeast := fun i hi hif his => by
        rw [hs]
        exact ht.nextLeast _ (h.mem_keyOf hi) (fun e => hif (congrArg Key.idx e)) fun e => his (congrArg Key.idx e)
      join := by rw [hf, hs, h.node_appended hr] }

/-- After the turn the queue holds the keys of the nodes then left. -/
theorem Build.AtTurn.join (hk : n + k ≤ 512) : Build.AtTurn node n (k + 1)
    { nodes := b.nodes ++ [joinNode first second]
      queue := rest ++ [{ w := first.w + second.w, idx := b.nodes.length }] } := by
  have hj := h.joinsTwoLeast ht hr
  have hnew : ({ w := first.w + second.w, idx := b.nodes.length } : Key) = keyOf node (n + k) := by
    rw [keyOf, h.node_appended hr, h.nodes]
    rfl
  have hfresh : keyOf node (n + k) ∉ rest := fun hm =>
    Nat.lt_irrefl _ (mem_leftAt.1 (h.mem_left ((ht.mem_rest _).1 hm).1)).1
  rw [hnew]
  refine ⟨by simp [h.nodes, Nat.add_assoc], ?_, fun key => ?_, hj.childrenBelow hk h.childrenBelow⟩
  · exact ht.nodup.append (List.nodup_singleton _) (List.disjoint_singleton.2 hfresh)
  · rw [List.mem_append, List.mem_singleton, h.mem_rest ht, hj.leftAt_succ hk h.childrenBelow, Finset.mem_insert,
      or_comm, or_and_right]
    refine or_congr_left ⟨?_, fun ⟨hidx, hkey⟩ => hidx ▸ hkey⟩
    rintro rfl
    exact ⟨rfl, rfl⟩

end

/-- A turn with more than one node left. -/
theorem Build.AtTurn.mergeOnce (h : b.AtTurn node n k) (hq : 1 < b.queue.length) (hk : n + k ≤ 512)
    (hr : ReadsNodes node (mergeOnce b).nodes) :
    (mergeOnce b).AtTurn node n (k + 1) ∧ ∃ a c, JoinsTwoLeast node n k a c := by
  rcases mergeOnce_cases b with ⟨hle, -⟩ | ⟨first, q1, second, q2, h1, h2, he⟩
  · omega
  · rw [he] at hr ⊢
    have ht := takesTwoLeast_of_takeLeast h.nodup h1 h2
    exact ⟨h.join ht hr hk, _, _, h.joinsTwoLeast ht hr⟩

/-! The loop. -/

theorem mergeAll_succ_eq (turns : Nat) (b : Build) : mergeAll (turns + 1) b = mergeOnce (mergeAll turns b) := by
  induction turns generalizing b with
  | zero => rfl
  | succ turns ih => exact ih (mergeOnce b)

theorem mergeOnce_nodes_prefix (b : Build) : b.nodes <+: (mergeOnce b).nodes := by
  rcases mergeOnce_cases b with ⟨-, he⟩ | ⟨_, _, _, _, -, -, he⟩
  · rw [he]
  · rw [he]
    exact List.prefix_append _ _

/-- No turn changes a node that stands. -/
theorem mergeAll_nodes_prefix {turns turns' : Nat} (h : turns ≤ turns') (b : Build) :
    (mergeAll turns b).nodes <+: (mergeAll turns' b).nodes := by
  induction h with
  | refl => exact List.prefix_refl _
  | step _ ih => exact ih.trans (mergeAll_succ_eq _ b ▸ mergeOnce_nodes_prefix _)

/-- Before the first turn every leaf is left. -/
theorem buildStart_atTurn (hr : ReadsNodes node (leafNodes freq)) :
    (buildStart freq).AtTurn node (leafNodes freq).length 0 := by
  have hqueue : (buildStart freq).queue = (List.range (leafNodes freq).length).map (keyOf node) := by
    refine List.ext_getElem (by simp [buildStart]) fun i hi hi' => ?_
    have := hr i _ (List.getElem?_eq_getElem (by simpa using hi'))
    simp [buildStart, keyOf, this]
  refine ⟨rfl, ?_, fun key => ?_, childrenBelow_zero _ _⟩
  · rw [hqueue]
    exact List.nodup_range.map fun _ _ e => congrArg Key.idx e
  · rw [hqueue, leftAt_zero, List.mem_map, Finset.mem_range]
    constructor
    · rintro ⟨i, hi, rfl⟩
      exact ⟨List.mem_range.1 hi, rfl⟩
    · rintro ⟨hi, hkey⟩
      exact ⟨key.idx, List.mem_range.2 hi, hkey.symm⟩

end

/-! The tree. -/

/-- The nodes of a tree of `n` leaves that R122 makes: the leaves, then the joins. -/
structure JoinTree (n : Nat) (node : Nat → Node) : Prop where
  size_pos : 1 ≤ n
  size_le : n ≤ 256
  leaf : ∀ k, k < n → (node k).leaf = true
  joins : ∀ k, k + 1 < n → ∃ a b, JoinsTwoLeast node n k a b

section
variable {node : Nat → Node} {freq : Memory Word}

theorem readsNodes_mergeAll (hr : ReadsNodes node (buildTree freq).nodes) {k : Nat}
    (hk : k ≤ (presentSyms freq).length) : ReadsNodes node (mergeAll k (buildStart freq)).nodes := by
  obtain ⟨more, hmore⟩ := mergeAll_nodes_prefix (leafNodes_length freq ▸ hk) (buildStart freq)
  exact ReadsNodes.of_append (hmore ▸ hr)

variable (h : presentSyms freq ≠ []) (hr : ReadsNodes node (buildTree freq).nodes)
include h hr

/-- A turn the loop takes. -/
theorem Build.AtTurn.turn {k : Nat} (hk : k + 1 < (presentSyms freq).length)
    (ht : (mergeAll k (buildStart freq)).AtTurn node (presentSyms freq).length k) :
    (mergeAll (k + 1) (buildStart freq)).AtTurn node (presentSyms freq).length (k + 1)
      ∧ ∃ a b, JoinsTwoLeast node (presentSyms freq).length k a b := by
  have hle := presentSyms_length_le freq
  have hcount := ((buildStart_sound h).mergeAll (by simpa using hle) k).count
  rw [ht.nodes, leafNodes_length] at hcount
  have hreads := readsNodes_mergeAll hr (Nat.le_of_lt hk)
  rw [mergeAll_succ_eq] at hreads ⊢
  exact ht.mergeOnce (by omega) (by omega) hreads

theorem mergeAll_atTurn {k : Nat} (hk : k < (presentSyms freq).length) :
    (mergeAll k (buildStart freq)).AtTurn node (presentSyms freq).length k := by
  induction k with
  | zero =>
    have hstart := buildStart_atTurn (readsNodes_mergeAll hr (Nat.zero_le _))
    rwa [leafNodes_length] at hstart
  | succ k ih => exact ((ih (Nat.lt_of_succ_lt hk)).turn h hr hk).1

/-- What BuildTree makes: leaves, then joins of the two least nodes left. -/
theorem joinTree_of_readsNodes : JoinTree (presentSyms freq).length node where
  size_pos := List.length_pos_iff.2 h
  size_le := presentSyms_length_le freq
  leaf k hk := by
    have hm := List.getElem?_eq_getElem (l := leafNodes freq) (by simpa using hk)
    rw [hr k _ (buildTree_getElem?_of_leafNodes h hm)]
    exact leaf_of_mem_leafNodes (List.getElem_mem _)
  joins k hk := ((mergeAll_atTurn h hr (Nat.lt_of_succ_lt hk)).turn h hr hk).2

end

/-- The nodes BuildTree makes, by index. -/
def treeNode (freq : Memory Word) (i : Nat) : Node := (buildTree freq).nodes.getD i nodeDefault

theorem readsNodes_treeNode (freq : Memory Word) : ReadsNodes (treeNode freq) (buildTree freq).nodes :=
  fun i m hm => by simp [treeNode, List.getD_eq_getElem?_getD, hm]

/-- Settles O35: what the loop's queue holds at each turn is what `left` says, so its two least are the node's children. -/
theorem buildTreeJoinsTheTwoLeastNodesLeft : Obligations.BuildTreeJoinsTheTwoLeastNodesLeft := by
  rintro freq n rfl hn
  have hne : presentSyms freq ≠ [] := List.length_pos_iff.1 hn
  have hlen := buildTree_length hne
  refine ⟨treeNode freq, fun i => ?_, ?_, fun k hk => ?_, fun k hk => ?_⟩
  · rw [← hlen]
    split
    · next hi => rw [treeNode, List.getD_eq_getElem _ _ hi, List.getElem?_eq_getElem hi]
    · next hi => exact List.getElem?_eq_none (Nat.le_of_not_lt hi)
  · have := buildTree_root hne
    omega
  · have hs := List.getElem?_eq_getElem hk
    have hleaf : (leafNodes freq)[k]? = some (leafNode (presentSyms freq)[k] (freqAt freq (presentSyms freq)[k])) := by
      rw [leafNodes_eq_map, List.getElem?_map, hs]
      rfl
    exact ⟨_, hs, readsNodes_treeNode freq k _ (buildTree_getElem?_of_leafNodes hne hleaf)⟩
  · obtain ⟨a, b, hj⟩ := (joinTree_of_readsNodes hne (readsNodes_treeNode freq)).joins k (by omega)
    refine ⟨fun i => i ∈ leftAt (treeNode freq) _ k,
      fun i j => (keyOf (treeNode freq) i).before (keyOf (treeNode freq) j) = true, a, b, fun i => mem_leftAt,
      fun i j => Key.before_iff, hj.mem_first, hj.mem_second, hj.ne, hj.least, hj.nextLeast, hj.join⟩

end Sys2Proof.Machine
end

section
/-! PROOFS. What the joins of the two least nodes left make of the leaves (41_tree_builder R124): a full binary tree whose
weights are exact sums. -/

namespace Sys2Proof.Machine

/-- Node `i` is a child of node `p`. -/
def IsChild (node : Nat → Node) (p i : Nat) : Prop := (node p).c0.toNat = i ∨ (node p).c1.toNat = i

theorem JoinsTwoLeast.leaf {node : Nat → Node} {n k a b : Nat} (h : JoinsTwoLeast node n k a b) :
    (node (n + k)).leaf = false := by
  rw [h.join]
  rfl

/-- A node left at a turn is no child of a join before it. -/
theorem not_isChild_of_mem_leftAt {node : Nat → Node} {n k i p : Nat} (h : i ∈ leftAt node n k) (hp : n ≤ p)
    (hpk : p < n + k) : ¬ IsChild node p i :=
  not_or.2 ((mem_leftAt.1 h).2 p hp hpk)

section
variable {n : Nat} {node : Nat → Node}

section
variable (h : JoinTree n node)
include h

theorem JoinTree.childrenBelow {k : Nat} (hk : k < n) : ChildrenBelow node n (n + k) := by
  induction k with
  | zero => exact childrenBelow_zero node n
  | succ k ih =>
    obtain ⟨a, b, hj⟩ := h.joins k hk
    have := h.size_le
    exact hj.childrenBelow (by omega) (ih (Nat.lt_of_succ_lt hk))

/-- A sum over the nodes left moves from the two joined to their join. -/
theorem JoinTree.sum_leftAt_succ {M : Type} [AddCommMonoid M] (f : Nat → M) {k a b : Nat} (hk : k + 1 < n)
    (hj : JoinsTwoLeast node n k a b) :
    ∑ i ∈ leftAt node n (k + 1), f i + (f a + f b) = ∑ i ∈ leftAt node n k, f i + f (n + k) := by
  have := h.size_le
  have hfresh : n + k ∉ ((leftAt node n k).erase a).erase b := fun hm =>
    Nat.lt_irrefl _ (mem_leftAt.1 (Finset.mem_of_mem_erase (Finset.mem_of_mem_erase hm))).1
  rw [hj.leftAt_succ (by omega) (h.childrenBelow (Nat.lt_of_succ_lt hk)), Finset.sum_insert hfresh,
    ← Finset.add_sum_erase _ f hj.mem_first, ← Finset.add_sum_erase _ f (Finset.mem_erase.2 ⟨hj.ne.symm, hj.mem_second⟩)]
  abel

/-- Each join leaves one node fewer. -/
theorem JoinTree.card_leftAt {k : Nat} (hk : k < n) : (leftAt node n k).card + k = n := by
  induction k with
  | zero => simp [leftAt_zero]
  | succ k ih =>
    obtain ⟨a, b, hj⟩ := h.joins k hk
    have hcard := h.sum_leftAt_succ (fun _ => 1) hk hj
    simp only [← Finset.card_eq_sum_ones] at hcard
    have := ih (Nat.lt_of_succ_lt hk)
    omega

/-- Only the root is left at the end. -/
theorem JoinTree.leftAt_last : leftAt node n (n - 1) = {2 * n - 2} := by
  have hn := h.size_pos
  have hcard := h.card_leftAt (k := n - 1) (by omega)
  have hroot : 2 * n - 2 ∈ leftAt node n (n - 1) := by
    refine mem_leftAt.2 ⟨by omega, fun j hj hjk => ?_⟩
    have := h.childrenBelow (k := n - 1) (by omega) j hj hjk
    omega
  exact (Finset.eq_of_subset_of_card_le (Finset.singleton_subset_iff.2 hroot) (by simp; omega)).symm

/-- A node from the `n`-th on is a join. -/
theorem JoinTree.join_at {p : Nat} (hp : n ≤ p) (hpn : p < 2 * n - 1) : ∃ k a b, p = n + k ∧ k + 1 < n ∧
    JoinsTwoLeast node n k a b ∧ (node p).c0.toNat = a ∧ (node p).c1.toNat = b := by
  obtain ⟨k, rfl⟩ := Nat.exists_eq_add_of_le hp
  obtain ⟨a, b, hj⟩ := h.joins k (by omega)
  have := h.size_le
  obtain ⟨h0, h1⟩ := hj.children (by omega)
  exact ⟨k, a, b, rfl, by omega, hj, h0, h1⟩

theorem JoinTree.leaf_iff {i : Nat} (hi : i < 2 * n - 1) : (node i).leaf = true ↔ i < n := by
  refine ⟨fun hl => ?_, h.leaf i⟩
  by_contra hn
  obtain ⟨k, a, b, rfl, -, hj, -⟩ := h.join_at (Nat.le_of_not_lt hn) hi
  simp [hj.leaf] at hl

theorem JoinTree.internal_iff {i : Nat} (hi : i < 2 * n - 1) : (node i).leaf = false ↔ n ≤ i := by
  rw [← Nat.not_lt, ← h.leaf_iff hi, Bool.not_eq_true]

/-- The children come before their parent and differ (R124 (a), (d)). -/
theorem JoinTree.child_lt {p i : Nat} (hp : n ≤ p) (hpn : p < 2 * n - 1) (hc : IsChild node p i) : i < p := by
  obtain ⟨k, a, b, rfl, -, hj, h0, h1⟩ := h.join_at hp hpn
  have ha := (mem_leftAt.1 hj.mem_first).1
  have hb := (mem_leftAt.1 hj.mem_second).1
  rcases hc with rfl | rfl <;> omega

theorem JoinTree.children_ne {p : Nat} (hp : n ≤ p) (hpn : p < 2 * n - 1) : (node p).c0 ≠ (node p).c1 := by
  obtain ⟨k, a, b, rfl, -, hj, h0, h1⟩ := h.join_at hp hpn
  exact fun e => hj.ne (by rw [← h0, ← h1, e])

/-- A join's children are among the nodes left at its turn. -/
theorem JoinTree.child_mem_leftAt {p i : Nat} (hp : n ≤ p) (hpn : p < 2 * n - 1) (hc : IsChild node p i) :
    i ∈ leftAt node n (p - n) := by
  obtain ⟨k, a, b, rfl, -, hj, h0, h1⟩ := h.join_at hp hpn
  rw [Nat.add_sub_cancel_left]
  rcases hc with rfl | rfl
  · exact h0 ▸ hj.mem_first
  · exact h1 ▸ hj.mem_second

/-- No node is a child of two joins (R124 (e)). -/
theorem JoinTree.parent_unique {p q i : Nat} (hp : n ≤ p) (hpn : p < 2 * n - 1) (hq : n ≤ q) (hqn : q < 2 * n - 1)
    (hpc : IsChild node p i) (hqc : IsChild node q i) : p = q := by
  rcases Nat.lt_trichotomy p q with hlt | heq | hgt
  · exact absurd hpc (not_isChild_of_mem_leftAt (h.child_mem_leftAt hq hqn hqc) hp (by omega))
  · exact heq
  · exact absurd hqc (not_isChild_of_mem_leftAt (h.child_mem_leftAt hp hpn hpc) hq (by omega))

/-- Every node but the root is the child of a join (R124 (e)). -/
theorem JoinTree.exists_parent {i : Nat} (hi : i < 2 * n - 1) (hne : i ≠ 2 * n - 2) :
    ∃ p, n ≤ p ∧ p < 2 * n - 1 ∧ IsChild node p i := by
  have hn := h.size_pos
  have hnot : i ∉ leftAt node n (n - 1) := by simpa [h.leftAt_last] using hne
  by_contra hnone
  push Not at hnone
  exact hnot (mem_leftAt.2 ⟨by omega, fun j hj hjk => not_or.1 (hnone j hj (by omega))⟩)

theorem JoinTree.not_isChild_root {p : Nat} (hp : n ≤ p) (hpn : p < 2 * n - 1) : ¬ IsChild node p (2 * n - 2) :=
  fun hc => by
    have := h.child_lt hp hpn hc
    omega

end

/-! Weights. -/

/-- Where the weights left add up to less than 2^32, the join's weight is the exact sum of its children's (log 11). -/
theorem JoinsTwoLeast.weight {k a b : Nat} (hj : JoinsTwoLeast node n k a b)
    (hfit : ∑ i ∈ leftAt node n k, (node i).w.toNat < 2 ^ 32) :
    (node (n + k)).w.toNat = (node a).w.toNat + (node b).w.toNat := by
  have hpair : ∑ i ∈ {a, b}, (node i).w.toNat ≤ ∑ i ∈ leftAt node n k, (node i).w.toNat :=
    Finset.sum_le_sum_of_subset (Finset.insert_subset hj.mem_first (Finset.singleton_subset_iff.2 hj.mem_second))
  rw [Finset.sum_pair hj.ne] at hpair
  rw [hj.join]
  exact BitVec.toNat_add_of_lt (by simp only [keyOf]; omega)

section
variable (h : JoinTree n node) (hfit : ∑ i ∈ Finset.range n, (node i).w.toNat < 2 ^ 32)
include h hfit

/-- The weights of the nodes left add up to those of the leaves. -/
theorem JoinTree.sum_weights {k : Nat} (hk : k < n) :
    ∑ i ∈ leftAt node n k, (node i).w.toNat = ∑ i ∈ Finset.range n, (node i).w.toNat := by
  induction k with
  | zero => rw [leftAt_zero]
  | succ k ih =>
    obtain ⟨a, b, hj⟩ := h.joins k hk
    have hsum := ih (Nat.lt_of_succ_lt hk)
    have hmove := h.sum_leftAt_succ (fun i => (node i).w.toNat) hk hj
    have := hj.weight (hsum ▸ hfit)
    omega

theorem JoinTree.weight {k a b : Nat} (hk : k + 1 < n) (hj : JoinsTwoLeast node n k a b) :
    (node (n + k)).w.toNat = (node a).w.toNat + (node b).w.toNat :=
  hj.weight ((h.sum_weights hfit (Nat.lt_of_succ_lt hk)).symm ▸ hfit)

/-- The root weighs as much as all leaves (R124 (b)). -/
theorem JoinTree.root_weight : (node (2 * n - 2)).w.toNat = ∑ i ∈ Finset.range n, (node i).w.toNat := by
  have hn := h.size_pos
  rw [← h.sum_weights hfit (k := n - 1) (by omega), h.leftAt_last, Finset.sum_singleton]

end
end
end Sys2Proof.Machine
end

section
/-! PROOFS. The tree a state holds (10_state R32, 41_tree_builder R122 to R126): it is the tree of joins over the counts, so
it is full and its weights are sums, equal tables give equal trees, and a path has no more bits than there are joins. -/

namespace Sys2Proof.Machine

/-- An absent symbol adds nothing to TOTAL. -/
theorem freqTotal_eq_sum_presentSyms (freq : Memory Word) :
    freqTotal freq = ((presentSyms freq).map fun x => (freqAt freq x).toNat).sum := by
  unfold freqTotal presentSyms
  induction allSyms with
  | nil => rfl
  | cons x rest ih => by_cases h : freqAt freq x = 0#32 <;> simp [h, ih]

/-- NODES and ROOT by NSYM. -/
theorem TreeInv.sizes {s : State} (ht : TreeInv s) (hv : s.treeValid = true) :
    s.nodes.toNat = 2 * s.nsym.toNat - 1 ∧ s.root.toNat = 2 * s.nsym.toNat - 2 := by
  have := ht.nodes hv
  have := ht.root hv
  omega

section
variable {s : State} (hc : CountInv s) (ht : TreeInv s) (hv : s.treeValid = true)
include hc ht hv

theorem TreeInv.readsNodes : ReadsNodes s.nodeOf (buildTree s.freq).nodes := by
  intro i m hm
  have hlen := buildTree_length (ht.table_ne_nil hc hv)
  have hi : i < s.nodes.toNat := by
    have := (List.getElem?_eq_some_iff.1 hm).1
    rw [ht.nodes hv, hc.nsym]
    omega
  rw [ht.arena hv i hi] at hm
  exact Option.some.inj hm

/-- The arena below NODES is BuildTree's tree of joins. -/
theorem TreeInv.joinTree : JoinTree s.nsym.toNat s.nodeOf :=
  hc.nsym ▸ joinTree_of_readsNodes (ht.table_ne_nil hc hv) (ht.readsNodes hc hv)

/-- A leaf is the leaf of its symbol. -/
theorem TreeInv.nodeOf_leaf {i : Nat} (hi : i < s.nodes.toNat) (hl : (s.nodeOf i).leaf = true) :
    s.nodeOf i = leafNode (s.nodeOf i).sym (s.freqOf (s.nodeOf i).sym) := by
  have h := (ht.leaf_iff hc hv hi).1 hl
  rw [leafNodes_eq_map, List.getElem?_map, ht.presentSyms_of_leaf hc hv hi hl] at h
  exact (Option.some.inj h).symm

/-- The leaves' symbols are the present ones in order. -/
theorem TreeInv.presentSyms_eq : presentSyms s.freq = (List.range s.nsym.toNat).map fun i => (s.nodeOf i).sym := by
  have hn := ht.nodes hv
  refine List.ext_getElem? fun i => ?_
  by_cases hi : i < s.nsym.toNat
  · rw [ht.presentSyms_of_leaf hc hv (by omega) ((ht.joinTree hc hv).leaf i hi)]
    simp [hi]
  · rw [List.getElem?_eq_none (by rw [← hc.nsym]; omega), List.getElem?_eq_none (by simpa using hi)]

/-- A sum over the present symbols is a sum over the leaves. -/
theorem TreeInv.sum_presentSyms {M : Type} [AddCommMonoid M] (f : Sym → M) :
    ((presentSyms s.freq).map f).sum = ∑ i ∈ Finset.range s.nsym.toNat, f (s.nodeOf i).sym := by
  rw [ht.presentSyms_eq hc hv, List.map_map]
  rfl

/-- The leaves weigh TOTAL (R31). -/
theorem TreeInv.sum_leaf_weights : ∑ i ∈ Finset.range s.nsym.toNat, (s.nodeOf i).w.toNat = s.total.toNat := by
  rw [hc.total, freqTotal_eq_sum_presentSyms, ht.sum_presentSyms hc hv fun x => (freqAt s.freq x).toNat]
  refine Finset.sum_congr rfl fun i hi => ?_
  have hi := Finset.mem_range.1 hi
  have hn := ht.nodes hv
  rw [ht.nodeOf_leaf hc hv (by omega) ((ht.joinTree hc hv).leaf i hi)]
  rfl

theorem TreeInv.weights_fit : ∑ i ∈ Finset.range s.nsym.toNat, (s.nodeOf i).w.toNat < 2 ^ 32 :=
  ht.sum_leaf_weights hc hv ▸ s.total.isLt

/-- An internal node is the join of two lower nodes and weighs what they weigh together. -/
theorem TreeInv.internal {i : Nat} (hi : i < s.nodes.toNat) (hl : (s.nodeOf i).leaf = false) :
    (s.nodeOf i).c0.toNat < i ∧ (s.nodeOf i).c1.toNat < i ∧ (s.nodeOf i).c0 ≠ (s.nodeOf i).c1
      ∧ (s.nodeOf i).w.toNat
        = (s.nodeOf (s.nodeOf i).c0.toNat).w.toNat + (s.nodeOf (s.nodeOf i).c1.toNat).w.toNat := by
  have h := ht.joinTree hc hv
  obtain ⟨hnodes, -⟩ := ht.sizes hv
  rw [hnodes] at hi
  have hp := (h.internal_iff hi).1 hl
  refine ⟨h.child_lt hp hi (.inl rfl), h.child_lt hp hi (.inr rfl), h.children_ne hp hi, ?_⟩
  obtain ⟨k, a, b, rfl, hk, hj, h0, h1⟩ := h.join_at hp hi
  rw [h0, h1]
  exact h.weight (ht.weights_fit hc hv) hk hj

theorem TreeInv.root_weight : (s.nodeOf s.root.toNat).w = s.total := by
  obtain ⟨-, hroot⟩ := ht.sizes hv
  refine BitVec.eq_of_toNat_eq ?_
  rw [hroot, (ht.joinTree hc hv).root_weight (ht.weights_fit hc hv), ht.sum_leaf_weights hc hv]

theorem TreeInv.present_iff (x : Sym) :
    s.freqOf x ≠ 0#32 ↔ ∃ i, i < s.nodes.toNat ∧ (s.nodeOf i).leaf = true ∧ (s.nodeOf i).sym = x := by
  refine ⟨ht.exists_leaf hc hv, ?_⟩
  rintro ⟨i, hi, hl, rfl⟩
  exact mem_presentSyms.1 (List.mem_of_getElem? (ht.presentSyms_of_leaf hc hv hi hl))

/-- A child has one parent. -/
theorem TreeInv.parent_unique {p q i : Nat} (hp : p < s.nodes.toNat) (hpl : (s.nodeOf p).leaf = false)
    (hq : q < s.nodes.toNat) (hql : (s.nodeOf q).leaf = false) (hpc : IsChild s.nodeOf p i)
    (hqc : IsChild s.nodeOf q i) : p = q := by
  have h := ht.joinTree hc hv
  rw [(ht.sizes hv).1] at hp hq
  exact h.parent_unique ((h.internal_iff hp).1 hpl) hp ((h.internal_iff hq).1 hql) hq hpc hqc

theorem TreeInv.exists_parent {i : Nat} (hi : i < s.nodes.toNat) (hne : i ≠ s.root.toNat) :
    ∃ p, p < s.nodes.toNat ∧ (s.nodeOf p).leaf = false ∧ IsChild s.nodeOf p i := by
  have h := ht.joinTree hc hv
  obtain ⟨hnodes, hroot⟩ := ht.sizes hv
  rw [hnodes] at hi
  obtain ⟨p, hp, hpn, hpc⟩ := h.exists_parent hi (hroot ▸ hne)
  exact ⟨p, hnodes ▸ hpn, (h.internal_iff hpn).2 hp, hpc⟩

theorem TreeInv.not_isChild_root {p : Nat} (hp : p < s.nodes.toNat) (hl : (s.nodeOf p).leaf = false) :
    ¬ IsChild s.nodeOf p s.root.toNat := by
  have h := ht.joinTree hc hv
  obtain ⟨hnodes, hroot⟩ := ht.sizes hv
  rw [hnodes] at hp
  exact hroot ▸ h.not_isChild_root ((h.internal_iff hp).1 hl) hp

end

/-- Settles O36: the state's tree is BuildTree's tree of joins, whose sums fit because TOTAL does. -/
theorem validTreeIsAFullTreeWithSummedWeights : Obligations.ValidTreeIsAFullTreeWithSummedWeights := by
  intro s hs hv
  have hc := hs.count
  have ht := hs.tree
  refine ⟨fun i hi hl => congrArg Node.w (ht.nodeOf_leaf hc hv hi hl), fun i => ht.internal hc hv, ht.root_weight hc hv,
    ht.present_iff hc hv, fun i j => ht.leaf_unique hc hv, fun i hi hne => ?_, fun p hp hl => ?_⟩
  · obtain ⟨p, hp, hl, hpc⟩ := ht.exists_parent hc hv hi hne
    exact ⟨p, ⟨hp, hl, hpc⟩, fun q ⟨hq, hql, hqc⟩ => ht.parent_unique hc hv hq hql hp hl hqc hpc⟩
  · have hroot := ht.not_isChild_root hc hv hp hl
    exact ⟨fun e => hroot (.inl (congrArg BitVec.toNat e)), fun e => hroot (.inr (congrArg BitVec.toNat e))⟩

/-! Equal tables (R125). -/

/-- Two tables with the same counts are the same data (log 19). -/
theorem freq_eq_of_freqOf {a b : State} (ha : a.memoriesWf = true) (hb : b.memoriesWf = true)
    (h : ∀ x, a.freqOf x = b.freqOf x) : a.freq = b.freq := by
  obtain ⟨ha, -, -⟩ := (memoriesWf_iff a).1 ha
  obtain ⟨hb, -, -⟩ := (memoriesWf_iff b).1 hb
  refine Memory.ext_of_reads ha hb fun k => ?_
  rcases Nat.lt_or_ge k Config.nSymbols with hk | hk
  · have hx : (BitVec.ofNat 8 k).toNat = k := (BitVec.toNat_ofNat k 8).trans (Nat.mod_eq_of_lt hk)
    have hk := h (BitVec.ofNat 8 k)
    rwa [State.freqOf, State.freqOf, freqAt, freqAt, hx] at hk
  · rw [Memory.read_past ha hk, Memory.read_past hb hk]

/-- Settles O37: the invariants fix the tree, the codewords and the derived LUT by FREQ. -/
theorem equalTablesGiveEqualTreesAndCodewords : Obligations.EqualTablesGiveEqualTreesAndCodewords := by
  intro a b ha hb hva hvb h
  have hfreq := freq_eq_of_freqOf ha.memories hb.memories h
  have hnsym : a.nsym.toNat = b.nsym.toNat := by rw [ha.count.nsym, hb.count.nsym, hfreq]
  obtain ⟨hna, hra⟩ := ha.tree.sizes hva
  obtain ⟨hnb, hrb⟩ := hb.tree.sizes hvb
  have hnodes : a.nodes = b.nodes := BitVec.eq_of_toNat_eq (by rw [hna, hnb, hnsym])
  have hroot : a.root = b.root := BitVec.eq_of_toNat_eq (by rw [hra, hrb, hnsym])
  have harena : ∀ i, i < a.nodes.toNat → a.nodeOf i = b.nodeOf i := fun i hi =>
    ((ha.tree.readsNodes ha.count hva) i _ (hfreq ▸ hb.tree.arena hvb i (hnodes ▸ hi)))
  have hcode := codeOf_congr hnodes hroot harena
  refine ⟨hnodes, hroot, harena, hcode, fun hla hlb x hx => Option.some.inj ?_⟩
  rw [← ha.lut hla x hx, ← hb.lut hlb x (h x ▸ hx), hcode]

end Sys2Proof.Machine
end

section
/-! PROOFS. Paths (42_codeword_lut R141): in a tree the climb from a node ends at the root, a child's path is its parent's
and one bit more, and the joins above a leaf bound its codeword (41_tree_builder R126). -/

namespace Sys2Proof.Machine

/-! The climb. -/

section
variable {arena : Memory Node} {nodes root fuel i : Nat}

@[simp] theorem pathUp_root : pathUp arena nodes root fuel root = [] := by
  cases fuel <;> simp [pathUp]

theorem pathUp_succ {p : Nat} {bit : Bool} (hne : i ≠ root) (hp : parentOf arena nodes i = some (p, bit)) :
    pathUp arena nodes root (fuel + 1) i = pathUp arena nodes root fuel p ++ [bit] := by
  simp [pathUp, hne, hp]

end

/-- What the search for a parent looks for. -/
theorem parentOf_test_iff {s : State} {i j : Nat} :
    (!(nodeAt s.arena j).leaf
      && (decide ((nodeAt s.arena j).c0.toNat = i) || decide ((nodeAt s.arena j).c1.toNat = i))) = true
      ↔ (s.nodeOf j).leaf = false ∧ IsChild s.nodeOf j i := by
  simp [IsChild, State.nodeOf]

section
variable {s : State} (hc : CountInv s) (ht : TreeInv s) (hv : s.treeValid = true)
include hc ht hv

/-- The search finds the one parent there is. -/
theorem TreeInv.parentOf_eq {p i : Nat} (hp : p < s.nodes.toNat) (hl : (s.nodeOf p).leaf = false)
    (hpc : IsChild s.nodeOf p i) :
    parentOf s.arena s.nodes.toNat i = some (p, !decide ((s.nodeOf p).c0.toNat = i)) := by
  unfold parentOf
  cases hf : (List.range s.nodes.toNat).find? _ with
  | none => exact absurd (parentOf_test_iff.2 ⟨hl, hpc⟩) (List.find?_eq_none.1 hf p (List.mem_range.2 hp))
  | some q =>
    have hq := List.find?_some hf
    obtain ⟨hql, hqc⟩ := parentOf_test_iff.1 hq
    rw [ht.parent_unique hc hv hp hl (List.mem_range.1 (List.mem_of_find?_eq_some hf)) hql hpc hqc]
    rfl

/-- Every node but the root has a parent after it, which the climb goes to. -/
theorem TreeInv.exists_parentOf {i : Nat} (hi : i < s.nodes.toNat) (hne : i ≠ s.root.toNat) :
    ∃ p bit, parentOf s.arena s.nodes.toNat i = some (p, bit) ∧ p < s.nodes.toNat ∧ i < p ∧ s.nsym.toNat ≤ p := by
  obtain ⟨p, hp, hl, hpc⟩ := ht.exists_parent hc hv hi hne
  have h := ht.joinTree hc hv
  have hpn : p < 2 * s.nsym.toNat - 1 := (ht.sizes hv).1 ▸ hp
  have hnp := (h.internal_iff hpn).1 hl
  exact ⟨p, _, ht.parentOf_eq hc hv hp hl hpc, hp, h.child_lt hnp hpn hpc, hnp⟩

/-- Fuel for as many parents as there are nodes above is enough. -/
theorem TreeInv.pathUp_fuel {fuel fuel' i : Nat} (hi : i < s.nodes.toNat) (h : s.root.toNat ≤ fuel + i)
    (h' : s.root.toNat ≤ fuel' + i) :
    pathUp s.arena s.nodes.toNat s.root.toNat fuel i = pathUp s.arena s.nodes.toNat s.root.toNat fuel' i := by
  induction fuel generalizing fuel' i with
  | zero =>
    have := ht.root hv
    obtain rfl : i = s.root.toNat := by omega
    rw [pathUp_root, pathUp_root]
  | succ fuel ih =>
    by_cases hne : i = s.root.toNat
    · rw [hne, pathUp_root, pathUp_root]
    · obtain ⟨p, bit, hp, hpn, hip, -⟩ := ht.exists_parentOf hc hv hi hne
      have := ht.root hv
      obtain ⟨fuel', rfl⟩ : ∃ f, fuel' = f + 1 := ⟨fuel' - 1, by omega⟩
      rw [pathUp_succ hne hp, pathUp_succ hne hp, ih (fuel' := fuel') hpn (by omega) (by omega)]

theorem TreeInv.path_eq_append {p i : Nat} {bit : Bool} (hi : i < s.nodes.toNat) (hne : i ≠ s.root.toNat)
    (hp : parentOf s.arena s.nodes.toNat i = some (p, bit)) :
    path s.arena s.nodes.toNat s.root.toNat i = path s.arena s.nodes.toNat s.root.toNat p ++ [bit] := by
  obtain ⟨p', bit', hp', hpn, hip, -⟩ := ht.exists_parentOf hc hv hi hne
  obtain ⟨rfl, rfl⟩ : p' = p ∧ bit' = bit := by simpa [hp, eq_comm] using hp'
  have hr := ht.root hv
  unfold path
  rw [ht.pathUp_fuel hc hv hi (fuel' := s.root.toNat + 1) (by omega) (by omega), pathUp_succ hne hp,
    ht.pathUp_fuel hc hv hpn (fuel' := s.nodes.toNat) (by omega) (by omega)]

/-- A child's path is its parent's and the bit to it (R141). -/
theorem TreeInv.path_child {p i : Nat} (hp : p < s.nodes.toNat) (hl : (s.nodeOf p).leaf = false)
    (hpc : IsChild s.nodeOf p i) : path s.arena s.nodes.toNat s.root.toNat i
      = path s.arena s.nodes.toNat s.root.toNat p ++ [!decide ((s.nodeOf p).c0.toNat = i)] := by
  have hlt : i < p := by
    obtain ⟨h0, h1, -⟩ := ht.internal hc hv hp hl
    rcases hpc with rfl | rfl
    · exact h0
    · exact h1
  exact ht.path_eq_append hc hv (by omega) (fun e => ht.not_isChild_root hc hv hp hl (e ▸ hpc))
    (ht.parentOf_eq hc hv hp hl hpc)

/-- A climb meets only joins, each after the one before. -/
theorem TreeInv.pathUp_length {fuel i : Nat} (hi : i < s.nodes.toNat) :
    (pathUp s.arena s.nodes.toNat s.root.toNat fuel i).length + max i (s.nsym.toNat - 1) ≤ s.root.toNat := by
  have hpos := ht.nsym_pos hv
  obtain ⟨hnodes, hroot⟩ := ht.sizes hv
  induction fuel generalizing i with
  | zero =>
    simp only [pathUp, List.length_nil]
    omega
  | succ fuel ih =>
    by_cases hne : i = s.root.toNat
    · rw [hne, pathUp_root, List.length_nil]
      omega
    · obtain ⟨p, bit, hp, hpn, hip, hsp⟩ := ht.exists_parentOf hc hv hi hne
      have := ih hpn
      rw [pathUp_succ hne hp, List.length_append, List.length_singleton]
      omega

/-- Only the root's path is empty. -/
theorem TreeInv.path_eq_nil_iff {i : Nat} (hi : i < s.nodes.toNat) :
    path s.arena s.nodes.toNat s.root.toNat i = [] ↔ i = s.root.toNat := by
  constructor
  · intro he
    by_contra hne
    obtain ⟨p, bit, hp, -⟩ := ht.exists_parentOf hc hv hi hne
    simp [ht.path_eq_append hc hv hi hne hp] at he
  · rintro rfl
    exact pathUp_root

/-- A present symbol's codeword is the path of its leaf (R37, R140). -/
theorem TreeInv.codeOf_leaf {i : Nat} (hi : i < s.nodes.toNat) (hl : (s.nodeOf i).leaf = true) :
    codeOf s (s.nodeOf i).sym = some (path s.arena s.nodes.toNat s.root.toNat i) := by
  rw [codeOf, ht.leafIndex_eq hc hv hi hl]
  rfl

end

/-- Settles O39: a leaf stands among the first `n` nodes, and above it are only the `n - 1` joins. -/
theorem codewordLengthsAreBounded : Obligations.CodewordLengthsAreBounded := by
  intro s x hs hv hx
  have hc := hs.count
  have ht := hs.tree
  obtain ⟨i, hi, hl, rfl⟩ := ht.exists_leaf hc hv hx
  obtain ⟨hnodes, hroot⟩ := ht.sizes hv
  have hleaf := ((ht.joinTree hc hv).leaf_iff (hnodes ▸ hi)).1 hl
  have hlen : (path s.arena s.nodes.toNat s.root.toNat i).length + _ ≤ _ := ht.pathUp_length hc hv hi
  have hle := hc.nsym_le
  refine ⟨_, ht.codeOf_leaf hc hv hi hl, by omega, by omega, ?_⟩
  rw [ht.path_eq_nil_iff hc hv hi, hroot, ← BitVec.toNat_inj]
  change i = _ ↔ s.nsym.toNat = 1
  omega

end Sys2Proof.Machine
end

section
/-! PROOFS. Optimality (41_tree_builder R125). The depths of a full tree's leaves fill the code space; any depths that do
can be exchanged, at no cost, so that the two least nodes are deepest and of one depth; their join then stands one higher.
By induction from the last join back, no such depths cost less than the tree's own. -/

namespace Sys2Proof.Machine

/-! Depths that fill the code space. -/

/-- Codewords of these lengths fill the code space: Σ 2^(-depth) = 1 (R142 (d)). -/
def FillsCode (S : Finset Nat) (depth : Nat → Nat) : Prop := ∑ i ∈ S, ((2 : ℚ) ^ depth i)⁻¹ = 1

section
variable {S : Finset Nat} {w depth : Nat → Nat} {a b x : Nat}

/-- Where there is another node, none stands at depth 0. -/
theorem FillsCode.depth_pos (h : FillsCode S depth) (ha : a ∈ S) (hb : b ∈ S) (hne : a ≠ b) : 0 < depth a := by
  refine Nat.pos_of_ne_zero fun h0 => ?_
  have hpair : ∑ i ∈ {a, b}, ((2 : ℚ) ^ depth i)⁻¹ ≤ ∑ i ∈ S, ((2 : ℚ) ^ depth i)⁻¹ :=
    Finset.sum_le_sum_of_subset_of_nonneg (Finset.insert_subset ha (Finset.singleton_subset_iff.2 hb))
      fun i _ _ => by positivity
  have hpos : 0 < ((2 : ℚ) ^ depth b)⁻¹ := by positivity
  rw [Finset.sum_pair hne, h, h0, pow_zero, inv_one] at hpair
  linarith

/-- The sum over the code space scaled to natural numbers, no depth being above `M`. -/
theorem FillsCode.sum_two_pow (h : FillsCode S depth) {M : Nat} (hM : ∀ i ∈ S, depth i ≤ M) :
    ∑ i ∈ S, 2 ^ (M - depth i) = 2 ^ M := by
  have hscaled : (∑ i ∈ S, (2 : ℚ) ^ (M - depth i)) = 2 ^ M := by
    rw [Finset.sum_congr rfl fun i hi => pow_sub₀ (2 : ℚ) two_ne_zero (hM i hi), ← Finset.mul_sum, h, mul_one]
  exact_mod_cast hscaled

/-- A deepest node is not the only one of its depth: 2^M is even. -/
theorem FillsCode.exists_deepest_other (h : FillsCode S depth) (ha : a ∈ S) (hmax : ∀ i ∈ S, depth i ≤ depth a)
    (hpos : 0 < depth a) : ∃ y ∈ S, y ≠ a ∧ depth y = depth a := by
  by_contra hnone
  push Not at hnone
  have hrest : 2 ∣ ∑ i ∈ S.erase a, 2 ^ (depth a - depth i) := by
    refine Finset.dvd_sum fun i hi => ?_
    obtain ⟨hia, hiS⟩ := Finset.mem_erase.1 hi
    have := hmax i hiS
    have := hnone i hiS hia
    exact dvd_pow_self 2 (by omega)
  have hall := h.sum_two_pow hmax
  rw [← Finset.add_sum_erase _ _ ha, Nat.sub_self, pow_zero] at hall
  have : 2 ∣ 2 ^ depth a := dvd_pow_self 2 hpos.ne'
  omega

theorem swap_mem (ha : a ∈ S) (hx : x ∈ S) {i : Nat} (hi : i ∈ S) : Equiv.swap a x i ∈ S := by
  rw [Equiv.swap_apply_def]
  split_ifs <;> assumption

/-- Two nodes may exchange their depths. -/
theorem FillsCode.swap (h : FillsCode S depth) (ha : a ∈ S) (hx : x ∈ S) :
    FillsCode S fun i => depth (Equiv.swap a x i) := by
  refine (Equiv.Perm.sum_comp _ S (fun i => ((2 : ℚ) ^ depth i)⁻¹) fun i hi => ?_).trans h
  rcases Equiv.swap_apply_ne_self_iff.1 hi with ⟨-, rfl | rfl⟩
  · exact ha
  · exact hx

/-- Giving the lighter node the greater depth costs nothing. -/
theorem sum_weight_swap_le (ha : a ∈ S) (hx : x ∈ S) (hw : w a ≤ w x) (hd : depth a ≤ depth x) :
    ∑ i ∈ S, w i * depth (Equiv.swap a x i) ≤ ∑ i ∈ S, w i * depth i := by
  by_cases hne : x = a
  · simp [hne]
  have hxa : x ∈ S.erase a := Finset.mem_erase.2 ⟨hne, hx⟩
  rw [← Finset.add_sum_erase _ _ ha, ← Finset.add_sum_erase _ _ hxa, ← Finset.add_sum_erase S _ ha,
    ← Finset.add_sum_erase (S.erase a) _ hxa, ← add_assoc, ← add_assoc, Equiv.swap_apply_left, Equiv.swap_apply_right]
  refine add_le_add (mul_add_mul_le_mul_add_mul hw hd) (Finset.sum_le_sum fun i hi => ?_)
  obtain ⟨hix, hi⟩ := Finset.mem_erase.1 hi
  rw [Equiv.swap_apply_of_ne_of_ne (Finset.ne_of_mem_erase hi) hix]

/-- The lightest node can be made the deepest at no cost. -/
theorem FillsCode.exists_lightest_deepest (h : FillsCode S depth) (ha : a ∈ S) (hleast : ∀ i ∈ S, w a ≤ w i) :
    ∃ depth', FillsCode S depth' ∧ (∀ i ∈ S, depth' i ≤ depth' a)
      ∧ ∑ i ∈ S, w i * depth' i ≤ ∑ i ∈ S, w i * depth i := by
  obtain ⟨x, hx, hmax⟩ := S.exists_max_image depth ⟨a, ha⟩
  refine ⟨_, h.swap ha hx, fun i hi => ?_, sum_weight_swap_le ha hx (hleast x hx) (hmax a ha)⟩
  simp only [Equiv.swap_apply_left]
  exact hmax _ (swap_mem ha hx hi)

/-- The two lightest nodes can be made the deepest, of one depth, at no cost. -/
theorem FillsCode.exists_lightest_pair_deepest (h : FillsCode S depth) (ha : a ∈ S) (hb : b ∈ S) (hne : a ≠ b)
    (hleast : ∀ i ∈ S, w a ≤ w i) (hnext : ∀ i ∈ S, i ≠ a → w b ≤ w i) :
    ∃ depth', FillsCode S depth' ∧ (∃ m, depth' a = m + 1 ∧ depth' b = m + 1)
      ∧ ∑ i ∈ S, w i * depth' i ≤ ∑ i ∈ S, w i * depth i := by
  obtain ⟨depth', h', hmax, hcost⟩ := h.exists_lightest_deepest ha hleast
  obtain ⟨m, hm⟩ := Nat.exists_eq_add_one.2 (h'.depth_pos ha hb hne)
  obtain ⟨y, hy, hya, hdeep⟩ := h'.exists_deepest_other ha hmax (by omega)
  refine ⟨_, h'.swap hb hy, ⟨m, ?_, ?_⟩,
    (sum_weight_swap_le hb hy (hnext y hy hya) (hdeep ▸ hmax b hb)).trans hcost⟩
  · rw [Equiv.swap_apply_of_ne_of_ne hne hya.symm, hm]
  · rw [Equiv.swap_apply_left, hdeep, hm]

end

/-! Depths over the nodes left. -/

/-- Σ weight × depth over a set of nodes. -/
def costAt (node : Nat → Node) (S : Finset Nat) (depth : Nat → Nat) : Nat := ∑ i ∈ S, (node i).w.toNat * depth i

/-- Both children stand one below their join. -/
def OneBelow (depth : Nat → Nat) (p a b : Nat) : Prop := depth a = depth p + 1 ∧ depth b = depth p + 1

section
variable {n k a b : Nat} {node : Nat → Node} {depth : Nat → Nat}

/-- The order of the queue is an order by weight. -/
theorem weight_le_of_before {i j : Nat} (h : (keyOf node i).before (keyOf node j) = true) :
    (node i).w.toNat ≤ (node j).w.toNat := by
  rcases Key.before_iff.1 h with hlt | ⟨heq, -⟩
  · exact Nat.le_of_lt hlt
  · exact (congrArg BitVec.toNat heq).le

/-- Depths for the nodes left cost no less than some where the two to be joined stand one below their join. -/
theorem JoinsTwoLeast.exists_oneBelow (hj : JoinsTwoLeast node n k a b) (hd : FillsCode (leftAt node n k) depth) :
    ∃ depth', FillsCode (leftAt node n k) depth' ∧ OneBelow depth' (n + k) a b
      ∧ costAt node (leftAt node n k) depth' ≤ costAt node (leftAt node n k) depth := by
  have hleast : ∀ i ∈ leftAt node n k, (node a).w.toNat ≤ (node i).w.toNat := fun i hi => by
    by_cases hia : i = a
    · rw [hia]
    · exact weight_le_of_before (hj.least i hi hia)
  have hnext : ∀ i ∈ leftAt node n k, i ≠ a → (node b).w.toNat ≤ (node i).w.toNat := fun i hi hia => by
    by_cases hib : i = b
    · rw [hib]
    · exact weight_le_of_before (hj.nextLeast i hi hia hib)
  obtain ⟨depth', h', ⟨m, ha, hb⟩, hcost⟩ :=
    hd.exists_lightest_pair_deepest (w := fun i => (node i).w.toNat) hj.mem_first hj.mem_second hj.ne hleast hnext
  have hsame : ∀ i ∈ leftAt node n k, Function.update depth' (n + k) m i = depth' i := fun i hi =>
    Function.update_of_ne (mem_leftAt.1 hi).1.ne _ _
  refine ⟨Function.update depth' (n + k) m, ?_, ⟨?_, ?_⟩, ?_⟩
  · rw [FillsCode, Finset.sum_congr rfl fun i hi => by rw [hsame i hi]]
    exact h'
  · rw [hsame a hj.mem_first, Function.update_self, ha]
  · rw [hsame b hj.mem_second, Function.update_self, hb]
  · rw [costAt, Finset.sum_congr rfl fun i hi => by rw [hsame i hi]]
    exact hcost

section
variable (h : JoinTree n node) (hk : k + 1 < n) (hj : JoinsTwoLeast node n k a b) (hb : OneBelow depth (n + k) a b)
include h hk hj hb

/-- A join takes the place of its children in the code space. -/
theorem JoinTree.fillsCode_succ (hd : FillsCode (leftAt node n k) depth) : FillsCode (leftAt node n (k + 1)) depth := by
  have hsum := h.sum_leftAt_succ (fun i => ((2 : ℚ) ^ depth i)⁻¹) hk hj
  rw [hb.1, hb.2, hd, pow_succ, mul_inv] at hsum
  rw [FillsCode]
  linarith

/-- The cost of the nodes left falls at a join by the join's weight. -/
theorem JoinTree.costAt_succ (hfit : ∑ i ∈ Finset.range n, (node i).w.toNat < 2 ^ 32) :
    costAt node (leftAt node n k) depth = costAt node (leftAt node n (k + 1)) depth + (node (n + k)).w.toNat := by
  have hsum := h.sum_leftAt_succ (fun i => (node i).w.toNat * depth i) hk hj
  rw [hb.1, hb.2, h.weight hfit hk hj] at hsum
  rw [costAt, costAt, h.weight hfit hk hj]
  linarith

end

/-- The tree's own depths: the root's is 0 and every join's children stand one below it. -/
structure TreeDepth (n : Nat) (node : Nat → Node) (depth : Nat → Nat) : Prop where
  root : depth (2 * n - 2) = 0
  child : ∀ p i, n ≤ p → p < 2 * n - 1 → IsChild node p i → depth i = depth p + 1

/-- From any turn on, no depths that fill the code space cost less than the tree's own. -/
theorem JoinTree.costAt_le (h : JoinTree n node) (hfit : ∑ i ∈ Finset.range n, (node i).w.toNat < 2 ^ 32)
    {own : Nat → Nat} (hown : TreeDepth n node own) (joins : Nat) (hk : k + joins + 1 = n)
    (hd : FillsCode (leftAt node n k) depth) :
    costAt node (leftAt node n k) own ≤ costAt node (leftAt node n k) depth := by
  induction joins generalizing k depth with
  | zero =>
    obtain rfl : k = n - 1 := by omega
    simp [costAt, h.leftAt_last, hown.root]
  | succ joins ih =>
    have hkn : k + 1 < n := by omega
    have hle := h.size_le
    obtain ⟨a, b, hj⟩ := h.joins k hkn
    obtain ⟨h0, h1⟩ := hj.children (by omega)
    obtain ⟨depth', hd', hbelow, hcost⟩ := hj.exists_oneBelow hd
    have hownBelow : OneBelow own (n + k) a b :=
      ⟨hown.child _ _ (by omega) (by omega) (.inl h0), hown.child _ _ (by omega) (by omega) (.inr h1)⟩
    calc costAt node (leftAt node n k) own
        = costAt node (leftAt node n (k + 1)) own + (node (n + k)).w.toNat := h.costAt_succ hkn hj hownBelow hfit
      _ ≤ costAt node (leftAt node n (k + 1)) depth' + (node (n + k)).w.toNat :=
        Nat.add_le_add_right (ih (by omega) (h.fillsCode_succ hkn hj hbelow hd')) _
      _ = costAt node (leftAt node n k) depth' := (h.costAt_succ hkn hj hbelow hfit).symm
      _ ≤ costAt node (leftAt node n k) depth := hcost

end

/-! Full binary trees over symbols. -/

/-- The depth of the leaf of `x`, the shape's root at depth 0. -/
def Shape.depthOf (x : Sym) : Shape → Nat
  | .leaf _ => 0
  | .node l r => (if x ∈ l.leaves then l.depthOf x else r.depthOf x) + 1

section
variable {l r shape : Shape}

/-- A sum over a shape's leaves and their depths, by its two halves. -/
theorem Shape.sum_leaves_node {M : Type} [AddCommMonoid M] (f : Sym → Nat → M) (hn : (Shape.node l r).leaves.Nodup) :
    ((Shape.node l r).leaves.map fun x => f x ((Shape.node l r).depthOf x)).sum
      = (l.leaves.map fun x => f x (l.depthOf x + 1)).sum + (r.leaves.map fun x => f x (r.depthOf x + 1)).sum := by
  obtain ⟨-, -, hdisjoint⟩ := List.nodup_append'.1 hn
  rw [Shape.leaves, List.map_append, List.sum_append]
  congr 2
  · exact List.map_congr_left fun x hx => by rw [Shape.depthOf, if_pos hx]
  · exact List.map_congr_left fun x hx => by rw [Shape.depthOf, if_neg fun hl => hdisjoint hl hx]

theorem Shape.costFrom_eq_sum (freq : Memory Word) (hn : shape.leaves.Nodup) (d : Nat) :
    shape.costFrom freq d = (shape.leaves.map fun x => (freqAt freq x).toNat * (d + shape.depthOf x)).sum := by
  induction shape generalizing d with
  | leaf x => simp [Shape.costFrom, Shape.leaves, Shape.depthOf]
  | node l r ihl ihr =>
    obtain ⟨hl, hr, -⟩ := List.nodup_append'.1 hn
    rw [Shape.sum_leaves_node (fun x e => (freqAt freq x).toNat * (d + e)) hn, Shape.costFrom, ihl hl, ihr hr]
    simp only [Nat.add_assoc, Nat.add_comm 1]

/-- The depths of a full tree's leaves fill the code space. -/
theorem Shape.sum_leaves_inv_two_pow (hn : shape.leaves.Nodup) :
    (shape.leaves.map fun x => ((2 : ℚ) ^ shape.depthOf x)⁻¹).sum = 1 := by
  induction shape with
  | leaf x => simp [Shape.leaves, Shape.depthOf]
  | node l r ihl ihr =>
    obtain ⟨hl, hr, -⟩ := List.nodup_append'.1 hn
    rw [Shape.sum_leaves_node (fun _ e => ((2 : ℚ) ^ e)⁻¹) hn]
    simp only [pow_succ, mul_inv, List.sum_map_mul_right, ihl hl, ihr hr]
    norm_num

end

/-! The tree a state holds. -/

section
variable {s : State} (hc : CountInv s) (ht : TreeInv s) (hv : s.treeValid = true)
include hc ht hv

/-- The lengths of the paths are the tree's own depths. -/
theorem TreeInv.treeDepth :
    TreeDepth s.nsym.toNat s.nodeOf fun i => (path s.arena s.nodes.toNat s.root.toNat i).length := by
  have h := ht.joinTree hc hv
  obtain ⟨hnodes, hroot⟩ := ht.sizes hv
  refine ⟨by rw [← hroot, path, pathUp_root]; rfl, fun p i hp hpn hpc => ?_⟩
  rw [ht.path_child hc hv (hnodes ▸ hpn) ((h.internal_iff hpn).2 hp) hpc, List.length_append, List.length_singleton]

/-- A sum over the present symbols of a count times a length, as the cost of the leaves. -/
theorem TreeInv.sum_presentSyms_eq_costAt {len : Sym → Nat} {depth : Nat → Nat}
    (h : ∀ i < s.nsym.toNat, len (s.nodeOf i).sym = depth i) :
    ((presentSyms s.freq).map fun x => (s.freqOf x).toNat * len x).sum
      = costAt s.nodeOf (leftAt s.nodeOf s.nsym.toNat 0) depth := by
  rw [ht.sum_presentSyms hc hv fun x => (s.freqOf x).toNat * len x, leftAt_zero]
  refine Finset.sum_congr rfl fun i hi => ?_
  have hi := Finset.mem_range.1 hi
  have hw := congrArg Node.w (ht.nodeOf_leaf hc hv (by have := ht.nodes hv; omega) ((ht.joinTree hc hv).leaf i hi))
  rw [h i hi, hw]
  rfl

end

/-- Settles O38: a full tree's depths fill the code space, and no depths that do cost less than the tree's own. -/
theorem builtTreeIsOptimal : Obligations.BuiltTreeIsOptimal := by
  intro s hs hv shape hperm
  have hc := hs.count
  have ht := hs.tree
  have h := ht.joinTree hc hv
  have hnodup : shape.leaves.Nodup := hperm.nodup_iff.2 (presentSyms_nodup _)
  have hfills : FillsCode (leftAt s.nodeOf s.nsym.toNat 0) fun i => shape.depthOf (s.nodeOf i).sym := by
    rw [FillsCode, leftAt_zero, ← ht.sum_presentSyms hc hv fun x => ((2 : ℚ) ^ shape.depthOf x)⁻¹,
      ← (hperm.map _).sum_eq, Shape.sum_leaves_inv_two_pow hnodup]
  have hcode : ∀ i < s.nsym.toNat, ((codeOf s (s.nodeOf i).sym).getD []).length
      = (path s.arena s.nodes.toNat s.root.toNat i).length := fun i hi => by
    rw [ht.codeOf_leaf hc hv (by have := ht.nodes hv; omega) (h.leaf i hi), Option.getD_some]
  have hcost : shape.costFrom s.freq 0
      = costAt s.nodeOf (leftAt s.nodeOf s.nsym.toNat 0) fun i => shape.depthOf (s.nodeOf i).sym := by
    rw [Shape.costFrom_eq_sum _ hnodup, (hperm.map _).sum_eq]
    simp only [Nat.zero_add]
    exact ht.sum_presentSyms_eq_costAt hc hv fun _ _ => rfl
  have hpos := h.size_pos
  rw [ht.sum_presentSyms_eq_costAt hc hv hcode, hcost]
  exact h.costAt_le (ht.weights_fit hc hv) (ht.treeDepth hc hv) (s.nsym.toNat - 1) (by omega) hfills

end Sys2Proof.Machine
end

section
/-! PROOFS. The tree builder's commands (41_tree_builder R121, R123). -/

namespace Sys2Proof.Machine

section
variable {s : State} {node : NodeIdx} {fsel : FSel}

/-- The state TREE_BUILD leaves for a table that is not empty (R121). -/
def treeBuilt (s : State) : State := complete
  { s with
    arena := writeNodes s.arena 0 (buildTree s.freq).nodes
    nodes := BitVec.ofNat 10 (2 * s.nsym.toNat - 1)
    root := BitVec.ofNat 9 (buildTree s.freq).root
    treeValid := true
    lutValid := false }

theorem exec_treeBuild_empty (h : s.nsym = 0#9) : exec .treeBuild s = .next (complete (invalidate s)) := if_pos h

theorem exec_treeBuild (h : s.nsym ≠ 0#9) : exec .treeBuild s = .next (treeBuilt s) := if_neg h

/-- Settles O22: the tree written is the one the invariant of R32 asks for, and the rest of the arena stays. -/
theorem treeBuildBuildsTheTreeOfFreq : Obligations.TreeBuildBuildsTheTreeOfFreq := by
  refine ⟨decode_encode .treeBuild, fun s => ⟨exec_treeBuild_empty, fun hw hc hn => ?_⟩⟩
  obtain ⟨ht, -⟩ := treeInv_treeBuilt (t := treeBuilt s) hw hc hn rfl rfl rfl rfl rfl rfl
  have hnodes : (treeBuilt s).nodes.toNat = 2 * s.nsym.toNat - 1 := (ht.sizes rfl).1
  have hne : presentSyms s.freq ≠ [] := ht.table_ne_nil (s := treeBuilt s) (hc.congr rfl rfl rfl) rfl
  have hlen := buildTree_length hne
  have hlast := buildTree_root hne
  rw [← hc.nsym] at hlen
  refine ⟨_, _, _, exec_treeBuild hn, hnodes, (ht.sizes rfl).2, by omega, ht.arena rfl, fun i hi => ?_⟩
  have hi : (treeBuilt s).nodes.toNat ≤ i := hi
  exact nodeAt_writeNodes_outside _ _ _ _ (.inr (by omega))

/-! NODE_READ. -/

theorem exec_nodeRead_noTree (h : s.treeValid = false) :
    exec (.nodeRead node fsel) s = .next (raiseError .noTree s) := if_pos h

theorem exec_nodeRead_range (hv : s.treeValid = true) (h : s.nodes.toNat ≤ node.toNat) :
    exec (.nodeRead node fsel) s = .next (raiseError .nodeRange s) := by
  simp [exec, execNodeRead, hv, h]

theorem exec_nodeRead (hv : s.treeValid = true) (h : node.toNat < s.nodes.toNat) :
    exec (.nodeRead node fsel) s = .next (completeWith (nodeField (s.nodeOf node.toNat) fsel) s) := by
  simp [exec, execNodeRead, hv, h]

/-- The leaf bit stands just above the symbol. -/
theorem nodeField_info_toNat (e : Node) : (nodeField e .info).toNat = (if e.leaf then 256 else 0) + e.sym.toNat := by
  have hsym := zext32_toNat e.sym (by decide)
  rw [nodeField, BitVec.toNat_or, hsym]
  cases e.leaf with
  | false => simp [bitWord]
  | true => exact (Nat.two_pow_add_eq_or_of_lt (i := 8) e.sym.isLt 1).symm

/-- A child's index, or the value that is none. -/
theorem childWord_toNat (leaf : Bool) (c : NodeIdx) :
    (if leaf then 0xFFFFFFFF#32 else zext32 c).toNat = if leaf then 0xFFFFFFFF else c.toNat := by
  cases leaf with
  | false => exact zext32_toNat c (by decide)
  | true => rfl

/-- Settles O23: the two checks in R211's order, then the field. -/
theorem nodeReadReturnsTheFieldSelected : Obligations.NodeReadReturnsTheFieldSelected := by
  intro s node fsel
  refine ⟨decode_encode (.nodeRead node fsel), exec_nodeRead_noTree, exec_nodeRead_range, fun hv hlt =>
    ⟨_, exec_nodeRead hv hlt, ?_, ?_, ?_, ?_⟩⟩
  · exact fun h => h ▸ rfl
  · exact fun h => h ▸ nodeField_info_toNat _
  · exact fun h => h ▸ childWord_toNat _ _
  · exact fun h => h ▸ childWord_toNat _ _

end
end Sys2Proof.Machine
end

section
/-! PROOFS. The codewords (42_codeword_lut R141, R142). What holds at the root and passes from a node to its children
holds of every node: so a path leads to its node, and an internal node stands wherever a path goes on. The lengths of the
codewords fill the code space, by induction from the root alone back to the leaves. -/

namespace Sys2Proof.Machine

theorem walk_append (arena : Memory Node) (i : Nat) (c d : List Bool) :
    walk arena i (c ++ d) = walk arena (walk arena i c) d := by
  induction c generalizing i with
  | nil => rfl
  | cons b rest ih => exact ih _

/-- The root's path is empty (R141). -/
theorem path_root (arena : Memory Node) (nodes root : Nat) : path arena nodes root root = [] := pathUp_root

theorem isChild_iff_childOf {node : Nat → Node} {p i : Nat} :
    IsChild node p i ↔ ∃ b, (childOf (node p) b).toNat = i := by
  simp [IsChild, childOf]

section
variable {s : State} (hc : CountInv s) (ht : TreeInv s) (hv : s.treeValid = true)
include hc ht hv

/-- Induction over the tree from the root down: to `induction i, hi using`. -/
theorem TreeInv.induction_from_root {motive : ∀ i, i < s.nodes.toNat → Prop}
    (root : motive s.root.toNat (ht.root_lt hv))
    (child : ∀ p b (hp : p < s.nodes.toNat) (hl : (s.nodeOf p).leaf = false), motive p hp →
      motive (childOf (s.nodeOf p) b).toNat ((ht.child_lt hc hv hp hl b).trans hp))
    (i : Nat) (hi : i < s.nodes.toNat) : motive i hi := by
  induction hd : s.nodes.toNat - i using Nat.strong_induction_on generalizing i with
  | _ d ih =>
    by_cases hne : i = s.root.toNat
    · subst hne
      exact root
    · obtain ⟨p, hp, hl, hpc⟩ := ht.exists_parent hc hv hi hne
      obtain ⟨b, rfl⟩ := isChild_iff_childOf.1 hpc
      have := ht.child_lt hc hv hp hl b
      exact child p b hp hl (ih _ (by omega) _ hp rfl)

/-- The path of the child a bit selects is its parent's and that bit (R141). -/
theorem TreeInv.path_childOf {p : Nat} (hp : p < s.nodes.toNat) (hl : (s.nodeOf p).leaf = false) (b : Bool) :
    path s.arena s.nodes.toNat s.root.toNat (childOf (s.nodeOf p) b).toNat
      = path s.arena s.nodes.toNat s.root.toNat p ++ [b] := by
  obtain ⟨-, -, hne, -⟩ := ht.internal hc hv hp hl
  rw [ht.path_child hc hv hp hl (isChild_iff_childOf.2 ⟨b, rfl⟩)]
  cases b with
  | false => simp [childOf]
  | true => simp [childOf, BitVec.toNat_inj, hne]

/-- The walk along a node's path from the root ends at the node. -/
theorem TreeInv.walk_path {i : Nat} (hi : i < s.nodes.toNat) :
    walk s.arena s.root.toNat (path s.arena s.nodes.toNat s.root.toNat i) = i := by
  induction i, hi using ht.induction_from_root hc hv with
  | root =>
    rw [path_root]
    rfl
  | child p b hp hl ih =>
    rw [ht.path_childOf hc hv hp hl, walk_append, ih]
    rfl

/-- No two nodes have the same path. -/
theorem TreeInv.path_injective {i j : Nat} (hi : i < s.nodes.toNat) (hj : j < s.nodes.toNat)
    (he : path s.arena s.nodes.toNat s.root.toNat i = path s.arena s.nodes.toNat s.root.toNat j) : i = j := by
  rw [← ht.walk_path hc hv hi, he, ht.walk_path hc hv hj]

/-- What a node's path begins with is that path, or the path of an internal node. -/
theorem TreeInv.path_prefix_cases {j : Nat} {c : List Bool} (hj : j < s.nodes.toNat)
    (hpre : c <+: path s.arena s.nodes.toNat s.root.toNat j) :
    c = path s.arena s.nodes.toNat s.root.toNat j
      ∨ ∃ p, p < s.nodes.toNat ∧ (s.nodeOf p).leaf = false ∧ c = path s.arena s.nodes.toNat s.root.toNat p := by
  induction j, hj using ht.induction_from_root hc hv with
  | root =>
    rw [path_root] at hpre ⊢
    exact .inl (List.prefix_nil.1 hpre)
  | child p b hp hl ih =>
    rw [ht.path_childOf hc hv hp hl] at hpre ⊢
    rcases List.prefix_concat_iff.1 hpre with he | hpre
    · exact .inl he
    · exact .inr ((ih hpre).elim (fun he => ⟨p, hp, hl, he⟩) id)

/-- A leaf's path begins no other node's. -/
theorem TreeInv.eq_of_leaf_path_prefix {i j : Nat} (hi : i < s.nodes.toNat) (hli : (s.nodeOf i).leaf = true)
    (hj : j < s.nodes.toNat)
    (hpre : path s.arena s.nodes.toNat s.root.toNat i <+: path s.arena s.nodes.toNat s.root.toNat j) : i = j := by
  rcases ht.path_prefix_cases hc hv hj hpre with he | ⟨p, hp, hlp, he⟩
  · exact ht.path_injective hc hv hi hj he
  · obtain rfl := ht.path_injective hc hv hi hp he
    exact absurd hli (by simp [hlp])

end

/-- Settles O40: the paths of children are `TreeInv.path_childOf`, and walks follow by induction from the root. -/
theorem pathIsTheBranchBitsFromTheRoot : Obligations.PathIsTheBranchBitsFromTheRoot := by
  intro s hs hv
  have hc := hs.count
  have ht := hs.tree
  refine ⟨path_root _ _ _, fun p i hp hl => ⟨?_, ?_⟩, fun i => ht.walk_path hc hv⟩
  · rintro rfl
    exact ht.path_childOf hc hv hp hl false
  · rintro rfl
    exact ht.path_childOf hc hv hp hl true

/-- Settles O41: codewords are paths of leaves. -/
theorem codewordsArePrefixFree : Obligations.CodewordsArePrefixFree := by
  intro s x y cx cy hs hv hx hy hxy hcx hcy hpre
  have hc := hs.count
  have ht := hs.tree
  obtain ⟨i, hi, hli, rfl⟩ := ht.exists_leaf hc hv hx
  obtain ⟨j, hj, hlj, rfl⟩ := ht.exists_leaf hc hv hy
  obtain rfl := Option.some.inj ((ht.codeOf_leaf hc hv hi hli).symm.trans hcx)
  obtain rfl := Option.some.inj ((ht.codeOf_leaf hc hv hj hlj).symm.trans hcy)
  exact hxy (congrArg (fun k => (s.nodeOf k).sym) (ht.eq_of_leaf_path_prefix hc hv hi hli hj hpre))

/-! The code space (R142 (d)). -/

section
variable {n k : Nat} {node : Nat → Node} {depth : Nat → Nat} (h : JoinTree n node)
include h

/-- The two children of a join take its place in the code space. -/
theorem JoinTree.fillsCode_of_succ {a b : Nat} (hk : k + 1 < n) (hj : JoinsTwoLeast node n k a b)
    (hb : OneBelow depth (n + k) a b) (hd : FillsCode (leftAt node n (k + 1)) depth) :
    FillsCode (leftAt node n k) depth := by
  have hsum := h.sum_leftAt_succ (fun i => ((2 : ℚ) ^ depth i)⁻¹) hk hj
  rw [hb.1, hb.2, hd, pow_succ, mul_inv] at hsum
  rw [FillsCode]
  linarith

/-- At every turn the depths of the nodes left fill the code space: from the root alone back to the leaves. -/
theorem JoinTree.fillsCode (hown : TreeDepth n node depth) (joins : Nat) (hk : k + joins + 1 = n) :
    FillsCode (leftAt node n k) depth := by
  induction joins generalizing k with
  | zero =>
    obtain rfl : k = n - 1 := by omega
    simp [FillsCode, h.leftAt_last, hown.root]
  | succ joins ih =>
    have hkn : k + 1 < n := by omega
    have hle := h.size_le
    obtain ⟨a, b, hj⟩ := h.joins k hkn
    obtain ⟨h0, h1⟩ := hj.children (by omega)
    exact h.fillsCode_of_succ hkn hj
      ⟨hown.child _ _ (by omega) (by omega) (.inl h0), hown.child _ _ (by omega) (by omega) (.inr h1)⟩ (ih (by omega))

end

/-- A path is no longer than a LUT entry's length field can say (R8 MAX_CODE_LEN). -/
theorem TreeInv.path_length_le {s : State} (hc : CountInv s) (ht : TreeInv s) (hv : s.treeValid = true) {i : Nat}
    (hi : i < s.nodes.toNat) : (path s.arena s.nodes.toNat s.root.toNat i).length ≤ 255 := by
  have hlen : (path s.arena s.nodes.toNat s.root.toNat i).length + _ ≤ _ := ht.pathUp_length hc hv hi
  obtain ⟨-, hroot⟩ := ht.sizes hv
  have := hc.nsym_le
  omega

/-- Settles O42: the leaves are what is left at the first turn, at the depths that are their codewords' lengths. -/
theorem codewordLengthsFillTheCodeSpace : Obligations.CodewordLengthsFillTheCodeSpace := by
  intro s hs hv
  have hc := hs.count
  have ht := hs.tree
  have h := ht.joinTree hc hv
  have hpos := h.size_pos
  have hlt : ∀ i ∈ Finset.range s.nsym.toNat, i < s.nodes.toNat := fun i hi => by
    have := Finset.mem_range.1 hi
    have := ht.nodes hv
    omega
  have hfills := h.fillsCode (ht.treeDepth hc hv) (k := 0) (s.nsym.toNat - 1) (by omega)
  rw [leftAt_zero] at hfills
  rw [ht.sum_presentSyms hc hv fun x => 2 ^ (255 - ((codeOf s x).getD []).length),
    ← hfills.sum_two_pow fun i hi => ht.path_length_le hc hv (hlt i hi)]
  refine Finset.sum_congr rfl fun i hi => ?_
  rw [ht.codeOf_leaf hc hv (hlt i hi) (h.leaf i (Finset.mem_range.1 hi)), Option.getD_some]

end Sys2Proof.Machine
end

section
/-! PROOFS. The codeword LUT's commands (42_codeword_lut R140, R143, R144). -/

namespace Sys2Proof.Machine

section
variable {s : State} {sym : Sym} {widx : BitVec 3} {code : ErrCode}

/-! LUT_DERIVE. -/

theorem exec_lutDerive_noTree (h : s.treeValid = false) : exec .lutDerive s = .next (raiseError .noTree s) := if_pos h

theorem exec_lutDerive (h : s.treeValid = true) : exec .lutDerive s = .next (complete
    { s with lut := deriveLut s.arena s.nodes.toNat s.root.toNat s.lut, lutValid := true }) := by
  simp [exec, execLutDerive, h]

theorem entryOf_len {c : List Bool} (h : c.length ≤ 255) : (entryOf c).len.toNat = c.length :=
  (BitVec.toNat_ofNat _ 8).trans (Nat.mod_eq_of_lt (Nat.lt_succ_of_le h))

/-- A leaf's symbol gets the leaf's path: no other leaf has it. -/
theorem TreeInv.read_deriveLut (hc : CountInv s) (ht : TreeInv s) (hv : s.treeValid = true)
    (hw : s.memoriesWf = true) {i : Nat} (hi : i < s.nodes.toNat) (hl : (s.nodeOf i).leaf = true) :
    Memory.read lutDefault (deriveLut s.arena s.nodes.toNat s.root.toNat s.lut) (s.nodeOf i).sym.toNat
      = entryOf (path s.arena s.nodes.toNat s.root.toNat i) := by
  obtain ⟨-, -, hlut⟩ := (memoriesWf_iff s).1 hw
  exact read_foldl_deriveNode hlut (List.mem_range.2 hi) hl rfl fun j hj hlj he =>
    ht.leaf_unique hc hv (List.mem_range.1 hj) hi hlj hl he

/-- An absent symbol keeps its entry: no leaf has it. -/
theorem TreeInv.read_deriveLut_absent (hc : CountInv s) (ht : TreeInv s) (hv : s.treeValid = true)
    (hx : s.freqOf sym = 0#32) :
    Memory.read lutDefault (deriveLut s.arena s.nodes.toNat s.root.toNat s.lut) sym.toNat = s.lutOf sym :=
  read_foldl_deriveNode_other fun j hj hlj he =>
    (ht.present_iff hc hv sym).2 ⟨j, List.mem_range.1 hj, hlj, he⟩ hx

/-- Settles O24: a symbol's entry is written by its one leaf, and an absent symbol has none. -/
theorem lutDeriveWritesEveryCodeword : Obligations.LutDeriveWritesEveryCodeword := by
  refine ⟨decode_encode .lutDerive, fun s => ⟨exec_lutDerive_noTree, fun hs hv => ?_⟩⟩
  have hc := hs.count
  have ht := hs.tree
  refine ⟨_, exec_lutDerive hv, fun i hi hl => ?_, fun x => ht.read_deriveLut_absent hc hv⟩
  have hread := ht.read_deriveLut hc hv hs.memories hi hl
  exact ⟨congrArg LutEntry.code hread,
    (congrArg (·.len.toNat) hread).trans (entryOf_len (ht.path_length_le hc hv hi))⟩

/-! LUT_LEN and LUT_WORD: the codeword check, then the value. -/

theorem codewordError_noLut (hv : s.lutValid = false) : codewordError s sym = some .noLut := if_pos hv

theorem codewordError_symAbsent (hv : s.lutValid = true) (hf : s.freqOf sym = 0#32) :
    codewordError s sym = some .symAbsent := by
  simp [codewordError, hv, hf]

theorem exec_lutLen_error (h : codewordError s sym = some code) :
    exec (.lutLen sym) s = .next (raiseError code s) := by
  simp [exec, execLutLen, h]

theorem exec_lutLen (h : codewordError s sym = none) :
    exec (.lutLen sym) s = .next (completeWith (zext32 (s.lutOf sym).len) s) := by
  simp [exec, execLutLen, h]

theorem exec_lutWord_error (h : codewordError s sym = some code) :
    exec (.lutWord sym widx) s = .next (raiseError code s) := by
  simp [exec, execLutWord, h]

theorem exec_lutWord (h : codewordError s sym = none) :
    exec (.lutWord sym widx) s = .next (completeWith (lutWordOf (s.lutOf sym) widx) s) := by
  simp [exec, execLutWord, h]

/-- Settles O25: the two checks in R211's order, then the length. -/
theorem lutLenReturnsTheLength : Obligations.LutLenReturnsTheLength := fun _ sym =>
  ⟨decode_encode (.lutLen sym), fun hv => exec_lutLen_error (codewordError_noLut hv),
    fun hv hf => exec_lutLen_error (codewordError_symAbsent hv hf),
    fun hv hf => ⟨_, exec_lutLen (codewordError_none hv hf), zext32_toNat _ (by decide)⟩⟩

/-! The bits of a codeword word. -/

theorem packMsbFirst_append_singleton (bits : List Bool) (b : Bool) :
    packMsbFirst (bits ++ [b]) = packMsbFirst bits <<< 1 ||| bitWord b := by
  simp [packMsbFirst]

theorem bitWord_getLsbD (b : Bool) (k : Nat) : (bitWord b).getLsbD k = (b && decide (k = 0)) := by
  cases b <;> simp [bitWord, BitVec.getLsbD_one]

/-- The last bit packed is bit 0. -/
theorem packMsbFirst_getLsbD {k : Nat} (bits : List Bool) (hk : k < 32) :
    (packMsbFirst bits).getLsbD k = bits.reverse.getD k false := by
  induction bits using List.reverseRecOn generalizing k with
  | nil => simp [packMsbFirst]
  | append_singleton bits b ih =>
    rw [packMsbFirst_append_singleton, BitVec.getLsbD_or, bitWord_getLsbD, List.reverse_concat]
    cases k with
    | zero => simp
    | succ k =>
      have hlt := Nat.lt_of_succ_lt hk
      simpa [hk, hlt] using ih hlt

/-- Word bit `31 - j` is codeword bit `32 * WIDX + j` (R144). -/
theorem lutWordOf_getLsbD (e : LutEntry) (widx : BitVec 3) {j : Nat} (hj : j < 32) :
    (lutWordOf e widx).getLsbD (31 - j) = e.bitAt (32 * widx.toNat + j) := by
  have hback : 31 - (31 - j) = j := by omega
  rw [lutWordOf, packMsbFirst_getLsbD _ (by omega), List.getD_eq_getElem?_getD, List.getElem?_reverse (by simp; omega)]
  simp [hback, hj]

theorem bitAt_eq_ite (e : LutEntry) (k : Nat) :
    e.bitAt k = if k < e.len.toNat then e.code.getD k false else false := by
  by_cases hk : k < e.len.toNat <;> simp [LutEntry.bitAt, hk]

/-- Settles O26: the two checks in R211's order, then the word of the codeword. -/
theorem lutWordReturnsCodewordBitsMsbFirst : Obligations.LutWordReturnsCodewordBitsMsbFirst := fun _ sym widx =>
  ⟨decode_encode (.lutWord sym widx), fun hv => exec_lutWord_error (codewordError_noLut hv),
    fun hv hf => exec_lutWord_error (codewordError_symAbsent hv hf),
    fun hv hf => ⟨_, exec_lutWord (codewordError_none hv hf), fun _ hj =>
      (lutWordOf_getLsbD _ widx hj).trans (bitAt_eq_ite _ _)⟩⟩

end
end Sys2Proof.Machine
end

section
/-! PROOFS. The Huffman encoder (43_encoder R161): ENC_SYM's engine steps, and the states a whole ENC_SYM goes through
while the sink accepts. -/

namespace Sys2Proof.Machine

section
variable {s : State} {sym : Sym} {code : ErrCode}

/-! The start step and the emit step. -/

theorem encStart_error (h : codewordError s sym = some code) : encStart sym s = raiseError code s := by
  simp [encStart, h]

theorem encStart_of_len_zero (hv : s.lutValid = true) (hf : s.freqOf sym ≠ 0#32) (hl : (s.lutOf sym).len = 0#8) :
    encStart sym s = complete { s with encPos := 0#8 } := by
  simp [encStart, codewordError_none hv hf, hl]

theorem encStart_of_len_ne_zero (hv : s.lutValid = true) (hf : s.freqOf sym ≠ 0#32) (hl : (s.lutOf sym).len ≠ 0#8) :
    encStart sym s = { s with encPos := 0#8, phase := .running } := by
  simp [encStart, codewordError_none hv hf, hl]

/-- An emit step past the handshake moves the bit, and BUSY falls with the last one. -/
theorem encEmit_eq_emitted (ha : s.sinkMode.accepts = true) : encEmit sym s
    = { emitted sym s with busy := if s.encPos + 1#8 = (s.lutOf sym).len then false else s.busy } := by
  rw [encEmit_of_accepts sym ha]
  split <;> rfl

/-- Settles O27: the start step by R211's checks and the codeword's length, the emit step by the sink. -/
theorem encSymStepsAsItsRuleSays : Obligations.EncSymStepsAsItsRuleSays := by
  refine fun s sym => ⟨decode_encode (.encSym sym), fun hp hv => ?_, fun hp hv hf => ?_, fun hp hv hf hl => ?_,
    fun hp hv hf hl => ?_, fun hp ha => ?_, fun hp ha => ?_⟩
  · rw [exec_encSym_start sym hp, encStart_error (codewordError_noLut hv), raiseError]
  · rw [exec_encSym_start sym hp, encStart_error (codewordError_symAbsent hv hf), raiseError]
  · rw [exec_encSym_start sym hp, encStart_of_len_zero hv hf hl, complete]
    rfl
  · rw [exec_encSym_start sym hp, encStart_of_len_ne_zero hv hf hl]
    rfl
  · rw [exec_encSym_running sym hp, encEmit_eq_emitted ha, emitted]
  · rw [exec_encSym_running sym hp, encEmit_of_not_accepts sym ha]

/-! A codeword's length. -/

/-- A present symbol's LUT entry has as many bits as its length says, which no path is too long for (R39 (c), R126). -/
theorem Inv.lutOf_code_length (h : Inv s) (hv : s.lutValid = true) (hf : s.freqOf sym ≠ 0#32) :
    (s.lutOf sym).code.length = (s.lutOf sym).len.toNat := by
  have ht := h.status.lut_tree hv
  obtain ⟨i, hi, hl, rfl⟩ := h.tree.exists_leaf h.count ht hf
  have hentry := h.lut hv _ hf
  rw [h.tree.codeOf_leaf h.count ht hi hl] at hentry
  rw [← Option.some.inj hentry, entryOf_len (h.tree.path_length_le h.count ht hi), entryOf]

/-! The sink's room. -/

/-- The sink accepts `n` more bits (log 15). -/
def SinkMode.HasRoom (m : SinkMode) (n : Nat) : Prop := m = .always ∨ ∃ room, n ≤ room ∧ m = .limited room

theorem SinkMode.afterTransfer_iterate_always (n : Nat) : SinkMode.afterTransfer^[n] .always = .always :=
  Function.iterate_fixed rfl n

theorem SinkMode.afterTransfer_iterate_limited (n room : Nat) :
    SinkMode.afterTransfer^[n] (.limited room) = .limited (room - n) := by
  induction n with
  | zero => rfl
  | succ n ih => rw [Function.iterate_succ_apply', ih, SinkMode.afterTransfer, Nat.sub_sub]

theorem SinkMode.accepts_limited {room : Nat} (h : room ≠ 0) : SinkMode.accepts (.limited room) = true := by
  obtain ⟨k, rfl⟩ := Nat.exists_eq_succ_of_ne_zero h
  rfl

/-- With room for `m` bits the sink still accepts after fewer. -/
theorem SinkMode.HasRoom.accepts {mode : SinkMode} {m n : Nat} (h : mode.HasRoom m) (hn : n < m) :
    (SinkMode.afterTransfer^[n] mode).accepts = true := by
  obtain rfl | ⟨room, hroom, rfl⟩ := h
  · rw [SinkMode.afterTransfer_iterate_always]
    rfl
  · rw [SinkMode.afterTransfer_iterate_limited]
    exact SinkMode.accepts_limited (by omega)

/-! A whole ENC_SYM. -/

/-- A run goes along any sequence of states that follow each other by steps. -/
theorem run_of_trace {trace : Nat → State} {n : Nat} (h : ∀ k < n, step (trace k) = .next (trace (k + 1))) :
    Host.Core.run Sys2Proof.core n (trace 0) = .next (trace n) := by
  induction n generalizing trace with
  | zero => rfl
  | succ n ih =>
    rw [run_succ_of_step (h 0 n.succ_pos)]
    exact ih (trace := fun k => trace (k + 1)) fun k hk => h (k + 1) (Nat.succ_lt_succ hk)

/-- The state after `k` engine steps of an ENC_SYM that no sink holds: the start step, then one bit a step (R161). -/
def encTrace (sym : Sym) (s : State) : Nat → State
  | 0 => { s with pending := [] }
  | n + 1 =>
    { s with
      pending := []
      busy := decide (n < (s.lutOf sym).len.toNat)
      sink := s.sink ++ (s.lutOf sym).code.take n
      sinkMode := SinkMode.afterTransfer^[n] s.sinkMode
      phase := if (s.lutOf sym).len = 0#8 then .start else .running
      encPos := BitVec.ofNat 8 n }

section
variable (hs : readyFor (.encSym sym) s)
include hs

theorem encTrace_busy {k : Nat} (hk : k < 1 + (s.lutOf sym).len.toNat) : (encTrace sym s k).busy = true := by
  obtain ⟨-, hb, -, -⟩ := hs
  cases k with
  | zero => exact hb
  | succ n => exact decide_eq_true (by omega)

/-- While ENC_SYM is busy each step is its engine step. -/
theorem step_encTrace {k : Nat} (hk : k < 1 + (s.lutOf sym).len.toNat) :
    step (encTrace sym s k) = exec (.encSym sym) (encTrace sym s k) := by
  have hb := encTrace_busy hs hk
  obtain ⟨hr, -, -, hd⟩ := hs
  cases k <;> exact (step_of_nil rfl).trans (engineStep_run hr hb hd)

/-- The start step moves no bit, and ends the command on an empty codeword. -/
theorem exec_encTrace_start (hv : s.lutValid = true) (hf : s.freqOf sym ≠ 0#32) :
    exec (.encSym sym) (encTrace sym s 0) = .next (encTrace sym s 1) := by
  obtain ⟨-, hb, hp, -⟩ := hs
  rw [exec_encSym_start (s := encTrace sym s 0) sym hp]
  by_cases hl : (s.lutOf sym).len = 0#8
  · rw [encStart_of_len_zero (s := encTrace sym s 0) hv hf hl]
    simp [encTrace, complete, hl, hp]
  · have hpos : 0 < (s.lutOf sym).len.toNat := Nat.pos_of_ne_zero fun h => hl (BitVec.eq_of_toNat_eq h)
    rw [encStart_of_len_ne_zero (s := encTrace sym s 0) hv hf hl]
    simp [encTrace, hl, hb, hpos]

end

theorem take_succ_eq_append_getD {bits : List Bool} {n : Nat} (h : n < bits.length) :
    bits.take (n + 1) = bits.take n ++ [bits.getD n false] := by
  rw [List.take_succ_eq_append_getElem h, List.getD_eq_getElem _ _ h]

/-- The register ENC_POS reaches the length exactly when no bit is left after the next one. -/
theorem succ_lt_toNat_iff_ofNat_ne {len : BitVec 8} {n : Nat} (hn : n < len.toNat) :
    n + 1 < len.toNat ↔ BitVec.ofNat 8 (n + 1) ≠ len := by
  have hlt := len.isLt
  rw [Ne, ← BitVec.toNat_inj, BitVec.toNat_ofNat, Nat.mod_eq_of_lt (by omega)]
  exact (Nat.succ_le_of_lt hn).lt_iff_ne

/-- Each emit step moves the next bit, and the last one ends the command. -/
theorem exec_encTrace_emit (hlen : (s.lutOf sym).code.length = (s.lutOf sym).len.toNat)
    (hroom : s.sinkMode.HasRoom (s.lutOf sym).len.toNat) {n : Nat} (hn : n < (s.lutOf sym).len.toNat) :
    exec (.encSym sym) (encTrace sym s (n + 1)) = .next (encTrace sym s (n + 2)) := by
  have hl : (s.lutOf sym).len ≠ 0#8 := by
    intro h
    simp [h] at hn
  have hpos : (BitVec.ofNat 8 n).toNat = n := Nat.mod_eq_of_lt (hn.trans (s.lutOf sym).len.isLt)
  have hnext : BitVec.ofNat 8 n + 1#8 = BitVec.ofNat 8 (n + 1) := (BitVec.ofNat_add n 1).symm
  have hbits := take_succ_eq_append_getD (hn.trans_eq hlen.symm)
  have hlut : (encTrace sym s (n + 1)).lutOf sym = s.lutOf sym := rfl
  rw [exec_encSym_running (s := encTrace sym s (n + 1)) sym (if_neg hl),
    encEmit_eq_emitted (s := encTrace sym s (n + 1)) (hroom.accepts hn)]
  simp only [emitted, hlut]
  simp [encTrace, hpos, hnext, succ_lt_toNat_iff_ofNat_ne hn, hbits, hn, Function.iterate_succ_apply']

/-- Settles O29: the states a whole ENC_SYM goes through are those of `encTrace`. -/
theorem encSymEmitsItsCodeword : Obligations.EncSymEmitsItsCodeword := by
  intro s sym h hs hv hf hroom
  have hlen := h.lutOf_code_length hv hf
  have htrace : ∀ k < 1 + (s.lutOf sym).len.toNat, step (encTrace sym s k) = .next (encTrace sym s (k + 1)) := by
    intro k hk
    rw [step_encTrace hs hk]
    cases k with
    | zero => exact exec_encTrace_start hs hv hf
    | succ n => exact exec_encTrace_emit hlen hroom (by omega)
  have hrun : ∀ k ≤ 1 + (s.lutOf sym).len.toNat, engineRun k s = .next (encTrace sym s k) := fun k hk =>
    run_of_trace fun j hj => htrace j (hj.trans_le hk)
  refine ⟨⟨_, hrun _ le_rfl, ?_, ?_, ?_⟩, fun k hk => ⟨_, hrun k hk.le, encTrace_busy hs hk, ?_⟩⟩
  · simp [Nat.add_comm 1, encTrace, ← hlen]
  · intro hm
    simp [Nat.add_comm 1, encTrace, hm, SinkMode.afterTransfer_iterate_always]
  · intro room hm
    simp [Nat.add_comm 1, encTrace, hm, SinkMode.afterTransfer_iterate_limited]
  · cases k <;> simp [encTrace]

end
end Sys2Proof.Machine
end

section
/-! PROOFS. The Huffman decoder (44_decoder R170 to R173): DEC_SYM's engine steps, and the descent that a whole DEC_SYM
makes along the bits offered, which ends at a leaf or with the bits. -/

namespace Sys2Proof.Machine

section
variable {s t : State}

/-! The start step and the bit step. -/

theorem decArrive_of_leaf {n : NodeIdx} (hl : (s.nodeOf n.toNat).leaf = true) :
    decArrive n s = completeWith (zext32 (s.nodeOf n.toNat).sym) { s with decNode := n } := if_pos hl

theorem decArrive_of_internal {n : NodeIdx} (hl : (s.nodeOf n.toNat).leaf = false) :
    decArrive n s = { s with decNode := n, phase := .running } := if_neg (ne_true_of_eq_false hl)

theorem decStart_of_noTree (hv : s.treeValid = false) : decStart s = raiseError .noTree s := if_pos hv

theorem decStart_of_tree (hv : s.treeValid = true) : decStart s = decArrive s.root s := if_neg (by simp [hv])

/-- Settles O28: the start step by the tree, the bit step by the port, and each arrival by the node's leaf bit. -/
theorem decSymStepsAsItsRuleSays : Obligations.DecSymStepsAsItsRuleSays := by
  refine ⟨decode_encode .decSym, fun s => ⟨fun hp hv => ?_, fun hp hv hl => ?_, fun hp hv hl => ?_,
    fun hp b rest hs => ⟨_, rfl, fun hl => ?_, fun hl => ?_⟩, fun hp hs he => ?_, fun hp hs he => ?_⟩⟩
  · rw [exec_decSym_start hp, decStart_of_noTree hv, raiseError]
  · rw [exec_decSym_start hp, decStart_of_tree hv, decArrive_of_leaf hl]
    rfl
  · rw [exec_decSym_start hp, decStart_of_tree hv, decArrive_of_internal hl]
  · rw [exec_decSym_running hp, decBit_of_bit hs]
    exact congrArg _ (decArrive_of_leaf hl)
  · rw [exec_decSym_running hp, decBit_of_bit hs]
    exact congrArg _ ((decArrive_of_internal (s := { s with src := rest }) hl).trans (by rw [hp]))
  · rw [exec_decSym_running hp, decBit_of_eos hs he, raiseError]
  · rw [exec_decSym_running hp, decBit_of_hold hs he]

/-! The nodes a descent leaves (R170). -/

/-- Every node that the walk from `i` by these bits leaves has children. -/
def Descends (arena : Memory Node) (i : Nat) : List Bool → Prop
  | [] => True
  | b :: rest => (nodeAt arena i).leaf = false ∧ Descends arena (childOf (nodeAt arena i) b).toNat rest

theorem descends_concat {arena : Memory Node} {i : Nat} {c : List Bool} {b : Bool} :
    Descends arena i (c ++ [b]) ↔ Descends arena i c ∧ (nodeAt arena (walk arena i c)).leaf = false := by
  induction c generalizing i with
  | nil => simp [Descends, walk]
  | cons b' rest ih => simp [Descends, walk, ih, and_assoc]

/-- Any bits lead down to a leaf, or all of them are taken on the way (R173). -/
theorem exists_descends (arena : Memory Node) (i : Nat) (bits : List Bool) :
    ∃ c rest, bits = c ++ rest ∧ Descends arena i c
      ∧ ((nodeAt arena (walk arena i c)).leaf = true ∨ (nodeAt arena (walk arena i c)).leaf = false ∧ rest = []) := by
  induction bits generalizing i with
  | nil =>
    refine ⟨[], [], rfl, trivial, ?_⟩
    cases hl : (nodeAt arena i).leaf <;> simp [walk, hl]
  | cons b bits ih =>
    cases hl : (nodeAt arena i).leaf with
    | true => exact ⟨[], b :: bits, rfl, trivial, .inl hl⟩
    | false =>
      obtain ⟨c, rest, hbits, hc, hend⟩ := ih (childOf (nodeAt arena i) b).toNat
      exact ⟨b :: c, rest, congrArg (b :: ·) hbits, ⟨hl, hc⟩, hend⟩

section
variable (hc : CountInv s) (ht : TreeInv s) (hv : s.treeValid = true)
include hc ht hv

/-- The walk from the root by a node's path leaves only nodes above it. -/
theorem TreeInv.descends_path {i : Nat} (hi : i < s.nodes.toNat) :
    Descends s.arena s.root.toNat (path s.arena s.nodes.toNat s.root.toNat i) := by
  induction i, hi using ht.induction_from_root hc hv with
  | root =>
    rw [path_root]
    trivial
  | child p b hp hl ih =>
    rw [ht.path_childOf hc hv hp hl, descends_concat, ht.walk_path hc hv hp]
    exact ⟨ih, hl⟩

/-- A descent from the root is the path of the node it comes to. -/
theorem TreeInv.path_walk {c : List Bool} (hd : Descends s.arena s.root.toNat c) :
    walk s.arena s.root.toNat c < s.nodes.toNat
      ∧ path s.arena s.nodes.toNat s.root.toNat (walk s.arena s.root.toNat c) = c := by
  induction c using List.reverseRecOn with
  | nil => exact ⟨ht.root_lt hv, path_root _ _ _⟩
  | append_singleton c b ih =>
    obtain ⟨hd, hl⟩ := descends_concat.1 hd
    obtain ⟨hlt, hpath⟩ := ih hd
    have hstep : walk s.arena s.root.toNat (c ++ [b]) = (childOf (s.nodeOf (walk s.arena s.root.toNat c)) b).toNat :=
      walk_append _ _ _ _
    rw [hstep]
    exact ⟨(ht.child_lt hc hv hlt hl b).trans hlt, by rw [ht.path_childOf hc hv hlt hl, hpath]⟩

/-- A descent that comes to an internal node leaves room for one more bit in a codeword. -/
theorem TreeInv.descends_length_lt {c : List Bool} (hd : Descends s.arena s.root.toNat c)
    (hl : (s.nodeOf (walk s.arena s.root.toNat c)).leaf = false) : c.length < 255 := by
  obtain ⟨hchild, hpath⟩ := ht.path_walk hc hv (descends_concat (b := false).2 ⟨hd, hl⟩)
  have := hpath ▸ ht.path_length_le hc hv hchild
  rw [List.length_append, List.length_singleton] at this
  omega

/-- A present symbol's codeword is a descent to its leaf. -/
theorem TreeInv.descends_codeOf {sym : Sym} {c : List Bool} (hf : s.freqOf sym ≠ 0#32) (hcode : codeOf s sym = some c) :
    Descends s.arena s.root.toNat c ∧ (s.nodeOf (walk s.arena s.root.toNat c)).leaf = true
      ∧ (s.nodeOf (walk s.arena s.root.toNat c)).sym = sym := by
  obtain ⟨i, hi, hl, rfl⟩ := ht.exists_leaf hc hv hf
  obtain rfl := Option.some.inj ((ht.codeOf_leaf hc hv hi hl).symm.trans hcode)
  rw [ht.walk_path hc hv hi]
  exact ⟨ht.descends_path hc hv hi, hl, rfl⟩

/-- A descent to a leaf is the codeword of the leaf's symbol, which is present. -/
theorem TreeInv.codeOf_walk {c : List Bool} (hd : Descends s.arena s.root.toNat c)
    (hl : (s.nodeOf (walk s.arena s.root.toNat c)).leaf = true) :
    s.freqOf (s.nodeOf (walk s.arena s.root.toNat c)).sym ≠ 0#32
      ∧ codeOf s (s.nodeOf (walk s.arena s.root.toNat c)).sym = some c := by
  obtain ⟨hlt, hpath⟩ := ht.path_walk hc hv hd
  exact ⟨(ht.present_iff hc hv _).2 ⟨_, hlt, hl, rfl⟩, by rw [ht.codeOf_leaf hc hv hlt hl, hpath]⟩

end

/-! A whole DEC_SYM. -/

/-- A DEC_SYM is in flight and only the engine moves. -/
structure Decoding (s : State) : Prop where
  pending : s.pending = []
  rstN : s.rstN = true
  busy : s.busy = true
  command : decode s.curCmd = some .decSym

theorem Decoding.step_eq (h : Decoding s) : step s = exec .decSym s :=
  (step_of_nil h.pending).trans (engineStep_run h.rstN h.busy h.command)

theorem Decoding.step_start (h : Decoding s) (hp : s.phase = .start) (hv : s.treeValid = true) :
    step s = .next (decArrive s.root s) := by
  rw [h.step_eq, exec_decSym_start hp, decStart_of_tree hv]

theorem Decoding.step_bit (h : Decoding s) {b : Bool} {rest : List Bool} (hp : s.phase = .running)
    (hs : s.src = b :: rest) :
    step s = .next (decArrive (childOf (s.nodeOf s.decNode.toNat) b) { s with src := rest }) := by
  rw [h.step_eq, exec_decSym_running hp, decBit_of_bit hs]

theorem Decoding.step_eos (h : Decoding s) (hp : s.phase = .running) (hs : s.src = []) (he : s.eos = true) :
    step s = .next (raiseError .truncated s) := by
  rw [h.step_eq, exec_decSym_running hp, decBit_of_eos hs he]

/-- Arriving at a node, DEC_SYM goes on down the bits offered, one engine step a bit. -/
theorem Decoding.run_decArrive (h : Decoding s) {n : NodeIdx} {c rest : List Bool} (hd : Descends s.arena n.toNat c)
    (hs : s.src = c ++ rest) :
    ∃ m p, m.toNat = walk s.arena n.toNat c
      ∧ ∀ k, Host.Core.run Sys2Proof.core (c.length + k) (decArrive n s)
        = Host.Core.run Sys2Proof.core k (decArrive m { s with src := rest, phase := p }) := by
  induction c generalizing s n with
  | nil =>
    obtain rfl : s.src = rest := hs
    exact ⟨n, s.phase, rfl, fun k => by rw [List.length_nil, Nat.zero_add]⟩
  | cons b c ih =>
    obtain ⟨hl, hd⟩ := hd
    have hgo : Decoding { s with decNode := n, phase := .running } := ⟨h.pending, h.rstN, h.busy, h.command⟩
    have hstep : step (decArrive n s) = .next
        (decArrive (childOf (s.nodeOf n.toNat) b) { s with decNode := n, phase := .running, src := c ++ rest }) := by
      rw [decArrive_of_internal hl]
      exact hgo.step_bit rfl hs
    obtain ⟨m, p, hm, hrun⟩ := ih (s := { s with decNode := n, phase := .running, src := c ++ rest })
      ⟨h.pending, h.rstN, h.busy, h.command⟩ hd rfl
    refine ⟨m, p, hm, fun k => ?_⟩
    rw [List.length_cons, Nat.succ_add, run_succ_of_step hstep]
    exact hrun k

/-- From its start step DEC_SYM comes down a descent in one engine step and one more for each bit. -/
theorem engineRun_decSym (hs : readyFor .decSym s) (hv : s.treeValid = true) {c rest : List Bool}
    (hd : Descends s.arena s.root.toNat c) (hsrc : s.src = c ++ rest) :
    ∃ m p, m.toNat = walk s.arena s.root.toNat c
      ∧ ∀ k, engineRun (1 + c.length + k) s
        = Host.Core.run Sys2Proof.core k (decArrive m { s with pending := [], src := rest, phase := p }) := by
  obtain ⟨hr, hb, hp, hcmd⟩ := hs
  have h : Decoding { s with pending := [] } := ⟨rfl, hr, hb, hcmd⟩
  obtain ⟨m, p, hm, hrun⟩ := h.run_decArrive hd hsrc
  refine ⟨m, p, hm, fun k => ?_⟩
  rw [engineRun, Nat.add_assoc, Nat.add_comm 1, run_succ_of_step (h.step_start hp hv)]
  exact hrun k

end

/-- Settles O30: the codeword is a descent to the symbol's leaf. -/
theorem decSymDecodesACodeword : Obligations.DecSymDecodesACodeword := by
  intro s sym c rest h hs hv hf hcode hsrc
  obtain ⟨hd, hl, hsym⟩ := h.tree.descends_codeOf h.count hv hf hcode
  obtain ⟨m, p, hm, hrun⟩ := engineRun_decSym hs hv hd hsrc
  rw [← hm] at hl hsym
  rw [decArrive_of_leaf (s := { s with pending := [], src := rest, phase := p }) hl] at hrun
  subst hsym
  exact ⟨_, hrun 0, rfl⟩

/-- Settles O32: the bits lead down to a leaf, whose codeword they then begin with, or end at an internal node, where the
next step finds the end of the stream. -/
theorem anyBitsDecodeToATreeSymbolOrTruncate : Obligations.AnyBitsDecodeToATreeSymbolOrTruncate := by
  intro s h hs hv heos
  have hc := h.count
  have ht := h.tree
  obtain ⟨c, rest, hsrc, hd, hend⟩ := exists_descends s.arena s.root.toNat s.src
  obtain ⟨m, p, hm, hrun⟩ := engineRun_decSym hs hv hd hsrc
  obtain ⟨hr, hb, -, hcmd⟩ := hs
  rcases hend with hl | ⟨hl, rfl⟩
  · obtain ⟨hf, hcode⟩ := ht.codeOf_walk hc hv hd hl
    obtain ⟨hlt, hpath⟩ := ht.path_walk hc hv hd
    have hlen := hpath ▸ ht.path_length_le hc hv hlt
    have herr : s.err = false := by
      by_contra he
      cases h.status.command_of_err (by simpa using he) hb hcmd
    rw [← hm] at hl hf hcode
    rw [decArrive_of_leaf (s := { s with pending := [], src := rest, phase := p }) hl] at hrun
    exact ⟨1 + c.length, _, by omega, hrun 0, rfl, .inl ⟨herr, _, c, hf, hcode, hsrc, rfl⟩⟩
  · have hlen := ht.descends_length_lt hc hv hd hl
    rw [← hm] at hl
    rw [decArrive_of_internal (s := { s with pending := [], src := [], phase := p }) hl] at hrun
    have hgo : Decoding { s with pending := [], src := [], decNode := m, phase := .running } := ⟨rfl, hr, hb, hcmd⟩
    have hlast := (hrun 1).trans (run_succ_of_step (hgo.step_eos rfl rfl heos) 0)
    exact ⟨1 + c.length + 1, _, by omega, hlast, rfl, .inr ⟨rfl, rfl, rfl, rfl⟩⟩

end Sys2Proof.Machine
end

section
/-! PROOFS. The round trip (44_decoder R174). What the engine does alone it does while the host waits, so `DO` of ENC_SYM
and of DEC_SYM do what O29 and O30 say; the bytes follow by induction. -/

namespace Sys2Proof.Machine

section
variable {s t : State} {i : Instr} {rest : List HostEvent}

/-! Engine steps while the host waits. -/

/-- An engine step of the command goes alike whatever the host has still to do (log 1). -/
def IgnoresPending (i : Instr) : Prop :=
  ∀ (s t : State) (p : List HostEvent), exec i s = .next t → exec i { s with pending := p } = .next { t with pending := p }

theorem encStart_setPending (sym : Sym) (s : State) (p : List HostEvent) :
    encStart sym { s with pending := p } = { encStart sym s with pending := p } := by
  rcases encStart_cases sym s with ⟨code, hc, he⟩ | ⟨hc, hl, he⟩ | ⟨hc, hl, he⟩ <;> rw [he]
  · exact encStart_error hc
  · obtain ⟨hv, hf⟩ := codewordError_eq_none.1 hc
    exact encStart_of_len_zero hv hf hl
  · obtain ⟨hv, hf⟩ := codewordError_eq_none.1 hc
    exact encStart_of_len_ne_zero hv hf hl

theorem encEmit_setPending (sym : Sym) (s : State) (p : List HostEvent) :
    encEmit sym { s with pending := p } = { encEmit sym s with pending := p } := by
  cases ha : s.sinkMode.accepts with
  | false => rw [encEmit_of_not_accepts sym ha, encEmit_of_not_accepts (s := { s with pending := p }) sym ha]
  | true =>
    rw [encEmit_eq_emitted ha, encEmit_eq_emitted (s := { s with pending := p }) ha]
    rfl

theorem decArrive_setPending (n : NodeIdx) (s : State) (p : List HostEvent) :
    decArrive n { s with pending := p } = { decArrive n s with pending := p } := by
  rcases decArrive_cases n s with ⟨hl, he⟩ | ⟨hl, he⟩ <;> rw [he]
  · exact decArrive_of_leaf hl
  · exact decArrive_of_internal hl

theorem decStart_setPending (s : State) (p : List HostEvent) :
    decStart { s with pending := p } = { decStart s with pending := p } := by
  rcases Bool.eq_false_or_eq_true s.treeValid with hv | hv
  · rw [decStart_of_tree hv, decStart_of_tree (s := { s with pending := p }) hv, decArrive_setPending]
  · rw [decStart_of_noTree hv]
    exact decStart_of_noTree hv

theorem decBit_setPending (s : State) (p : List HostEvent) :
    decBit { s with pending := p } = { decBit s with pending := p } := by
  rcases decBit_cases s with ⟨b, rest, hs, he⟩ | ⟨hs, he, hb⟩ | ⟨hs, he, hb⟩
  · rw [he, ← decArrive_setPending]
    exact decBit_of_bit hs
  · rw [hb]
    exact decBit_of_eos hs he
  · rw [hb]
    exact decBit_of_hold hs he

theorem Phase.eq_start_or_running (p : Phase) : p = .start ∨ p = .running := by
  cases p <;> simp

theorem encSym_ignoresPending (sym : Sym) : IgnoresPending (.encSym sym) := by
  intro s t p h
  rcases s.phase.eq_start_or_running with hp | hp
  · cases (exec_encSym_start sym hp).symm.trans h
    rw [exec_encSym_start (s := { s with pending := p }) sym hp, encStart_setPending]
  · cases (exec_encSym_running sym hp).symm.trans h
    rw [exec_encSym_running (s := { s with pending := p }) sym hp, encEmit_setPending]

theorem decSym_ignoresPending : IgnoresPending .decSym := by
  intro s t p h
  rcases s.phase.eq_start_or_running with hp | hp
  · cases (exec_decSym_start hp).symm.trans h
    rw [exec_decSym_start (s := { s with pending := p }) hp, decStart_setPending]
  · cases (exec_decSym_running hp).symm.trans h
    rw [exec_decSym_running (s := { s with pending := p }) hp, decBit_setPending]

/-- While the host waits the block comes to where the engine alone would take it. -/
theorem reaches_wait (hi : IgnoresPending i) {n : Nat} (hr : s.rstN = true) (hd : decode s.curCmd = some i)
    (hrun : engineRun n s = .next t) (hb : t.busy = false) :
    Reaches { s with pending := .wait :: rest } { t with pending := rest } := by
  induction n generalizing s with
  | zero =>
    cases hrun
    exact .single (step_of_host (s := { s with pending := .wait :: rest }) (turnOf_wait_idle rfl hb))
  | succ n ih =>
    rcases Bool.eq_false_or_eq_true s.busy with hs | hs
    · obtain ⟨u, hu⟩ := exec_answers i s
      have hengine (p : List HostEvent) : engineStep { s with pending := p } = .next { u with pending := p } :=
        (engineStep_run (s := { s with pending := p }) hr hs hd).trans (hi s u p hu)
      obtain ⟨-, hcmd, -⟩ := (cmdStep_of_exec hu).words_eq
      rw [engineRun, run_succ_of_step ((step_of_nil rfl).trans (hengine []))] at hrun
      exact .head ((step_of_wait_busy (s := { s with pending := .wait :: rest }) rfl hs).trans (hengine _))
        (ih ((cmdStep_of_exec hu).rstN_eq.trans hr) (hcmd ▸ hd) hrun)
    · have hidle : step { s with pending := [] } = .next { s with pending := [] } :=
        (step_of_nil rfl).trans (engineStep_idle (.inl hs))
      rw [engineRun, run_succ_of_step hidle] at hrun
      exact ih hr hd hrun

/-- `DO c` comes to where the engine alone takes the command accepted. -/
theorem reaches_doCommand_of_engineRun (hi : IgnoresPending i) (ha : Accepting s)
    (hp : s.pending = doCommand i ++ rest) {n : Nat} (hrun : engineRun n (acceptCommand (encode i) s) = .next t)
    (hb : t.busy = false) : Reaches s { t with pending := rest } :=
  .head (step_issue ha hp) (reaches_wait (s := acceptCommand (encode i) s) hi ha.rstN (decode_encode i) hrun hb)

/-! The invariants along a run. -/

theorem Inv.of_reaches (hs : Inv s) (h : Reaches s t) : Inv t := by
  induction h with
  | refl => exact hs
  | tail _ hstep ih => exact stepKeepsEveryInvariant _ _ hstep ih

theorem Accepting.inv_acceptCommand (ha : Accepting s) (hs : Inv s) (w : Word) : Inv (acceptCommand w s) :=
  (HostStep.accepted ha.rstN ha.busy (.inl ha.err)).inv hs

theorem Accepting.readyFor (ha : Accepting s) (i : Instr) : readyFor i (acceptCommand (encode i) s) :=
  ⟨ha.rstN, rfl, rfl, decode_encode i⟩

/-- The states differ in the engine's registers only (R40). -/
def SameButEngine (s t : State) : Prop :=
  ∃ cmd data phase pos node,
    t = { s with curCmd := cmd, curData := data, phase := phase, encPos := pos, decNode := node }

/-! `DO` of ENC_SYM and of DEC_SYM. -/

/-- `DO ENC_SYM` into a sink that always accepts appends the codeword and changes nothing else. -/
theorem reaches_encSym (hs : Inv s) (ha : Accepting s) (hv : s.lutValid = true) (hm : s.sinkMode = .always) {b : Sym}
    (hf : s.freqOf b ≠ 0#32) (hp : s.pending = doCommand (.encSym b) ++ rest) :
    ∃ t, Reaches s t ∧ SameButEngine { s with pending := rest, sink := s.sink ++ (s.lutOf b).code } t := by
  obtain ⟨⟨t, hrun, ht, hmode, -⟩, -⟩ := encSymEmitsItsCodeword _ b (ha.inv_acceptCommand hs _)
    (ha.readyFor (.encSym b)) hv hf (.inl hm)
  have hb : t.busy = false := by rw [ht]
  refine ⟨_, reaches_doCommand_of_engineRun (encSym_ignoresPending b) ha hp hrun hb, ?_⟩
  refine ⟨t.curCmd, t.curData, t.phase, t.encPos, t.decNode, ?_⟩
  rw [ht, hmode hm]
  simp [acceptCommand, State.lutOf, ha.busy, hm]

/-- `DO DEC_SYM` with a present symbol's codeword offered takes it, leaves the symbol in RESULT and changes nothing
else. -/
theorem reaches_decSym (hs : Inv s) (ha : Accepting s) (hv : s.treeValid = true) {b : Sym} {c more : List Bool}
    (hf : s.freqOf b ≠ 0#32) (hcode : codeOf s b = some c) (hsrc : s.src = c ++ more)
    (hp : s.pending = doCommand .decSym ++ rest) :
    ∃ t, Reaches s t ∧ SameButEngine { s with pending := rest, src := more, result := zext32 b } t := by
  obtain ⟨t, hrun, ht⟩ := decSymDecodesACodeword _ b c more (ha.inv_acceptCommand hs _) (ha.readyFor .decSym) hv hf hcode
    hsrc
  have hb : t.busy = false := by rw [ht]
  refine ⟨_, reaches_doCommand_of_engineRun decSym_ignoresPending ha hp hrun hb, ?_⟩
  refine ⟨t.curCmd, t.curData, t.phase, t.encPos, t.decNode, ?_⟩
  rw [ht]
  simp [acceptCommand, ha.busy]

/-- A read of RESULT after `DO DEC_SYM` returns the symbol. -/
theorem reaches_decSym_read (hs : Inv s) (ha : Accepting s) (hv : s.treeValid = true) {b : Sym} {c more : List Bool}
    (hf : s.freqOf b ≠ 0#32) (hcode : codeOf s b = some c) (hsrc : s.src = c ++ more)
    (hp : s.pending = doCommand .decSym ++ .readReg Config.idxResult :: rest) :
    ∃ t, Reaches s t ∧ SameButEngine { s with pending := rest, src := more, result := zext32 b,
                                              reads := s.reads ++ [zext32 b] } t := by
  obtain ⟨_, hreach, cmd, data, phase, pos, node, rfl⟩ := reaches_decSym hs ha hv hf hcode hsrc hp
  exact ⟨_, hreach.tail (step_of_action rfl (by simp) (by simp)), cmd, data, phase, pos, node, rfl⟩

/-! `ENCODE` and `DECODE` (30_encoding R96). -/

/-- Encoding present bytes appends their codewords in order. -/
theorem reaches_encodeCommands (bytes : List Sym) (hs : Inv s) (ha : Accepting s) (hv : s.lutValid = true)
    (hm : s.sinkMode = .always) (hf : ∀ b ∈ bytes, s.freqOf b ≠ 0#32) (hp : s.pending = encodeCommands bytes) :
    ∃ t, Reaches s t ∧ t.pending = [] ∧ Accepting t ∧ t.sink = s.sink ++ bytes.flatMap fun b => (s.lutOf b).code := by
  induction bytes generalizing s with
  | nil => exact ⟨s, .refl, hp, ha, (List.append_nil _).symm⟩
  | cons b bytes ih =>
    obtain ⟨hb, hf⟩ := List.forall_mem_cons.1 hf
    obtain ⟨_, hu, cmd, data, phase, pos, node, rfl⟩ := reaches_encSym (rest := encodeCommands bytes) hs ha hv hm hb hp
    obtain ⟨t, ht, hpt, hat, hsink⟩ := ih (hs.of_reaches hu) ⟨ha.rstN, ha.busy, ha.err⟩ hv hm hf rfl
    exact ⟨t, hu.trans ht, hpt, hat, hsink.trans (List.append_assoc _ _ _)⟩

/-- Decoding the codewords of bytes present returns the bytes and takes every bit. -/
theorem reaches_decodeCommands {code : Sym → List Bool} (bytes : List Sym) (hs : Inv s) (ha : Accepting s)
    (hv : s.treeValid = true) (hcode : ∀ b ∈ bytes, s.freqOf b ≠ 0#32 ∧ codeOf s b = some (code b))
    (hsrc : s.src = bytes.flatMap code) (hp : s.pending = decodeCommands bytes.length) :
    ∃ t, Reaches s t ∧ t.pending = [] ∧ Accepting t ∧ t.src = [] ∧ t.reads = s.reads ++ bytes.map fun b => zext32 b := by
  induction bytes generalizing s with
  | nil => exact ⟨s, .refl, hp, ha, hsrc, (List.append_nil _).symm⟩
  | cons b bytes ih =>
    obtain ⟨⟨hf, hb⟩, hcode⟩ := List.forall_mem_cons.1 hcode
    obtain ⟨_, hu, cmd, data, phase, pos, node, rfl⟩ := reaches_decSym_read hs ha hv hf hb hsrc hp
    obtain ⟨t, ht, hpt, hat, hsrct, hreads⟩ := ih (hs.of_reaches hu) ⟨ha.rstN, ha.busy, ha.err⟩ hv hcode rfl rfl
    exact ⟨t, hu.trans ht, hpt, hat, hsrct, hreads.trans (List.append_assoc _ [zext32 b] _)⟩

/-- A derived entry's code is its symbol's path (R39 (c)). -/
theorem LutInv.codeOf_eq (h : LutInv s) (hv : s.lutValid = true) {b : Sym} (hf : s.freqOf b ≠ 0#32) :
    codeOf s b = some (s.lutOf b).code := by
  obtain ⟨c, hc, he⟩ := Option.map_eq_some_iff.1 (h hv b hf)
  rw [hc, ← he, entryOf]

end

/-- Settles O33: a table fixes the codewords (O37), so the codewords encoded are those the other block decodes. -/
theorem roundTripRestoresTheBytes : Obligations.RoundTripRestoresTheBytes := by
  intro s bytes hs hr hb he hv hm hf
  refine ⟨?_, fun d hd hdr hdb hde hdv hfreq => ?_⟩
  · obtain ⟨t, ht, hp, ha, hsink⟩ := reaches_encodeCommands (s := { s with pending := encodeCommands bytes }) bytes
      (hs.setPending _) ⟨hr, hb, he⟩ hv hm hf rfl
    obtain ⟨n, hn⟩ := exists_run_of_reaches ht
    exact ⟨n, t, hn, hp, ha.busy, ha.err, hsink⟩
  · have hside : HostStep { d with pending := decodeCommands bytes.length } .withdraw
        { d with pending := decodeCommands bytes.length, src := bytes.flatMap fun b => (s.lutOf b).code, reads := [] } :=
      .side (by simp) (.inr rfl) rfl
    have hcode : ∀ b ∈ bytes, d.freqOf b ≠ 0#32 ∧ codeOf d b = some (s.lutOf b).code := by
      intro b hmem
      have hfreqOf : ∀ x, s.freqOf x = d.freqOf x := fun x => by rw [State.freqOf, State.freqOf, hfreq]
      obtain ⟨-, -, -, hsame, -⟩ :=
        equalTablesGiveEqualTreesAndCodewords s d hs hd (hs.status.lut_tree hv) hdv hfreqOf
      exact ⟨hfreqOf b ▸ hf b hmem, hsame b ▸ hs.lut.codeOf_eq hv (hf b hmem)⟩
    obtain ⟨u, hu, hp, ha, hsrc, hreads⟩ := reaches_decodeCommands bytes (hside.inv (hd.setPending _)) ⟨hdr, hdb, hde⟩ hdv
      hcode rfl rfl
    obtain ⟨m, hm⟩ := exists_run_of_reaches hu
    exact ⟨m, u, hm, hp, ha.busy, ha.err, hsrc, hreads⟩

end Sys2Proof.Machine
end

section
/-! PROOFS. The control commands NOP and ERR_CLEAR (45_control R180, R181). -/

namespace Sys2Proof.Machine

theorem exec_nop (s : State) : exec .nop s = .next (complete s) := rfl

theorem exec_errClear (s : State) : exec .errClear s = .next (complete (leaveErrorState s)) := rfl

/-- ERR_CLEAR's neighbour has its opcode and a must-be-zero bit set (R181). -/
theorem decode_errClear_neighbour : decode 0x0C000001#32 = none := by
  have hopc : mnemonicOf (fieldOpc 0x0C000001#32) = some .errClear := rfl
  have hbit : ¬ ReservedZero 0x0C000001#32 .n := by
    unfold ReservedZero
    decide
  exact (decode_eq_none_iff_of_mnemonicOf hopc).2 hbit

/-- Settles O16: NOP is `complete` alone. -/
theorem nopOnlyCompletes : Obligations.NopOnlyCompletes :=
  ⟨decode_encode .nop, exec_nop⟩

/-- Settles O17: ERR_CLEAR is `complete` after `leaveErrorState`. -/
theorem errClearLeavesTheErrorState : Obligations.ErrClearLeavesTheErrorState :=
  ⟨decode_errClearWord, decode_errClear_neighbour, exec_errClear⟩

end Sys2Proof.Machine
end

section
/-! PROOFS. Exceptions (60_exceptions R205 to R213): no step stops the machine, a command that ends in error leaves the
state it found but for the error record, ERR locks the block until ERR_CLEAR or reset, OVR is sticky, and a DEC_SYM
whose source ends inside a codeword reports TRUNCATED. -/

namespace Sys2Proof.Machine

section
variable {s t : State} {i : Instr}

/-! TRUNCATED (R209, R212). -/

theorem descends_append {arena : Memory Node} {n : Nat} {c d : List Bool} :
    Descends arena n (c ++ d) ↔ Descends arena n c ∧ Descends arena (walk arena n c) d := by
  induction c generalizing n with
  | nil => simp [Descends, walk]
  | cons b c ih => simp [Descends, walk, ih, and_assoc]

/-- A descent that goes on past `c` has come to an internal node there. -/
theorem Descends.of_append {arena : Memory Node} {n : Nat} {c more : List Bool} (h : Descends arena n (c ++ more))
    (hne : more ≠ []) : Descends arena n c ∧ (nodeAt arena (walk arena n c)).leaf = false := by
  obtain ⟨b, more, rfl⟩ := List.exists_cons_of_ne_nil hne
  obtain ⟨hc, hl, -⟩ := descends_append.1 h
  exact ⟨hc, hl⟩

/-- Bits that come to an internal node are all taken, and the step after them finds the end of the stream (R209). -/
theorem engineRun_decSym_truncated (hs : readyFor .decSym s) (hv : s.treeValid = true)
    (hd : Descends s.arena s.root.toNat s.src) (hl : (nodeAt s.arena (walk s.arena s.root.toNat s.src)).leaf = false)
    (heos : s.eos = true) :
    ∃ m, engineRun (2 + s.src.length) s
      = .next (raiseError .truncated { s with pending := [], src := [], decNode := m, phase := .running }) := by
  obtain ⟨m, p, hm, hrun⟩ := engineRun_decSym hs hv hd (List.append_nil _).symm
  obtain ⟨hr, hb, -, hcmd⟩ := hs
  have harrive : decArrive m { s with pending := [], src := [], phase := p }
      = { s with pending := [], src := [], decNode := m, phase := .running } := decArrive_of_internal (hm ▸ hl)
  have hgo : Decoding { s with pending := [], src := [], decNode := m, phase := .running } := ⟨rfl, hr, hb, hcmd⟩
  have hlen : 2 + s.src.length = 1 + s.src.length + 1 := Nat.add_right_comm 1 1 _
  refine ⟨m, ?_⟩
  rw [hlen, hrun 1, harrive, run_succ_of_step (hgo.step_eos rfl rfl heos)]
  rfl

/-- Settles O31: the codeword is a descent, so bits that stop short of its end come to an internal node. -/
theorem decSymReportsTruncation : Obligations.DecSymReportsTruncation := by
  intro s sym more h hs hv hf hcode hmore heos
  obtain ⟨hd, -, -⟩ := h.tree.descends_codeOf h.count hv hf hcode
  obtain ⟨hd, hl⟩ := hd.of_append hmore
  obtain ⟨m, hrun⟩ := engineRun_decSym_truncated hs hv hd hl heos
  exact ⟨_, hrun, rfl⟩

/-! No step stops the machine (R205, R251; log 17). -/

/-- The engine's turn answers a next state, and leaves what the host has still to do. -/
theorem engineStep_answers (s : State) : ∃ t, engineStep s = .next t ∧ t.pending = s.pending := by
  by_cases hi : s.busy = false ∨ s.rstN = false
  · exact ⟨s, engineStep_idle hi, rfl⟩
  · obtain ⟨hb, hr⟩ : s.busy = true ∧ s.rstN = true := by simpa using hi
    cases hd : decode s.curCmd with
    | none => exact ⟨_, engineStep_illegal hr hb hd, rfl⟩
    | some i =>
      obtain ⟨t, ht⟩ := exec_answers i s
      exact ⟨t, (engineStep_run hr hb hd).trans ht, (cmdStep_of_exec ht).pending_eq⟩

/-- Settles O15: by whose turn it is; with no host action to come it is the engine's. -/
theorem everyStepAnswersANextState : Obligations.EveryStepAnswersANextState := by
  intro s
  cases hturn : turnOf s with
  | host e rest =>
    refine ⟨_, step_of_host hturn, fun hp => ?_⟩
    cases (turnOf_nil hp).symm.trans hturn
  | engine rest =>
    obtain ⟨t, ht, hpt⟩ := engineStep_answers { s with pending := rest }
    refine ⟨t, (step_of_engine hturn).trans ht, fun hp => ?_⟩
    cases (turnOf_nil hp).symm.trans hturn
    exact hpt

/-! Precise errors (R205, R212). -/

/-- Settles O43: a command that does not raise an error leaves ERR at 0. -/
theorem errorsArePrecise : Obligations.ErrorsArePrecise := by
  intro i s t hs h ht
  rcases (cmdStep_of_exec h).errors_cases with he | ⟨-, rfl⟩ | ⟨code, hc, rfl⟩
  · simp [he.err, hs] at ht
  · simp at ht
  · exact ⟨hc, rfl⟩

/-! The error lock (R207). -/

/-- With ERR = 1 and BUSY = 0 a host action but the CMD write of ERR_CLEAR and the assertion of reset changes at most DATA
and the host's own side (R24 (b), R25). -/
theorem HostStep.locked {e : HostEvent} (h : HostStep s e t) (he : s.err = true) (hb : s.busy = false)
    (hr : s.rstN = true) (hclear : e ≠ .writeReg 0 Config.errClearWord) (hreset : e ≠ .setRstN false) :
    t = { s with data := t.data, sinkMode := t.sinkMode, src := t.src, eos := t.eos, reads := t.reads } := by
  cases h with
  | data => rfl
  | overrun _ hb' => simp [hb] at hb'
  | accepted _ _ ha =>
    rcases ha with ha | rfl
    · simp [he] at ha
    · exact absurd rfl hclear
  | reset => exact absurd rfl hreset
  | side _ hrst ht =>
    have hrst : t.rstN = s.rstN := hrst.elim (fun h => h.trans hr.symm) id
    rw [hrst] at ht
    rw [ht]

/-- Settles O44: BUSY = 0 leaves the engine idle, and the host's actions are locked. -/
theorem errorLockKeepsTheBlock : Obligations.ErrorLockKeepsTheBlock := by
  intro s t he hb hr h hclear hreset
  cases stepKind_of_step h with
  | host e rest hturn h =>
    have ht := h.locked he hb hr (fun h => hclear ⟨rest, h ▸ hturn⟩) fun h => hreset ⟨rest, h ▸ hturn⟩
    rw [ht]
  | idle rest _ _ h => rw [h]
  | illegal _ _ _ hb' => simp [hb] at hb'
  | command i rest hrun =>
    obtain ⟨-, -, hb', -⟩ := hrun
    simp [hb] at hb'

/-! OVR (R210). -/

/-- The host's turn takes the next of its actions. -/
theorem pending_of_turnOf_host {e : HostEvent} {rest : List HostEvent} (h : turnOf s = .host e rest) :
    s.pending = e :: rest := by
  rcases turnOf_cases s with ⟨-, ht⟩ | ⟨_, -, ht⟩ | ⟨_, -, -, ht⟩ | ⟨_, _, hp, -, -, ht⟩ <;> cases ht.symm.trans h
  exact hp

/-- A host action leaves OVR, sets it as a CMD write while busy, or is the assertion of reset. -/
theorem HostStep.ovr_cases {e : HostEvent} (h : HostStep s e t) :
    t.ovr = s.ovr ∨ (∃ w, e = .writeReg 0 w ∧ s.busy = true ∧ t = { s with ovr := true })
      ∨ (e = .setRstN false ∧ t.ovr = false) := by
  cases h with
  | overrun _ hb => exact .inr (.inl ⟨_, rfl, hb, rfl⟩)
  | reset => exact .inr (.inr ⟨rfl, rfl⟩)
  | side _ _ ht => exact .inl (by rw [ht])
  | _ => exact .inl rfl

/-- No command but ERR_CLEAR, which clears it, writes OVR (R181). -/
theorem CmdStep.ovr_cases (h : CmdStep s i t) : t.ovr = s.ovr ∨ (i = .errClear ∧ t.ovr = false) := by
  cases h with
  | errClear => exact .inr ⟨rfl, rfl⟩
  | _ => exact .inl rfl

/-- A step leaves OVR, is a CMD write while busy, or clears it by ERR_CLEAR or reset. -/
theorem StepKind.ovr_cases (h : StepKind s t) : t.ovr = s.ovr
    ∨ (∃ w rest, s.pending = .writeReg 0 w :: rest ∧ s.busy = true ∧ t = { s with pending := rest, ovr := true })
    ∨ (t.ovr = false ∧ (engineRuns s .errClear ∨ hostDoes s (.setRstN false))) := by
  cases h with
  | host e rest hturn h =>
    rcases h.ovr_cases with ho | ⟨w, rfl, hb, ht⟩ | ⟨rfl, ho⟩
    · exact .inl ho
    · exact .inr (.inl ⟨w, rest, pending_of_turnOf_host hturn, hb, ht⟩)
    · exact .inr (.inr ⟨ho, .inr ⟨rest, hturn⟩⟩)
  | idle _ _ _ h | illegal _ _ _ _ _ h =>
    subst h
    exact .inl rfl
  | command i rest hrun h =>
    rcases h.ovr_cases with ho | ⟨rfl, ho⟩
    · exact .inl ho
    · exact .inr (.inr ⟨ho, .inl hrun⟩)

/-- Settles O45: the CMD write while busy is O9's first outcome, and the three things a step can do to OVR give its rise
and its fall. -/
theorem overrunIsStickyAndHarmless : Obligations.OverrunIsStickyAndHarmless := by
  intro s t h
  refine ⟨fun w rest hr hb hp => ?_, fun hs ht => ?_, fun hs ht => ?_⟩
  · obtain ⟨hdrop, -⟩ := commandWriteIsDroppedDiscardedOrAccepted s w rest hr hp
    cases (hdrop hb).symm.trans h
    rfl
  · rcases (stepKind_of_step h).ovr_cases with ho | hset | ⟨ho, -⟩
    · simp [ho, hs] at ht
    · exact hset
    · simp [ho] at ht
  · rcases (stepKind_of_step h).ovr_cases with ho | ⟨_, _, -, -, rfl⟩ | ⟨-, hclear⟩
    · simp [ho, hs] at ht
    · simp at ht
    · exact hclear

end
end Sys2Proof.Machine
end

section
/-! PROOFS. Reset (70_reset R230 to R234): the values it leaves, what it does to the block and to the host's side, and
the invariants it meets. -/

namespace Sys2Proof.Machine

section
variable {s t : State}

/-! The values of R230. -/

/-- In reset ID reads its word and every other register 0. -/
theorem readReg_reset (k : BitVec 4) : readReg State.reset k = if k = 9 then 0x48554601#32 else 0#32 := by
  revert k
  decide

/-- What the registers of a block in reset read does not depend on the host's side (R234). -/
theorem readReg_resetBlock (s : State) (level : Bool) (k : BitVec 4) :
    readReg { resetBlock s with rstN := level } k = readReg State.reset k := rfl

/-- Settles O52: the registers by the table, the empty FREQ entry by entry; an idle engine wants nothing of a port. -/
theorem resetLeavesTheValuesOfItsTable : Obligations.ResetLeavesTheValuesOfItsTable :=
  ⟨readReg_reset, fun _ => rfl, rfl, rfl, rfl⟩

/-! The reset signal. -/

/-- A block in its reset state is as it was after its reset. -/
theorem resetBlock_eq_self_of_inReset (h : InResetInv s) (hr : s.rstN = false) :
    { resetBlock s with rstN := false } = s := by
  rw [h hr, ← hr]

/-- While rst_n = 0 a host action that leaves it there changes only the host's own side (R231, log 20). -/
theorem HostStep.inReset_frame {e : HostEvent} (h : HostStep s e t) (hs : InResetInv s) (hr : s.rstN = false)
    (ht : t.rstN = false) : t = { s with sinkMode := t.sinkMode, src := t.src, eos := t.eos, reads := t.reads } := by
  cases h with
  | data hr' | overrun hr' | accepted hr' => simp [hr] at hr'
  | reset => rw [resetBlock_eq_self_of_inReset hs hr]
  | side _ _ hside =>
    rw [ht, ← hr] at hside
    exact hside

/-- While rst_n = 0 a step that leaves it there changes only the host's own side. -/
theorem StepKind.inReset_frame (h : StepKind s t) (hs : InResetInv s) (hr : s.rstN = false) (ht : t.rstN = false) :
    t = { s with sinkMode := t.sinkMode, src := t.src, eos := t.eos, pending := t.pending, reads := t.reads } := by
  cases h with
  | host e rest _ h =>
    have hs' : InResetInv { s with pending := rest } := fun _ =>
      congrArg (fun u : State => { u with pending := rest }) (hs hr)
    have heq := h.inReset_frame hs' hr ht
    rw [heq]
  | idle rest _ _ h => rw [h]
  | illegal _ _ hr' => simp [hr] at hr'
  | command i rest hrun =>
    obtain ⟨-, hr', -⟩ := hrun
    simp [hr] at hr'

/-- Settles O53: the assertion leaves `resetBlock`, the step in reset is `StepKind.inReset_frame`, and the release is
one field. -/
theorem resetSignalResetsAndHoldsTheBlock : Obligations.ResetSignalResetsAndHoldsTheBlock := by
  intro s t rest h
  refine ⟨fun hp => ?_, fun hr hs ht => (stepKind_of_step h).inReset_frame hs hr ht, fun hp => ?_⟩
  · cases (step_of_action hp (by simp) (by simp)).symm.trans h
    exact ⟨fun k => (readReg_resetBlock _ _ k).trans (readReg_reset k), fun _ => rfl, rfl, rfl, rfl, rfl, rfl, rfl, rfl,
      rfl, rfl⟩
  · cases (step_of_action hp (by simp) (by simp)).symm.trans h
    rfl

/-! The invariants. -/

/-- R230: State.reset is what the assertion of reset leaves, once rst_n is released. -/
theorem inv_reset : Inv State.reset :=
  have hreleased : step { resetBlock .reset with rstN := false, pending := [.setRstN true] } = .next State.reset := rfl
  stepKeepsEveryInvariant _ _ hreleased ((resetBlock_inv .reset).setPending _)

/-- Settles O54: R28 holds to the letter because BUSY = 0. -/
theorem resetStateMeetsEveryInvariant : Obligations.ResetStateMeetsEveryInvariant :=
  ⟨inv_reset, inv_reset.status.rule28 fun _ => rfl⟩

end
end Sys2Proof.Machine
end

section
/-! PROOFS. Bounded termination (70_reset R251): while no port can hold it, each engine step of the command in flight
ends it or brings it nearer to its end. ENC_SYM counts up to its codeword's length, DEC_SYM goes down the tree. -/

namespace Sys2Proof.Machine

section
variable {s t : State} {i : Instr}

/-- A command is in flight, only the engine moves, and no port can hold it. -/
structure Unheld (s : State) : Prop where
  inv : Inv s
  pending : s.pending = []
  rstN : s.rstN = true
  busy : s.busy = true
  sinkMode : s.sinkMode = .always
  eos : s.eos = true

/-- A bound on the engine steps the command in flight takes after its next one: a start step may have 255 bits after it
(R8 MAX_CODE_LEN), an emit step has the bits not yet emitted, and a bit step the levels of the tree still below it. -/
def stepsAfterNext (s : State) : Nat :=
  match s.phase with
  | .start => 255
  | .running =>
    match decode s.curCmd with
    | some (.encSym sym) => (s.lutOf sym).len.toNat - 1 - s.encPos.toNat
    | _ => 254 - (path s.arena s.nodes.toNat s.root.toNat s.decNode.toNat).length

theorem stepsAfterNext_start (hp : s.phase = .start) : stepsAfterNext s = 255 := by
  simp [stepsAfterNext, hp]

theorem stepsAfterNext_encSym {sym : Sym} (hp : s.phase = .running) (hd : decode s.curCmd = some (.encSym sym)) :
    stepsAfterNext s = (s.lutOf sym).len.toNat - 1 - s.encPos.toNat := by
  simp [stepsAfterNext, hp, hd]

theorem stepsAfterNext_decSym (hp : s.phase = .running) (hd : decode s.curCmd = some .decSym) :
    stepsAfterNext s = 254 - (path s.arena s.nodes.toNat s.root.toNat s.decNode.toNat).length := by
  simp [stepsAfterNext, hp, hd]

/-- Past the start step there is one step fewer to come. -/
theorem stepsAfterNext_lt_of_running (hp : s.phase = .running) : stepsAfterNext s < 255 := by
  simp only [stepsAfterNext, hp]
  split <;> omega

theorem stepsAfterNext_le (s : State) : stepsAfterNext s ≤ 255 := by
  rcases s.phase.eq_start_or_running with hp | hp
  · exact (stepsAfterNext_start hp).le
  · exact (stepsAfterNext_lt_of_running hp).le

theorem Unheld.not_held (h : Unheld s) : ¬ Held s i := by
  rintro (⟨-, ha⟩ | ⟨-, -, he⟩)
  · simp [h.sinkMode, SinkMode.accepts] at ha
  · simp [h.eos] at he

/-- Past its start step ENC_SYM has bits left to emit. -/
theorem EngineInv.encPos_lt {sym : Sym} (h : EngineInv s) (hb : s.busy = true) (hp : s.phase = .running)
    (hd : decode s.curCmd = some (.encSym sym)) : s.encPos < (s.lutOf sym).len := by
  obtain ⟨_, hd', -, -, hlt⟩ | ⟨hd', -⟩ := h.2 hb hp <;> cases hd.symm.trans hd'
  exact hlt

/-- Past its start step DEC_SYM stands at an internal node of a valid tree. -/
theorem EngineInv.decNode_internal (h : EngineInv s) (hb : s.busy = true) (hp : s.phase = .running)
    (hd : decode s.curCmd = some .decSym) :
    s.treeValid = true ∧ s.decNode.toNat < s.nodes.toNat ∧ (s.nodeOf s.decNode.toNat).leaf = false := by
  obtain ⟨_, hd', -⟩ | ⟨-, htree⟩ := h.2 hb hp
  · cases hd.symm.trans hd'
  · exact htree

/-- An emit step that is not the last leaves one bit fewer (R161). -/
theorem Unheld.stepsAfterNext_emitted_lt {sym : Sym} (h : Unheld s) (hp : s.phase = .running)
    (hd : decode s.curCmd = some (.encSym sym)) (hl : s.encPos + 1#8 ≠ (s.lutOf sym).len) :
    stepsAfterNext (emitted sym s) < stepsAfterNext s := by
  have hlt := h.inv.engine.encPos_lt h.busy hp hd
  rw [stepsAfterNext_encSym (s := emitted sym s) hp hd, stepsAfterNext_encSym hp hd]
  change (s.lutOf sym).len.toNat - 1 - (s.encPos + 1#8).toNat < (s.lutOf sym).len.toNat - 1 - s.encPos.toNat
  bv_omega

/-- A bit step to an internal node comes one level down, and below that node there is still a level (R171). -/
theorem Unheld.stepsAfterNext_child_lt (h : Unheld s) (hp : s.phase = .running) (hd : decode s.curCmd = some .decSym)
    {b : Bool} (hl : (s.nodeOf (childOf (s.nodeOf s.decNode.toNat) b).toNat).leaf = false) (src : List Bool) :
    stepsAfterNext { s with src := src, decNode := childOf (s.nodeOf s.decNode.toNat) b, phase := .running }
      < stepsAfterNext s := by
  obtain ⟨hv, hp₀, hl₀⟩ := h.inv.engine.decNode_internal h.busy hp hd
  have hc := h.inv.count
  have ht := h.inv.tree
  have hp₁ := (ht.child_lt hc hv hp₀ hl₀ b).trans hp₀
  have hbelow := ht.path_length_le hc hv ((ht.child_lt hc hv hp₁ hl b).trans hp₁)
  rw [ht.path_childOf hc hv hp₁ hl b, ht.path_childOf hc hv hp₀ hl₀ b] at hbelow
  rw [stepsAfterNext_decSym hp hd, stepsAfterNext_decSym (s := { s with src := src, decNode := _, phase := _ }) rfl hd]
  simp only [ht.path_childOf hc hv hp₀ hl₀ b, List.length_append, List.length_singleton] at hbelow ⊢
  omega

/-- An engine step of an unheld command that does not end it leaves fewer to come. -/
theorem CmdStep.stepsAfterNext_lt (h : CmdStep s i t) (hs : Unheld s) (hd : decode s.curCmd = some i)
    (hb : t.busy = true) : stepsAfterNext t < stepsAfterNext s := by
  cases h with
  | held h => exact absurd h hs.not_held
  | encStarts hp =>
    rw [stepsAfterNext_start hp]
    exact stepsAfterNext_lt_of_running rfl
  | encEmits hp _ hl => exact hs.stepsAfterNext_emitted_lt hp hd hl
  | decMoves hm hl =>
    cases hm with
    | root hp =>
      rw [stepsAfterNext_start hp]
      exact stepsAfterNext_lt_of_running rfl
    | bit b hp _ hn =>
      subst hn
      exact hs.stepsAfterNext_child_lt hp hd hl _
  | _ => simp at hb

/-- The host's levels stay while only the engine moves. -/
theorem CmdStep.levels (h : CmdStep s i t) (hm : s.sinkMode = .always) : t.sinkMode = .always ∧ t.eos = s.eos := by
  cases h with
  | encEmits | encEnds => exact ⟨(congrArg SinkMode.afterTransfer hm :), rfl⟩
  | _ => exact ⟨hm, rfl⟩

/-- Until it ends, an unheld command stays so. -/
theorem CmdStep.unheld (h : CmdStep s i t) (hs : Unheld s) (hd : decode s.curCmd = some i) (hb : t.busy = true) :
    Unheld t := by
  obtain ⟨hm, he⟩ := h.levels hs.sinkMode
  exact ⟨h.inv hs.inv hs.rstN hs.busy hd, h.pending_eq.trans hs.pending, h.rstN_eq.trans hs.rstN, hb, hm,
    he.trans hs.eos⟩

/-- The next step ends an unheld command, or brings it nearer to its end. -/
theorem Unheld.step (h : Unheld s) :
    ∃ t, step s = .next t ∧ (t.busy = false ∨ (Unheld t ∧ stepsAfterNext t < stepsAfterNext s)) := by
  rw [step_of_nil h.pending]
  cases hd : decode s.curCmd with
  | none => exact ⟨_, engineStep_illegal h.rstN h.busy hd, .inl rfl⟩
  | some i =>
    obtain ⟨t, ht⟩ := exec_answers i s
    have hk := cmdStep_of_exec ht
    refine ⟨t, (engineStep_run h.rstN h.busy hd).trans ht, ?_⟩
    rcases Bool.eq_false_or_eq_true t.busy with hb | hb
    · exact .inr ⟨hk.unheld h hd hb, hk.stepsAfterNext_lt h hd hb⟩
    · exact .inl hb

/-- An unheld command ends, by induction on the steps still to come. -/
theorem Unheld.ends {s : State} (h : Unheld s) :
    ∃ n t, n ≤ stepsAfterNext s + 1 ∧ Host.Core.run Sys2Proof.core n s = .next t ∧ t.busy = false := by
  obtain ⟨t, hstep, hb | ⟨ht, hlt⟩⟩ := h.step
  · exact ⟨1, t, by omega, run_succ_of_step hstep 0, hb⟩
  · obtain ⟨n, u, hn, hrun, hu⟩ := ht.ends
    exact ⟨n + 1, u, by omega, (run_succ_of_step hstep n).trans hrun, hu⟩
termination_by stepsAfterNext s

/-- Settles O59: at most 255 steps come after the first. -/
theorem commandsEndWithin256Steps : Obligations.CommandsEndWithin256Steps := by
  intro s h hr hb hm he
  have hs : Unheld { s with pending := [] } := ⟨h.setPending [], rfl, hr, hb, hm, he⟩
  obtain ⟨n, t, hn, hrun, ht⟩ := hs.ends
  exact ⟨n, t, hn.trans (Nat.succ_le_succ (stepsAfterNext_le _)), hrun, ht⟩

end
end Sys2Proof.Machine
end
